-- ==== Sys2Proof/Word.lean ====
section
/-! DEFINITION. The word types of WPX-CORE: the widths of spec/10_state.md and spec/30_encoding.md, and nothing else. -/

namespace Sys2Proof

/-- One byte of a raw or of a compressed stream (R28, R34): 8 bits, unsigned. -/
abbrev Byte := BitVec 8

/-- A coder register or the history accumulator (R12, R13, R14, R17), or a mixer weight (R22): 32 bits. -/
abbrev Word := BitVec 32

/-- A 12-bit table counter, mixer latch or probability register (R7, R19, R20, R23). -/
abbrev Prob := BitVec 12

/-- A command word, format `CMD16` (R50). -/
abbrev CmdWord := BitVec 16

/-- A response word, format `RSP16` (R52). -/
abbrev RspWord := BitVec 16

end Sys2Proof
end

