-- ==== Sys2Proof/Syntax.lean ====
section
/-! DEFINITION. The command set: one constructor per row of spec/opcode_table.json (R50). -/

namespace Sys2Proof

/-- The six commands of R50, the block's instructions. Only ENC_BYTE has an operand: `opd = cmd[7:0]` (R51). -/
inductive Instr where
  /-- NOP (R135): read STATUS. -/
  | nop
  /-- START_ENC (R136): open an encode stream. -/
  | startEnc
  /-- START_DEC (R137): open a decode stream. -/
  | startDec
  /-- ENC_BYTE c (R138): encode one byte. -/
  | encByte (c : Byte)
  /-- ENC_END (R139): encode the end marker, flush, close the stream. -/
  | encEnd
  /-- DEC_BYTE (R140): decode one byte. -/
  | decByte
  deriving DecidableEq, Repr

end Sys2Proof
end

