-- ==== Sys2Proof/WellFormed.lean ====
section
/-! DEFINITION. The form of a command word (R50, R53 (a) to (c)) and of a command. Legality by mode (R53 (d)) is no matter of
form: it stands with the machine (`Machine.legalModes`). -/

namespace Sys2Proof

/-- Field `op = cmd[15:12]` (R50). -/
def opField (w : CmdWord) : BitVec 4 := w.extractLsb' 12 4

/-- Field `rsv = cmd[11:8]` (R50). -/
def rsvField (w : CmdWord) : BitVec 4 := w.extractLsb' 8 4

/-- Field `opd = cmd[7:0]` (R50, R51): an unsigned byte used as is. -/
def opdField (w : CmdWord) : Byte := w.extractLsb' 0 8

/-- Check (a) of R53: the reserved field is zero. -/
def rsvOk (w : CmdWord) : Bool := rsvField w == 0

/-- Check (b) of R53: the opcode is one of 0x0 to 0x5. -/
def opOk (w : CmdWord) : Bool := decide ((opField w).toNat ≤ 5)

/-- Check (c) of R53: only ENC_BYTE (opcode 0x3) has a non-zero operand field. -/
def opdOk (w : CmdWord) : Bool := opField w == 3 || opdField w == 0

/-- A word that some command has (R53 (a) to (c)). -/
def wordOk (w : CmdWord) : Bool := rsvOk w && opOk w && opdOk w

/-- A command as syntax is well formed: the one operand is a byte by its type (R50: `c` = 0x00..0xFF), so no term of
`Instr` is ill formed; what can be ill formed is a word (`wordOk`). One line per constructor, so that a new command
cannot slip past. -/
def Instr.wellFormed : Instr → Bool
  | .nop => true
  | .startEnc => true
  | .startDec => true
  | .encByte _ => true
  | .encEnd => true
  | .decByte => true

end Sys2Proof
end

