-- ==== Sys2Proof/Decode.lean ====
section
/-! DEFINITION. The decoder of a command word (R50, R53), total on all 65536 words and refusing by name, and the encoder. -/

namespace Sys2Proof

/-- Why a word is no command (R53); the machine raises ILLEGAL_CMD for each of them alike. -/
inductive DecodeError where
  /-- R53 (a): `rsv ≠ 0`. -/
  | reservedField
  /-- R53 (b): `op` is 0x6..0xF. -/
  | reservedOpcode
  /-- R53 (c): `op ≠ 0x3` and `opd ≠ 0x00`. -/
  | operandNotZero
  deriving DecidableEq, Repr

/-- A command without operand: its `opd` must be 0x00 (R50, R53 (c)). -/
def noOperand (i : Instr) (opd : Byte) : Except DecodeError Instr :=
  if opd = 0 then .ok i else .error .operandNotZero

/-- The command a word stands for, by the opcode map of R50, the tests in the order of R53. -/
def decodeWord (w : CmdWord) : Except DecodeError Instr :=
  if rsvField w ≠ 0 then .error .reservedField
  else
    match (opField w).toNat with
    | 0 => noOperand .nop (opdField w)
    | 1 => noOperand .startEnc (opdField w)
    | 2 => noOperand .startDec (opdField w)
    | 3 => .ok (.encByte (opdField w))
    | 4 => noOperand .encEnd (opdField w)
    | 5 => noOperand .decByte (opdField w)
    | _ => .error .reservedOpcode

/-- The instruction the decoder reads from a table row's bits: one 16-bit word, numbered as the word is (R50, R55). -/
def decodeTableWord (nbits w : Nat) : Option Instr :=
  match decodeWord (BitVec.ofNat 16 (w % 2 ^ nbits)) with
  | .ok i => some i
  | .error _ => none

/-- The word of a command: `op`, a zero `rsv`, `opd` (R50). -/
def encodeWord : Instr → CmdWord
  | .nop => 0x0000
  | .startEnc => 0x1000
  | .startDec => 0x2000
  | .encByte c => (0x30 : BitVec 8) ++ c
  | .encEnd => 0x4000
  | .decByte => 0x5000

/-- The words of a command: always exactly one (R50, R55). -/
def encode (i : Instr) : List CmdWord := [encodeWord i]

/-- One row of the opcode map: a word belongs to it when its masked bits are the row's match (R50). -/
structure OpcodeRow where
  /-- The mnemonic of R50. -/
  mnemonic : String
  /-- The column "match". -/
  bits : CmdWord
  /-- The column "mask". -/
  mask : CmdWord
  deriving DecidableEq, Repr

/-- The opcode map of R50 as the six (match, mask) pairs it gives; the decoder above is proved against it, not made from it. -/
def opcodeRows : List OpcodeRow :=
  [⟨"NOP", 0x0000, 0xFFFF⟩, ⟨"START_ENC", 0x1000, 0xFFFF⟩, ⟨"START_DEC", 0x2000, 0xFFFF⟩,
   ⟨"ENC_BYTE", 0x3000, 0xFF00⟩, ⟨"ENC_END", 0x4000, 0xFFFF⟩, ⟨"DEC_BYTE", 0x5000, 0xFFFF⟩]

/-- The mnemonic of a command, as R50 writes it. -/
def mnemonicOf : Instr → String
  | .nop => "NOP"
  | .startEnc => "START_ENC"
  | .startDec => "START_DEC"
  | .encByte _ => "ENC_BYTE"
  | .encEnd => "ENC_END"
  | .decByte => "DEC_BYTE"

/-- A word lies in a row of the opcode map (R50). -/
def OpcodeRow.holds (r : OpcodeRow) (w : CmdWord) : Bool := w &&& r.mask == r.bits

end Sys2Proof
end

