-- ==== Sys2Proof/Config.lean ====
section
/-! DEFINITION. The parameters of rule R4, as named constants at their one validated value (U15), and the free values:
constants without a body that stand for what the spec calls unspecified (U1, U4). -/

namespace Sys2Proof.Config

/-- `PROB_BITS` (R4): the probability scale is 2^12. -/
@[simp] abbrev probBits : Nat := 12
/-- 2^`PROB_BITS`, the probability scale and the value `bit * 4096` of a 1 bit (R7, R78, R124). -/
@[simp] abbrev probOne : Nat := 4096
/-- `PROB_MIN` (R4). -/
@[simp] abbrev probMin : Nat := 1
/-- `PROB_MAX` (R4). -/
@[simp] abbrev probMax : Nat := 4095
/-- `PROB_NEUTRAL` (R4). -/
@[simp] abbrev probNeutral : Nat := 2048
/-- `NODE_INIT` (R4): the node at a byte boundary. -/
@[simp] abbrev nodeInit : Nat := 1
/-- `W` (R4): the width of `low`, `range`, `code`; the type `Word` has it. -/
@[simp] abbrev coderBits : Nat := 32
/-- `RC_INIT_LOW` (R4). -/
@[simp] abbrev rcInitLow : Nat := 0
/-- `RC_INIT_RANGE` (R4). -/
@[simp] abbrev rcInitRange : Nat := 0xFFFFFFFF
/-- `RC_MIN_RANGE` (R4): renormalise while `range` is below this. -/
@[simp] abbrev rcMinRange : Nat := 0x00010000
/-- `RC_FLUSH_BYTES` (R4). -/
@[simp] abbrev rcFlushBytes : Nat := 4
/-- `RC_INIT_BYTES` (R4). -/
@[simp] abbrev rcInitBytes : Nat := 4
/-- `RATE` (R4): the shift of the counter update. -/
@[simp] abbrev rate : Nat := 4
/-- `CTR_BITS` (R4): the width of an order-0 or order-1 counter; the type `Prob` has it. -/
@[simp] abbrev ctrBits : Nat := 12
/-- `O0_ENTRIES` (R4). -/
@[simp] abbrev o0Entries : Nat := 256
/-- `O1_ENTRIES` (R4). -/
@[simp] abbrev o1Entries : Nat := 65536
/-- 2^`HASH_BITS`: the entry count of the hashed table (R4, R21). -/
@[simp] abbrev hxEntries : Nat := 65536
/-- `K` (R4): bytes of history hashed by the long-context model. -/
@[simp] abbrev histBytes : Nat := 4
/-- `ACC_BITS` (R4): the width of `acc`; the type `Word` has it. -/
@[simp] abbrev accBits : Nat := 32
/-- `HASH_MUL` (R4). -/
@[simp] abbrev hashMul : Nat := 0x9E3779B1
/-- `HASH_BITS` (R4). -/
@[simp] abbrev hashBits : Nat := 16
/-- `KEY_BITS` (R4). -/
@[simp] abbrev keyBits : Nat := 16
/-- `CNT_BITS` (R4): the width of `count0`, `count1`. -/
@[simp] abbrev cntBits : Nat := 8
/-- `HX_LIMIT` (R4): both counts are halved when either would exceed this. -/
@[simp] abbrev hxLimit : Nat := 255
/-- `N_INPUTS` (R4): mixer inputs per bit. -/
@[simp] abbrev nInputs : Nat := 3
/-- `W_BITS` (R4): the width of a weight; the type `Word` has it. -/
@[simp] abbrev wBits : Nat := 32
/-- `W_FRAC` (R4): fractional bits of a weight. -/
@[simp] abbrev wFrac : Nat := 24
/-- `W_INIT` (R4): initial weight of each input, floor(2^24 / 3). -/
@[simp] abbrev wInit : Nat := 5592405
/-- `B_INIT` (R4): initial bias weight. -/
@[simp] abbrev bInit : Nat := 0
/-- `BIAS_IN` (R4): the constant input the bias weight multiplies. -/
@[simp] abbrev biasIn : Nat := 4096
/-- `LR_SHIFT` (R4): the learning rate is 2^-10. -/
@[simp] abbrev lrShift : Nat := 10
/-- `W_MIN` (R4). -/
@[simp] abbrev wMin : Int := -2147483648
/-- `W_MAX` (R4). -/
@[simp] abbrev wMax : Int := 2147483647
/-- `EOS_BYTE` (R4): the byte the end marker decodes to. -/
@[simp] abbrev eosByte : Nat := 0x00
/-- `CMD_BITS` (R4): the width of a command word; the type `CmdWord` has it. -/
@[simp] abbrev cmdBits : Nat := 16
/-- `RSP_BITS` (R4): the width of a response word; the type `RspWord` has it. -/
@[simp] abbrev rspBits : Nat := 16

/-- FREE VALUE (log entries 2 and 3): the `n`-th value that the spec leaves unspecified in a register of `w` bits:
a register after a RESET pulse (R175, U1), a mixer latch after `STREAM_INIT` (R29, U4). No body: nothing is known of it. -/
opaque freeBits (w n : Nat) : BitVec w

/-- FREE VALUE (log entry 2): what an order-0 or order-1 table holds after a RESET pulse (R175, U1). -/
opaque freeCounters (n : Nat) : List (Nat × BitVec 12)

/-- FREE VALUE (log entry 2): what the hashed table holds after a RESET pulse (R175, U1), one 32-bit entry a slot. -/
opaque freeSlots (n : Nat) : List (Nat × BitVec 32)

end Sys2Proof.Config
end

