-- ==== Sys2Proof/Machine/State.lean ====
section
/-! DEFINITION. The state of WPX-CORE: the tuple of R10, grouped by the component that owns each part, the host's side of the
block's ports, and the counter of free values. Plain data. -/

namespace Sys2Proof.Machine

/-- The 2-bit sequencing register `mode` (R24); `Mode.code` gives its encoding. -/
inductive Mode where
  /-- 0: no stream open. -/
  | idle
  /-- 1: an encode stream is open. -/
  | enc
  /-- 2: a decode stream is open. -/
  | dec
  /-- 3: terminal, left by RESET only. -/
  | fault
  deriving DecidableEq, Repr

/-- The four faults of the block (R151). They are no faults of the model: raising one is a next state (R153). -/
inductive FaultCode where
  /-- Code 1: a word that is no command, or a command not legal in the current mode (R53). -/
  | illegalCmd
  /-- Code 2: the probability handed to the coder is outside 1..4095 (R86). -/
  | probRange
  /-- Code 3: `range = 0` after narrowing (R87). -/
  | rangeUnderflow
  /-- Code 4: a byte of `cin` is needed and the stream has ended (R36). -/
  | inUnderrun
  deriving DecidableEq, Repr

/-- The entropy coder's registers (R12, R13, R14). -/
@[ext]
structure Coder where
  /-- R12: the lower end of the coding interval. -/
  low : Word
  /-- R13: the width of the coding interval. -/
  range : Word
  /-- R14: the decoder's 32-bit window of the compressed input. -/
  code : Word
  deriving DecidableEq, Repr

/-- The history registers of the context models (R16, R17, R18). -/
structure History where
  /-- R16: the previous full byte. -/
  c1 : Byte
  /-- R17: the last four bytes, the most recent in bits 7:0. -/
  acc : Word
  /-- R18: the number of bytes rolled in since stream start, stopping at 4. -/
  nbytes : BitVec 3
  deriving DecidableEq, Repr

/-- One entry of the hashed table: `{key, count0, count1}`, 32 bits (R21). -/
structure HxEntry where
  /-- The check value. -/
  key : BitVec 16
  /-- The number of 0 bits seen, after halvings. -/
  count0 : BitVec 8
  /-- The number of 1 bits seen, after halvings. -/
  count1 : BitVec 8
  deriving DecidableEq, Repr

/-- A table memory: the entries that differ from what an unlisted index reads as, at strictly rising indices
(`TabWf` says so). A table's smallest addressable unit is one whole entry (R30). -/
abbrev Table (α : Type) := List (Nat × α)

/-- The three table memories (R30). -/
structure Memory where
  /-- R19: 256 counters, indexed by the node. -/
  o0 : Table Prob
  /-- R20: 65536 counters, indexed by `{c1, node}`. -/
  o1 : Table Prob
  /-- R21: 65536 slots, indexed by the hash. -/
  hx : Table HxEntry
  deriving DecidableEq, Repr

/-- The mixer's registers and latches (R22, R23). -/
structure Mixer where
  /-- `w[0]` (R22): the order-0 weight, signed Q8.24. -/
  w0 : Word
  /-- `w[1]` (R22): the order-1 weight. -/
  w1 : Word
  /-- `w[2]` (R22): the hashed model's weight. -/
  w2 : Word
  /-- `w[3]` (R22): the bias weight. -/
  w3 : Word
  /-- `st[0]` (R23): the first input of the current bit. -/
  st0 : Prob
  /-- `st[1]` (R23). -/
  st1 : Prob
  /-- `st[2]` (R23). -/
  st2 : Prob
  /-- `nadd` (R23): the `MX.ADD` calls made for the current bit, 0..3. -/
  nadd : BitVec 2
  /-- `pr` (R23): the combined probability of the current bit. -/
  pr : Prob
  deriving DecidableEq, Repr

/-- What the host can do to the block (R10): pulse RESET, write a command word, supply the compressed input stream. -/
inductive HostInput where
  /-- A pulse of the RESET input (R175). -/
  | reset
  /-- One word written to the command port (R50). -/
  | command (w : CmdWord)
  /-- The whole compressed stream made available as `cin` (R28, R177). -/
  | supply (stream : List Byte)
  deriving DecidableEq, Repr

/-- The state of the machine: the tuple of R10 and, as the model's own fields, the host's side of the ports
(`inputs`, `rsps`: log entry 1) and the counter of free values (`free`: log entries 2 and 3). -/
@[ext]
structure State where
  /-- R24. -/
  mode : Mode
  /-- R25: the code of the fault that stopped the block, 0 = none. -/
  fault : BitVec 4
  /-- R26: end of stream. -/
  eos : Bool
  /-- R15: the bit-context node. -/
  node : BitVec 8
  /-- R12 to R14: `low`, `range`, `code`. -/
  coder : Coder
  /-- R16 to R18: `c1`, `acc`, `nbytes`. -/
  hist : History
  /-- R19 to R21: `O0`, `O1`, `HX`. -/
  mem : Memory
  /-- R22, R23: `w[0..3]`, `st[0..2]`, `nadd`, `pr`. -/
  mixer : Mixer
  /-- R28: the compressed output stream, append only. -/
  cout : List Byte
  /-- R28: the compressed input stream as supplied, from its first byte. -/
  cin : List Byte
  /-- R28: the read position in `cin`: how many of its bytes are consumed. -/
  cinPos : Nat
  /-- The model's own: what the host does next, in order (the RESET input, the command port, the supply of `cin`). -/
  inputs : List HostInput
  /-- The model's own: the response words the block has returned, in order (R52). -/
  rsps : List RspWord
  /-- The model's own: how many free values have been used. -/
  free : Nat
  deriving DecidableEq, Repr

/-- A model fault: the machine stops. The block's own faults (`FaultCode`) are next states and never this. -/
inductive Fault where
  /-- A mixer procedure was called outside its sequencing contract: `MX.ADD` a fourth time, `MX.GET` or `MX.UPDATE` with
  `nadd ≠ 3`. R125: "the case of a violated precondition has no behaviour and no fault code" (U8). Raised by `mxAdd`,
  `mxGet`, `mxUpdate` through ENC_BYTE, ENC_END, DEC_BYTE, and only in a state with `nadd ≠ 0` between commands, which no
  run reaches (R23). Safe: the model stops where the spec gives no effect. -/
  | mixerSequence
  deriving DecidableEq, Repr

/-- A refusal: the model gives no meaning. -/
inductive Refusal where
  /-- A command whose meaning is not written; no arm of `exec` answers it. Safe. -/
  | notModelled (mnemonic : String)
  /-- The host supplies `cin` while a decode stream is open. U17 and R182: in the model `cin` is the complete list from
  START_DEC on, and a supply in pieces is outside the spec ("refuse"). Raised by `supplyStream`. Safe. -/
  | suppliedWhileDecoding
  deriving DecidableEq, Repr

/-- The machine right after RESET (R175, R29): `mode = IDLE`, `fault = 0`, `eos = 0`, `cout` empty, the read position of
`cin` at the start. Every other element is unspecified there; the values below are the model's (log entry 4, DESIGN
CHOICE, unsafe) and no command reads one before `STREAM_INIT` has written it. -/
def State.reset : State :=
  { mode := .idle
    fault := 0
    eos := false
    node := 1
    coder := { low := 0, range := 0, code := 0 }
    hist := { c1 := 0, acc := 0, nbytes := 0 }
    mem := { o0 := [], o1 := [], hx := [] }
    mixer := { w0 := 0, w1 := 0, w2 := 0, w3 := 0, st0 := 0, st1 := 0, st2 := 0, nadd := 0, pr := 0 }
    cout := []
    cin := []
    cinPos := 0
    inputs := []
    rsps := []
    free := 0 }

end Sys2Proof.Machine
end

