-- ==== Sys2Proof/Machine/Arith.lean ====
section
/-! DEFINITION. The arithmetic laws of spec/40_arithmetic.md: floor shift, clamp, saturation, the counter law. -/

namespace Sys2Proof.Machine

/-- `a >> n` = floor(a / 2^n), negative `a` included (R71). -/
def floorShift (a : Int) (n : Nat) : Int := a / ((2 ^ n : Nat) : Int)

/-- `clamp(v, lo, hi)` (R74). -/
def clamp (v lo hi : Int) : Int := if v < lo then lo else if v > hi then hi else v

/-- `sat32(v)` (R75). -/
def sat32 (v : Int) : Int := clamp v Config.wMin Config.wMax

/-- `bit * 4096` (R78, R124). -/
def bitScaled (bit : Bool) : Int := if bit then (Config.probOne : Int) else 0

/-- A value clamped to the legal probabilities 1..4095, as a 12-bit word (R74, R79). -/
def legalProb (v : Int) : Prob := BitVec.ofInt 12 (clamp v Config.probMin Config.probMax)

/-- `CTR.UPDATE(c, bit)` (R78). -/
def ctrUpdate (c : Prob) (bit : Bool) : Prob :=
  legalProb ((c.toNat : Int) + floorShift (bitScaled bit - (c.toNat : Int)) Config.rate)

/-- A 32-bit register shifted left by one byte with a new low byte, reduced mod 2^32 (R72, R76): the move of `code` and of
`acc`. -/
def shiftInByte (v : Word) (b : Byte) : Word := (v <<< 8) ||| b.setWidth 32

/-- The top byte `v[31:24]` (R37). -/
def topByte (v : Word) : Byte := v.extractLsb' 24 8

end Sys2Proof.Machine
end

