-- ==== Sys2Proof/Machine/Flags.lean ====
section
/-! DEFINITION. The flags and the one status word: the encodings of `mode` and `fault`, STATUS (R27), the response word
(R52), the `fault` output line (R156). -/

namespace Sys2Proof.Machine

/-- The 2-bit encoding of `mode` (R24). -/
def Mode.code : Mode → BitVec 2
  | .idle => 0
  | .enc => 1
  | .dec => 2
  | .fault => 3

/-- The 4-bit code of a fault (R151). -/
def FaultCode.code : FaultCode → BitVec 4
  | .illegalCmd => 1
  | .probRange => 2
  | .rangeUnderflow => 3
  | .inUnderrun => 4

/-- What a command hands to `respond(dv, data)` (R6, R52). -/
structure Reply where
  /-- Data valid: 1 only for a DEC_BYTE that delivered a byte (R26). -/
  dv : Bool
  /-- The decoded byte when `dv = 1`, else 0x00. -/
  data : Byte
  deriving DecidableEq, Repr

/-- `respond(0, 0)`. -/
def Reply.none : Reply := ⟨false, 0⟩

/-- The response word `{fault, mode, eos, dv, data}` built from the registers as they are (R52). -/
def responseWord (r : Reply) (s : State) : RspWord :=
  s.fault ++ (s.mode.code ++ (BitVec.ofBool s.eos ++ (BitVec.ofBool r.dv ++ r.data)))

/-- The STATUS word `{fault[3:0], mode[1:0], eos, 0, 0x00}` (R27). -/
def statusWord (s : State) : RspWord := responseWord Reply.none s

/-- The `fault` output line, equal to `fault ≠ 0` (R156). -/
def faultLine (s : State) : Bool := s.fault != 0

/-- The fields of a response word as the host reads them (R52): `fault`. -/
def rspFault (w : RspWord) : BitVec 4 := w.extractLsb' 12 4

/-- Field `mode` of a response word (R52). -/
def rspMode (w : RspWord) : BitVec 2 := w.extractLsb' 10 2

/-- Field `eos` of a response word (R52). -/
def rspEos (w : RspWord) : Bool := w.getLsbD 9

/-- Field `dv` of a response word (R52). -/
def rspDv (w : RspWord) : Bool := w.getLsbD 8

/-- Field `data` of a response word (R52). -/
def rspData (w : RspWord) : Byte := w.extractLsb' 0 8

end Sys2Proof.Machine
end

