-- ==== Sys2Proof/Machine/Operands.lean ====
section
/-! DEFINITION. Operand forms. The one operand is the byte `opd` of ENC_BYTE (R51); the block's other "operands" are the bit
of the coding direction and the table indices (R31). -/

namespace Sys2Proof.Machine

/-- The direction of a stream, the operand `dir` of `BIT_STEP` and `CODE_BYTE` (R130, R132). -/
inductive Dir where
  /-- Encode. -/
  | enc
  /-- Decode. -/
  | dec
  deriving DecidableEq, Repr

/-- Bit `pos` of the operand byte: `(opd >> pos) AND 1` (R51). -/
def operandBit (c : Byte) (pos : Nat) : Bool := c.getLsbD pos

/-- The `O0` index: `node` (R31). -/
def o0Index (node : BitVec 8) : Nat := node.toNat

/-- The `O1` index: the 16-bit `{c1, node}` = `c1·256 + node` (R31). -/
def o1Index (c1 : Byte) (node : BitVec 8) : Nat := (c1 ++ node).toNat

/-- `HX.HASH` (R106): the finaliser of the accumulator. -/
def hxHash (acc : Word) : Word :=
  let m := acc * BitVec.ofNat 32 Config.hashMul
  m ^^^ (m >>> 16)

/-- `ctx = HX.HASH(acc) XOR zext_32(node)` (R31, R107). -/
def hxContext (acc : Word) (node : BitVec 8) : Word := hxHash acc ^^^ node.setWidth 32

/-- The `HX` index `idx = ctx[15:0]` (R107). -/
def hxIndex (acc : Word) (node : BitVec 8) : Nat := ((hxContext acc node).extractLsb' 0 16).toNat

/-- The check value `key = ctx[31:16]` (R107). -/
def hxKey (acc : Word) (node : BitVec 8) : BitVec 16 := (hxContext acc node).extractLsb' 16 16

end Sys2Proof.Machine
end

