-- ==== Sys2Proof/Machine/Ops.lean ====
section
/-! DEFINITION. The named operations the procedures are built from: table access (R33), the two streams (R35, R36),
sequencing with `raise` (R6), fault entry (R153), the common part of every command (R134), RESET (R175). -/

namespace Sys2Proof.Machine

/-! ### Tables -/

/-- The entry at an index; an unlisted index reads as `d`. -/
def tabRead {α : Type} (d : α) : Table α → Nat → α
  | [], _ => d
  | (j, v) :: t, i => if i = j then v else tabRead d t i

/-- The table with one whole entry replaced, in canonical form: an entry equal to `d` is not listed. -/
def tabWrite {α : Type} [DecidableEq α] (d : α) : Table α → Nat → α → Table α
  | [], i, v => if v = d then [] else [(i, v)]
  | (j, u) :: t, i, v =>
    if i < j then (if v = d then (j, u) :: t else (i, v) :: (j, u) :: t)
    else if i = j then (if v = d then t else (i, v) :: t)
    else (j, u) :: tabWrite d t i v

/-- The canonical form: indices strictly rising and below the table's size, no entry equal to what an unlisted one reads as. -/
abbrev TabWf {α : Type} [DecidableEq α] (d : α) (size : Nat) (t : Table α) : Prop :=
  t.Pairwise (fun a b => a.1 < b.1) ∧ ∀ e ∈ t, e.1 < size ∧ e.2 ≠ d

/-- What an unlisted counter reads as: 2048, the value `CM.INIT` writes (R100). -/
def counterInit : Prob := BitVec.ofNat 12 Config.probNeutral

/-- What an unlisted slot reads as: the empty entry, the value `CM.INIT` writes (R100). -/
def slotInit : HxEntry := { key := 0, count0 := 0, count1 := 0 }

/-- The three tables are in canonical form. -/
def Memory.wf (m : Memory) : Bool :=
  decide (TabWf counterInit Config.o0Entries m.o0) && decide (TabWf counterInit Config.o1Entries m.o1)
    && decide (TabWf slotInit Config.hxEntries m.hx)

/-- `TabRead(O0, i)` (R33). -/
def readO0 (s : State) (i : Nat) : Prob := tabRead counterInit s.mem.o0 i

/-- `TabRead(O1, i)` (R33). -/
def readO1 (s : State) (i : Nat) : Prob := tabRead counterInit s.mem.o1 i

/-- `TabRead(HX, i)` (R33). -/
def readHx (s : State) (i : Nat) : HxEntry := tabRead slotInit s.mem.hx i

/-- `TabWrite(O0, i, v)` (R33). -/
def writeO0 (i : Nat) (v : Prob) (s : State) : State :=
  { s with mem := { s.mem with o0 := tabWrite counterInit s.mem.o0 i v } }

/-- `TabWrite(O1, i, v)` (R33). -/
def writeO1 (i : Nat) (v : Prob) (s : State) : State :=
  { s with mem := { s.mem with o1 := tabWrite counterInit s.mem.o1 i v } }

/-- `TabWrite(HX, i, v)` (R33): the three fields together. -/
def writeHx (i : Nat) (v : HxEntry) (s : State) : State :=
  { s with mem := { s.mem with hx := tabWrite slotInit s.mem.hx i v } }

/-- A table in canonical form that holds, of any list of entries, those whose index exists. -/
def tabOfList {α : Type} [DecidableEq α] (d : α) (size : Nat) : List (Nat × α) → Table α
  | [] => []
  | (i, v) :: l => if i < size then tabWrite d (tabOfList d size l) i v else tabOfList d size l

/-- The three fields of a slot in its 32 bits `{key, count0, count1}` (R30). -/
def slotOfBits (v : BitVec 32) : HxEntry :=
  { key := v.extractLsb' 16 16, count0 := v.extractLsb' 8 8, count1 := v.extractLsb' 0 8 }

/-! ### Running a procedure -/

/-- What a procedure does: it ends with a value, it raises a fault of the block in the state it has reached (R6, R153), or
the model stops. -/
inductive Result (α : Type) where
  /-- The procedure ran to completion. -/
  | ok (a : α) (s : State)
  /-- `raise f`: nothing after it happens; the state is as the steps before it left it. -/
  | raised (f : FaultCode) (s : State)
  /-- The spec gives no behaviour (`Fault`). -/
  | stuck (r : Fault)

/-- Run a procedure, then the next one (`call P(args)`, R6); a raise or a stop ends the sequence. -/
def Result.bind {α β : Type} (x : Result α) (f : α → State → Result β) : Result β :=
  match x with
  | .ok a s => f a s
  | .raised c s => .raised c s
  | .stuck r => .stuck r

/-! ### Streams -/

/-- `OutByte(b)` (R35): append to `cout`. -/
def outByte (b : Byte) (s : State) : State := { s with cout := s.cout ++ [b] }

/-- The unread part of `cin` (R36). -/
def unread (s : State) : List Byte := s.cin.drop s.cinPos

/-- `InByte()` (R36): remove and return the first unread byte, or raise IN_UNDERRUN when there is none. -/
def inByte (s : State) : Result Byte :=
  match unread s with
  | [] => .raised .inUnderrun s
  | b :: _ => .ok b { s with cinPos := s.cinPos + 1 }

/-! ### Commands, faults, reset -/

/-- `respond(dv, data)` (R6, R52): the response word of the registers as they are goes to the host. -/
def respond (r : Reply) (s : State) : State := { s with rsps := s.rsps ++ [responseWord r s] }

/-- FAULT ENTRY, `raise f` (R153 (2) to (5)): `fault` and `mode` are written, `eos` and all else stays, the response is
`respond(0, 0)` of the new values. There is no return from it but RESET (R155). -/
def takeFault (f : FaultCode) (s : State) : State :=
  respond Reply.none { s with fault := f.code, mode := .fault }

/-- The modes in which a command is legal: the column of R50. -/
def legalModes : Instr → List Mode
  | .nop => [.idle, .enc, .dec]
  | .startEnc => [.idle]
  | .startDec => [.idle]
  | .encByte _ => [.enc]
  | .encEnd => [.enc]
  | .decByte => [.dec]

/-- The common part of every command (R134): in FAULT mode only the response (R154); a command not legal in the mode raises
ILLEGAL_CMD (R53 (d)); else its own procedure `body`, then its response, or fault entry where the procedure raises. -/
def runCommand (legal : List Mode) (body : State → Result Reply) (s : State) : Host.Outcome State Fault Refusal :=
  if s.mode = .fault then .next (respond Reply.none s)
  else if s.mode ∈ legal then
    match body s with
    | .ok r t => .next (respond r t)
    | .raised f t => .next (takeFault f t)
    | .stuck r => .fault r
  else .next (takeFault .illegalCmd s)

/-- A word that is no command (R53 (a) to (c), R134): ILLEGAL_CMD, but in FAULT mode only the response (R154). -/
def illegalWord (s : State) : State :=
  if s.mode = .fault then respond Reply.none s else takeFault .illegalCmd s

/-- A pulse of RESET (R175): `mode`, `fault`, `eos`, `cout` and the read position of `cin` are defined; every other element of
the block is unspecified: free values (U1). The host's side (`inputs`, `rsps`, the supplied `cin`) is not the block's. -/
def applyReset (s : State) : State :=
  { mode := .idle
    fault := 0
    eos := false
    node := Config.freeBits 8 s.free
    coder :=
      { low := Config.freeBits 32 (s.free + 1)
        range := Config.freeBits 32 (s.free + 2)
        code := Config.freeBits 32 (s.free + 3) }
    hist :=
      { c1 := Config.freeBits 8 (s.free + 4)
        acc := Config.freeBits 32 (s.free + 5)
        nbytes := Config.freeBits 3 (s.free + 6) }
    mem :=
      { o0 := tabOfList counterInit Config.o0Entries (Config.freeCounters (s.free + 7))
        o1 := tabOfList counterInit Config.o1Entries (Config.freeCounters (s.free + 8))
        hx := tabOfList slotInit Config.hxEntries
          ((Config.freeSlots (s.free + 9)).map fun e => (e.1, slotOfBits e.2)) }
    mixer :=
      { w0 := Config.freeBits 32 (s.free + 10)
        w1 := Config.freeBits 32 (s.free + 11)
        w2 := Config.freeBits 32 (s.free + 12)
        w3 := Config.freeBits 32 (s.free + 13)
        st0 := Config.freeBits 12 (s.free + 14)
        st1 := Config.freeBits 12 (s.free + 15)
        st2 := Config.freeBits 12 (s.free + 16)
        nadd := Config.freeBits 2 (s.free + 17)
        pr := Config.freeBits 12 (s.free + 18) }
    cout := []
    cin := s.cin
    cinPos := 0
    inputs := s.inputs
    rsps := s.rsps
    free := s.free + 19 }

/-- The host makes a compressed stream available as `cin`, whole, with the read position at its start (R28, R177); while a
decode stream is open the spec has the model refuse it (R182, U17). -/
def supplyStream (stream : List Byte) (s : State) : Host.Outcome State Fault Refusal :=
  if s.mode = .dec then .refused .suppliedWhileDecoding
  else .next { s with cin := stream, cinPos := 0 }

/-- What the host does next, taken from the front of `inputs`; `none` when it does nothing (R164). -/
def takeInput (s : State) : Option (HostInput × State) :=
  match s.inputs with
  | [] => none
  | i :: rest => some (i, { s with inputs := rest })

/-- The state with a command word at the front of what the host does next. -/
def pushCommand (w : CmdWord) (s : State) : State := { s with inputs := .command w :: s.inputs }

end Sys2Proof.Machine
end

