-- ==== Sys2Proof/Machine/Coder.lean ====
section
/-! DEFINITION. The entropy coder: the procedures of spec/41_coder.md. -/

namespace Sys2Proof.Machine

/-- `RC.INIT` (R85). -/
def rcInit (s : State) : State :=
  { s with coder := { low := BitVec.ofNat 32 Config.rcInitLow, range := BitVec.ofNat 32 Config.rcInitRange, code := 0 } }

/-- `RC.INIT_DEC` (R91), `n` of its four repetitions left: `code <- ((code << 8) mod 2^32) OR InByte()`. -/
def rcInitDecLoop : Nat → State → Result Unit
  | 0, s => .ok () s
  | n + 1, s =>
    (inByte s).bind fun b s =>
      rcInitDecLoop n { s with coder := { s.coder with code := shiftInByte s.coder.code b } }

/-- `RC.INIT_DEC` (R91). -/
def rcInitDec (s : State) : Result Unit := rcInitDecLoop Config.rcInitBytes s

/-- The width `r1 = (range * p) >> 12` of the sub-interval of bit 1 (R86): exact product, floor. -/
def splitWidth (range : Word) (p : Nat) : Word := BitVec.ofNat 32 (range.toNat * p / 2 ^ Config.probBits)

/-- `RC.SPLIT(p)` (R86): PROB_RANGE unless 1 ≤ p ≤ 4095. -/
def rcSplit (p : Nat) (s : State) : Result Word :=
  if p < Config.probMin ∨ p > Config.probMax then .raised .probRange s
  else .ok (splitWidth s.coder.range p) s

/-- The interval after `RC.NARROW` (R87): bit 1 takes the lower part, of width `r1`; bit 0 the remainder. -/
def narrowed (bit : Bool) (r1 : Word) (c : Coder) : Coder :=
  if bit then { c with range := r1 } else { c with low := c.low + r1, range := c.range - r1 }

/-- `RC.NARROW(bit, r1)` (R87): RANGE_UNDERFLOW when nothing is left. -/
def rcNarrow (bit : Bool) (r1 : Word) (s : State) : Result Unit :=
  let t := { s with coder := narrowed bit r1 s.coder }
  if t.coder.range = 0 then .raised .rangeUnderflow t else .ok () t

/-- The interval after `RC.SHIFT` (R88): `low' = (low << 8) mod 2^32`, `range' = min(range << 8, 2^32 - low')`. -/
def shifted (c : Coder) : Coder :=
  { c with
    low := c.low <<< 8
    range := BitVec.ofNat 32 (min (c.range.toNat * 2 ^ 8) (2 ^ 32 - (c.low <<< 8).toNat)) }

/-- `RC.SHIFT` (R88). -/
def rcShift (s : State) : State := { s with coder := shifted s.coder }

/-- The number of shifts after which the renormalisation loop has always ended (R94: "runs at most 2 times per bit"). It is
the fuel of the two loops below; `renormEnc_done` and `renormDec_done` (Laws) show that it never cuts one short. -/
def renormBound : Nat := 2

/-- The renormalisation loop of `RC.ENCODE_BIT` (R89): while `range < RC_MIN_RANGE`, emit `low[31:24]`, then shift. -/
def renormEnc : Nat → State → State
  | 0, s => s
  | n + 1, s =>
    if s.coder.range.toNat < Config.rcMinRange then renormEnc n (rcShift (outByte (topByte s.coder.low) s)) else s

/-- The renormalisation loop of `RC.DECODE_BIT` (R90): while `range < RC_MIN_RANGE`, shift, then take a byte into `code`. -/
def renormDec : Nat → State → Result Unit
  | 0, s => .ok () s
  | n + 1, s =>
    if s.coder.range.toNat < Config.rcMinRange then
      (inByte (rcShift s)).bind fun b s =>
        renormDec n { s with coder := { s.coder with code := shiftInByte s.coder.code b } }
    else .ok () s

/-- `RC.ENCODE_BIT(bit, p)` (R89). -/
def rcEncodeBit (bit : Bool) (p : Nat) (s : State) : Result Unit :=
  (rcSplit p s).bind fun r1 s =>
    (rcNarrow bit r1 s).bind fun _ s =>
      .ok () (renormEnc renormBound s)

/-- The decoder's decision (R90): 1 iff `(code - low) mod 2^32 < r1`. -/
def decidedBit (c : Coder) (r1 : Word) : Bool := decide ((c.code - c.low).toNat < r1.toNat)

/-- `RC.DECODE_BIT(p)` (R90). -/
def rcDecodeBit (p : Nat) (s : State) : Result Bool :=
  (rcSplit p s).bind fun r1 s =>
    let bit := decidedBit s.coder r1
    (rcNarrow bit r1 s).bind fun _ s =>
      (renormDec renormBound s).bind fun _ s =>
        .ok bit s

/-- `RC.FLUSH` (R92), `n` of its four repetitions left: emit `low[31:24]`, then `low <- (low << 8) mod 2^32`. -/
def rcFlushLoop : Nat → State → State
  | 0, s => s
  | n + 1, s =>
    let t := outByte (topByte s.coder.low) s
    rcFlushLoop n { t with coder := { t.coder with low := t.coder.low <<< 8 } }

/-- `RC.FLUSH` (R92). -/
def rcFlush (s : State) : State := rcFlushLoop Config.rcFlushBytes s

end Sys2Proof.Machine
end

