-- ==== Sys2Proof/Machine/MixerOps.lean ====
section
/-! DEFINITION. The mixer: the procedures of spec/43_mixer.md. -/

namespace Sys2Proof.Machine

/-- `MX.INIT` (R121), and the latches `st[0..2]`, `pr`, which are unspecified after `STREAM_INIT` (R29, U4): free values
(log entry 3). -/
def mxInit (s : State) : State :=
  { s with
    mixer :=
      { w0 := BitVec.ofNat 32 Config.wInit
        w1 := BitVec.ofNat 32 Config.wInit
        w2 := BitVec.ofNat 32 Config.wInit
        w3 := BitVec.ofNat 32 Config.bInit
        st0 := Config.freeBits 12 s.free
        st1 := Config.freeBits 12 (s.free + 1)
        st2 := Config.freeBits 12 (s.free + 2)
        nadd := 0
        pr := Config.freeBits 12 (s.free + 3) }
    free := s.free + 4 }

/-- `MX.ADD(x)` (R122): `st[nadd] <- x`, then `nadd <- nadd + 1`. A fourth call has no behaviour (R125). -/
def mxAdd (x : Prob) (s : State) : Result Unit :=
  match s.mixer.nadd.toNat with
  | 0 => .ok () { s with mixer := { s.mixer with st0 := x, nadd := 1 } }
  | 1 => .ok () { s with mixer := { s.mixer with st1 := x, nadd := 2 } }
  | 2 => .ok () { s with mixer := { s.mixer with st2 := x, nadd := 3 } }
  | _ => .stuck .mixerSequence

/-- The exact weighted sum `S` (R123). -/
def mxSum (m : Mixer) : Int :=
  m.w0.toInt * m.st0.toNat + m.w1.toInt * m.st1.toNat + m.w2.toInt * m.st2.toNat + m.w3.toInt * (Config.biasIn : Int)

/-- The sum rounded to nearest, ties upward, and clamped: `clamp((S + 2^23) >> 24, 1, 4095)` (R80, R123). -/
def mxOutput (m : Mixer) : Prob :=
  legalProb (floorShift (mxSum m + ((2 ^ (Config.wFrac - 1) : Nat) : Int)) Config.wFrac)

/-- `MX.GET` (R123): latches and returns `pr`. Before three inputs it has no behaviour (R125). -/
def mxGet (s : State) : Result Prob :=
  if s.mixer.nadd = 3 then .ok (mxOutput s.mixer) { s with mixer := { s.mixer with pr := mxOutput s.mixer } }
  else .stuck .mixerSequence

/-- The error `E = bit * 4096 - pr` (R124). -/
def mxError (bit : Bool) (pr : Prob) : Int := bitScaled bit - (pr.toNat : Int)

/-- One weight's step: `sat32(w + ((E * x) >> 10))` (R124). -/
def weightStep (w : Word) (e : Int) (x : Nat) : Word :=
  BitVec.ofInt 32 (sat32 (w.toInt + floorShift (e * (x : Int)) Config.lrShift))

/-- The mixer after `MX.UPDATE(bit)` (R124): all four steps with the same error and the weights before it. -/
def mxLearned (bit : Bool) (m : Mixer) : Mixer :=
  let e := mxError bit m.pr
  { m with
    w0 := weightStep m.w0 e m.st0.toNat
    w1 := weightStep m.w1 e m.st1.toNat
    w2 := weightStep m.w2 e m.st2.toNat
    w3 := weightStep m.w3 e Config.biasIn
    nadd := 0 }

/-- `MX.UPDATE(bit)` (R124). With `nadd ≠ 3` it has no behaviour (R125). -/
def mxUpdate (bit : Bool) (s : State) : Result Unit :=
  if s.mixer.nadd = 3 then .ok () { s with mixer := mxLearned bit s.mixer } else .stuck .mixerSequence

end Sys2Proof.Machine
end

