-- ==== Sys2Proof/Machine/Models.lean ====
section
/-! DEFINITION. The context models: the procedures of spec/42_models.md. -/

namespace Sys2Proof.Machine

/-- `CM.INIT` (R100): no history; every counter 2048, every slot empty, which is what unlisted entries read as. -/
def cmInit (s : State) : State :=
  { s with hist := { c1 := 0, acc := 0, nbytes := 0 }, mem := { o0 := [], o1 := [], hx := [] } }

/-- The order-1 model is active iff `nbytes ≥ 1` (R113). -/
def o1Active (s : State) : Bool := decide (1 ≤ s.hist.nbytes.toNat)

/-- The hashed model is active iff `nbytes ≥ 4` (R113). -/
def hxActive (s : State) : Bool := decide (Config.histBytes ≤ s.hist.nbytes.toNat)

/-- The neutral prediction 2048 (R4). -/
def neutral : Prob := BitVec.ofNat 12 Config.probNeutral

/-- `O0.PREDICT` (R102). -/
def o0Predict (s : State) : Prob := readO0 s (o0Index s.node)

/-- `O0.ADAPT(bit)` (R103). -/
def o0Adapt (bit : Bool) (s : State) : State :=
  writeO0 (o0Index s.node) (ctrUpdate (readO0 s (o0Index s.node)) bit) s

/-- `O1.PREDICT` (R104). -/
def o1Predict (s : State) : Prob :=
  if o1Active s then readO1 s (o1Index s.hist.c1 s.node) else neutral

/-- `O1.ADAPT(bit)` (R105). -/
def o1Adapt (bit : Bool) (s : State) : State :=
  if o1Active s then
    writeO1 (o1Index s.hist.c1 s.node) (ctrUpdate (readO1 s (o1Index s.hist.c1 s.node)) bit) s
  else s

/-- `HX.MATCH(stored_key, new_key)` (R108). -/
def hxMatch (stored new : BitVec 16) : Bool := stored == new

/-- `HX.PROB(n0, n1)` (R109). -/
def hxProb (n0 n1 : BitVec 8) : Prob :=
  if n0.toNat + n1.toNat = 0 then neutral
  else legalProb ((n1.toNat * Config.probOne / (n0.toNat + n1.toNat) : Nat) : Int)

/-- The prediction of a slot under a key (R110): an unseen context predicts 2048. -/
def slotPredict (e : HxEntry) (key : BitVec 16) : Prob :=
  if hxMatch e.key key then hxProb e.count0 e.count1 else neutral

/-- `HX.PREDICT` (R110). -/
def hxPredict (s : State) : Prob :=
  if hxActive s then slotPredict (readHx s (hxIndex s.hist.acc s.node)) (hxKey s.hist.acc s.node) else neutral

/-- The matching count incremented, both halved when either exceeds `HX_LIMIT` (R111). -/
def countUp (e : HxEntry) (bit : Bool) : HxEntry :=
  let n0 := e.count0.toNat + (if bit then 0 else 1)
  let n1 := e.count1.toNat + (if bit then 1 else 0)
  if n0 > Config.hxLimit ∨ n1 > Config.hxLimit then
    { e with count0 := BitVec.ofNat 8 (n0 / 2), count1 := BitVec.ofNat 8 (n1 / 2) }
  else { e with count0 := BitVec.ofNat 8 n0, count1 := BitVec.ofNat 8 n1 }

/-- A slot claimed by a new key: the old statistics are discarded (R111). -/
def freshSlot (key : BitVec 16) (bit : Bool) : HxEntry :=
  if bit then { key := key, count0 := 0, count1 := 1 } else { key := key, count0 := 1, count1 := 0 }

/-- The slot after an adapt under a key (R111). -/
def slotAdapt (e : HxEntry) (key : BitVec 16) (bit : Bool) : HxEntry :=
  if hxMatch e.key key then countUp e bit else freshSlot key bit

/-- `HX.ADAPT(bit)` (R111). -/
def hxAdapt (bit : Bool) (s : State) : State :=
  if hxActive s then
    writeHx (hxIndex s.hist.acc s.node)
      (slotAdapt (readHx s (hxIndex s.hist.acc s.node)) (hxKey s.hist.acc s.node) bit) s
  else s

/-- `CM.UPDATE_CONTEXT(byte)` (R112): after the byte's eight bits, in both directions (conflict C1). -/
def updateContext (byte : Byte) (s : State) : State :=
  { s with
    hist :=
      { c1 := byte
        acc := shiftInByte s.hist.acc byte
        nbytes := BitVec.ofNat 3 (min (s.hist.nbytes.toNat + 1) Config.histBytes) } }

end Sys2Proof.Machine
end

