-- ==== Sys2Proof/Machine/Loop.lean ====
section
/-! DEFINITION. The driving loop: the procedures of spec/44_driving_loop.md that the commands are built from. -/

namespace Sys2Proof.Machine

/-- `n9 = node * 2 + b`, the 9-bit value of R131. -/
def nextNode (node : BitVec 8) (b : Bool) : BitVec 9 := node ++ BitVec.ofBool b

/-- `NODE.ADVANCE(b)` (R131): 1 again at the byte boundary. -/
def nodeAdvance (b : Bool) (s : State) : State :=
  { s with
    node :=
      if (nextNode s.node b).toNat < 256 then (nextNode s.node b).setWidth 8
      else BitVec.ofNat 8 Config.nodeInit }

/-- Predict-all and mix (R130): the three predictions, the three `MX.ADD`, `MX.GET`. -/
def predictMix (s : State) : Result Prob :=
  (mxAdd (o0Predict s) s).bind fun _ t =>
    (mxAdd (o1Predict s) t).bind fun _ t =>
      (mxAdd (hxPredict s) t).bind fun _ t =>
        mxGet t

/-- Code-bit (R130): encode the given bit, or decode one. -/
def codeBit (dir : Dir) (bIn : Bool) (p : Nat) (s : State) : Result Bool :=
  match dir with
  | .enc => (rcEncodeBit bIn p s).bind fun _ t => .ok bIn t
  | .dec => rcDecodeBit p s

/-- The three models' adapts (R130). -/
def adaptModels (b : Bool) (s : State) : State := hxAdapt b (o1Adapt b (o0Adapt b s))

/-- `BIT_STEP(dir, b_in)` (R130): predict-all, mix, code-bit, adapt-all, node advance, in this order. -/
def bitStep (dir : Dir) (bIn : Bool) (s : State) : Result (Bool × BitVec 9) :=
  (predictMix s).bind fun p s =>
    (codeBit dir bIn p.toNat s).bind fun b s =>
      (mxUpdate b (adaptModels b s)).bind fun _ s =>
        .ok (b, nextNode s.node b) (nodeAdvance b s)

/-- The bit steps of `CODE_BYTE` (R132) for positions `n - 1` down to 0; `n9` is the last value returned so far. -/
def codeBits (dir : Dir) (c : Byte) : Nat → BitVec 9 → State → Result (BitVec 9)
  | 0, n9, s => .ok n9 s
  | n + 1, _, s => (bitStep dir (operandBit c n) s).bind fun r s => codeBits dir c n r.2 s

/-- `CODE_BYTE(dir, c)` (R132): eight bit steps, most significant bit first; returns `n9 AND 0xFF`. -/
def codeByte (dir : Dir) (c : Byte) (s : State) : Result Byte :=
  (codeBits dir c 8 0 s).bind fun n9 s => .ok (n9.setWidth 8) s

/-- `STREAM_INIT` (R133): coder, models, mixer, `node`, `eos`; `cout` emptied (ENC) or the read position of `cin` at the start
(DEC). -/
def streamInit (dir : Dir) (s : State) : State :=
  let t := { mxInit (cmInit (rcInit s)) with node := BitVec.ofNat 8 Config.nodeInit, eos := false }
  match dir with
  | .enc => { t with cout := [] }
  | .dec => { t with cinPos := 0 }

end Sys2Proof.Machine
end

