-- ==== Sys2Proof/Machine/DecodeCommands.lean ====
section
/-! DEFINITION. The command of a decode stream: DEC_BYTE. -/

namespace Sys2Proof.Machine

/-- What DEC_BYTE does with the byte it has decoded (R140): the terminator closes the stream and is not delivered; any other
byte is delivered. -/
def finishByte (c : Byte) (s : State) : Result Reply :=
  if c = BitVec.ofNat 8 Config.eosByte then .ok Reply.none { s with eos := true, mode := .idle }
  else .ok { dv := true, data := c } s

/-- The procedure of DEC_BYTE (R140). -/
def decByteBody (s : State) : Result Reply :=
  (codeByte .dec 0 s).bind fun c s => finishByte c (updateContext c s)

/-- DEC_BYTE (R140). -/
def execDecByte (s : State) : Host.Outcome State Fault Refusal := runCommand (legalModes .decByte) decByteBody s

end Sys2Proof.Machine
end

