-- ==== Sys2Proof/Machine/EncodeCommands.lean ====
section
/-! DEFINITION. The commands of an encode stream: ENC_BYTE, ENC_END. -/

namespace Sys2Proof.Machine

/-- One byte through the encoder, then into the history: the shared part of ENC_BYTE (R138) and of the end marker (R139). -/
def encodeByte (c : Byte) (s : State) : Result Unit :=
  (codeByte .enc c s).bind fun _ s => .ok () (updateContext c s)

/-- The procedure of ENC_BYTE (R138). -/
def encByteBody (c : Byte) (s : State) : Result Reply := (encodeByte c s).bind fun _ s => .ok Reply.none s

/-- ENC_BYTE (R138). -/
def execEncByte (c : Byte) (s : State) : Host.Outcome State Fault Refusal :=
  runCommand (legalModes (.encByte c)) (encByteBody c) s

/-- The procedure of ENC_END (R139): the end marker 0x00 through the normal pipeline, the flush, `eos`, `mode`. -/
def encEndBody (s : State) : Result Reply :=
  (encodeByte (BitVec.ofNat 8 Config.eosByte) s).bind fun _ s =>
    .ok Reply.none { rcFlush s with eos := true, mode := .idle }

/-- ENC_END (R139). -/
def execEncEnd (s : State) : Host.Outcome State Fault Refusal := runCommand (legalModes .encEnd) encEndBody s

end Sys2Proof.Machine
end

