-- ==== Sys2Proof/Machine/SessionCommands.lean ====
section
/-! DEFINITION. The system-level commands (R144): NOP, START_ENC, START_DEC. -/

namespace Sys2Proof.Machine

/-- NOP (R135): `respond(0, 0)` and nothing else. -/
def execNop (s : State) : Host.Outcome State Fault Refusal :=
  runCommand (legalModes .nop) (fun s => .ok Reply.none s) s

/-- The procedure of START_ENC (R136). -/
def startEncBody (s : State) : Result Reply := .ok Reply.none { streamInit .enc s with mode := .enc }

/-- START_ENC (R136). -/
def execStartEnc (s : State) : Host.Outcome State Fault Refusal := runCommand (legalModes .startEnc) startEncBody s

/-- The procedure of START_DEC (R137). -/
def startDecBody (s : State) : Result Reply :=
  (rcInitDec { streamInit .dec s with mode := .dec }).bind fun _ s => .ok Reply.none s

/-- START_DEC (R137). -/
def execStartDec (s : State) : Host.Outcome State Fault Refusal := runCommand (legalModes .startDec) startDecBody s

end Sys2Proof.Machine
end

