-- ==== Sys2Proof/Machine/Dispatch.lean ====
section
/-! DEFINITION. One arm per command of R50. -/

namespace Sys2Proof.Machine

def exec (i : Instr) (s : State) : Host.Outcome State Fault Refusal :=
  match i with
  | .nop => Sys2Proof.Machine.execNop s
  | .startEnc => Sys2Proof.Machine.execStartEnc s
  | .startDec => Sys2Proof.Machine.execStartDec s
  | .encByte c => Sys2Proof.Machine.execEncByte c s
  | .encEnd => Sys2Proof.Machine.execEncEnd s
  | .decByte => Sys2Proof.Machine.execDecByte s

end Sys2Proof.Machine
end

