-- ==== Sys2Proof/Machine/Port.lean ====
section
/-! DEFINITION. The host port: a command word from the port to its execution (R134), and the three things the host can do (R10). -/

namespace Sys2Proof.Machine

/-- Execute one command word (R134): the command it decodes to, or ILLEGAL_CMD for a word that is none. -/
def commandWord (w : CmdWord) (s : State) : Host.Outcome State Fault Refusal :=
  match decodeWord w with
  | .ok i => exec i s
  | .error _ => .next (illegalWord s)

/-- What one input of the host does (R10). -/
def acceptInput (i : HostInput) (s : State) : Host.Outcome State Fault Refusal :=
  match i with
  | .reset => .next (applyReset s)
  | .command w => commandWord w s
  | .supply stream => supplyStream stream s

end Sys2Proof.Machine
end

