-- ==== Sys2Proof/Machine/Step.lean ====
section
/-! DEFINITION. One step: the block answers the next thing the host does (R10, R134). -/

namespace Sys2Proof.Machine

/-- ONE STEP: the block takes the next input and answers it to completion; with no input it holds its state (R164). -/
def step (s : State) : Host.Outcome State Fault Refusal :=
  match takeInput s with
  | none => .next s
  | some (i, t) => acceptInput i t

/-- The state in which the next step runs the command of a table row's bits: that word is the next one the host writes to the
command port (log entry 1). -/
def State.withFetchWord (s : State) (nbits w : Nat) : State := pushCommand (BitVec.ofNat 16 (w % 2 ^ nbits)) s

end Sys2Proof.Machine
end

