-- ==== Sys2Proof/Machine/Pseudo.lean ====
section
/-! DEFINITION. The host's side of the pseudo-commands COMPRESS and DECOMPRESS (R58, R141, R142): sequences of steps of the
block, no commands of it. Also the coder run alone over a list of bits (R95). -/

namespace Sys2Proof.Machine

/-- The host writes one command and the block answers it. -/
def issue (i : Instr) (s : State) : Host.Outcome State Fault Refusal := step (pushCommand (encodeWord i) s)

/-- Go on from a next state; a stop ends the sequence. -/
def andThen (x : Host.Outcome State Fault Refusal) (f : State → Host.Outcome State Fault Refusal) :
    Host.Outcome State Fault Refusal :=
  match x with
  | .next s => f s
  | .fault r => .fault r
  | .refused r => .refused r

/-- `ENC_BYTE b` for each byte, in order (R58). -/
def issueBytes : List Byte → State → Host.Outcome State Fault Refusal
  | [], s => .next s
  | b :: x, s => andThen (issue (.encByte b) s) (issueBytes x)

/-- `COMPRESS x` = START_ENC, then ENC_BYTE for each byte, then ENC_END (R141). Its result is `cout` afterwards. -/
def compress (x : List Byte) (s : State) : Host.Outcome State Fault Refusal :=
  andThen (issue .startEnc s) fun s => andThen (issueBytes x s) (issue .encEnd)

/-- The host's stop test (R58): the last response has `eos = 1` or `fault ≠ 0`. -/
def hostStops (s : State) : Bool :=
  match s.rsps.getLast? with
  | some w => rspEos w || rspFault w != 0
  | none => false

/-- DEC_BYTE until the host's stop test holds, at most `n` times (R58, R142). -/
def decodeLoop : Nat → State → Host.Outcome State Fault Refusal
  | 0, s => .next s
  | n + 1, s => if hostStops s then .next s else andThen (issue .decByte s) (decodeLoop n)

/-- `DECOMPRESS` = START_DEC, then DEC_BYTE until the stop test holds, at most `n` times (R142). -/
def decompress (n : Nat) (s : State) : Host.Outcome State Fault Refusal :=
  andThen (issue .startDec s) (decodeLoop n)

/-- The `data` bytes of the responses with `dv = 1`, in order (R58). -/
def delivered (rsps : List RspWord) : List Byte := (rsps.filter rspDv).map rspData

/-- `RC.ENCODE_BIT` for each (bit, p), in order: the coder without models and mixer (R95). -/
def encodeBits : List (Bool × Nat) → State → Result Unit
  | [], s => .ok () s
  | x :: l, s => (rcEncodeBit x.1 x.2 s).bind fun _ s => encodeBits l s

/-- `RC.DECODE_BIT` for each p, in order, with the bits it returns (R95). -/
def decodeBits : List Nat → State → Result (List Bool)
  | [], s => .ok [] s
  | p :: l, s => (rcDecodeBit p s).bind fun b s => (decodeBits l s).bind fun bs s => .ok (b :: bs) s

end Sys2Proof.Machine
end

