-- ==== Sys2Proof/Safety.lean ====
section
/-! DEFINITION. What a legal state of the machine is, in the terms the statements use. -/

namespace Sys2Proof.Machine

/-- A stream is open (R24). -/
def StreamOpen (s : State) : Prop := s.mode = .enc ∨ s.mode = .dec

/-- The coder's interval invariants I1 and I2 (R93); the upper bound of I1 is the register's width. -/
structure IntervalOk (c : Coder) : Prop where
  /-- I1: `2^16 ≤ range`. -/
  range_min : 2 ^ 16 ≤ c.range.toNat
  /-- I2: `low + range ≤ 2^32`. -/
  in_space : c.low.toNat + c.range.toNat ≤ 2 ^ 32

/-- The interval `d` is the part of `c` that coding the bit `b` with probability `p` takes (R86, R87), as numbers: the lower
`range * p / 4096` for bit 1, the remainder above it for bit 0. `code` stays. -/
structure TakesPart (b : Bool) (p : Nat) (c d : Coder) : Prop where
  /-- Where the part begins. -/
  low : d.low.toNat = if b then c.low.toNat else c.low.toNat + c.range.toNat * p / 4096
  /-- How wide it is. -/
  range : d.range.toNat = if b then c.range.toNat * p / 4096 else c.range.toNat - c.range.toNat * p / 4096
  /-- The decoder's window is not touched. -/
  code : d.code = c.code

/-- Every order-0 and order-1 counter is a legal probability (R19, R20, R79); at most 4095 by its width. -/
def CountersLegal (s : State) : Prop := ∀ i, 1 ≤ (readO0 s i).toNat ∧ 1 ≤ (readO1 s i).toNat

/-- The history registers agree (R16, R18). -/
structure HistoryOk (h : History) : Prop where
  /-- R18: `nbytes` is 0..4. -/
  nbytes_max : h.nbytes.toNat ≤ 4
  /-- R16: `c1` "always equals `acc[7:0]`". -/
  prev_byte : h.c1 = h.acc.setWidth 8

/-- What holds between the commands of an open stream. -/
structure SessionOk (s : State) : Prop where
  /-- R11, R15: a command begins at a byte boundary. -/
  node_start : s.node = 1
  /-- R23: between commands `nadd = 0`. -/
  no_inputs : s.mixer.nadd = 0
  /-- R93. -/
  interval : IntervalOk s.coder
  /-- R16, R18. -/
  history : HistoryOk s.hist
  /-- R79. -/
  counters : CountersLegal s

/-- THE INVARIANT of every reachable state. Its last clause asks nothing while no stream is open: the registers are then
unspecified (R175) or dead (R185). -/
structure StateInv (s : State) : Prop where
  /-- The three tables are in canonical form. -/
  tables : s.mem.wf = true
  /-- R25: `fault ≠ 0` iff `mode = FAULT`. -/
  fault_mode : s.fault ≠ 0 ↔ s.mode = .fault
  /-- R151, R79: only ILLEGAL_CMD and IN_UNDERRUN are ever raised. -/
  fault_code : s.fault = 0 ∨ s.fault = 1 ∨ s.fault = 4
  /-- R28: the read position lies in the supplied stream. -/
  read_pos : s.cinPos ≤ s.cin.length
  /-- The open stream is well kept. -/
  session : StreamOpen s → SessionOk s

/-- A step that neither faults nor refuses. -/
def Runs (o : Host.Outcome State Fault Refusal) : Prop := ∃ t, o = .next t

/-- The node when bit `7 - k` of the byte `c` is coded (R11, R15): the `k` bits before it, with a leading 1. -/
def nodeOf (c : Byte) (k : Nat) : BitVec 8 := BitVec.ofNat 8 (2 ^ k + c.toNat / 2 ^ (8 - k))

/-- What coding the byte `c` does to the three tables (R103, R105, R111, R113): the entries at the indices of its eight nodes
learn their bit, once each; an inactive model's table and every other entry is unchanged. -/
structure TablesLearn (c : Byte) (s t : State) : Prop where
  /-- The eight order-0 counters. -/
  o0_new : ∀ k < 8, readO0 t (o0Index (nodeOf c k)) = ctrUpdate (readO0 s (o0Index (nodeOf c k))) (operandBit c (7 - k))
  /-- Every other order-0 counter. -/
  o0_old : ∀ a, (∀ k < 8, a ≠ o0Index (nodeOf c k)) → readO0 t a = readO0 s a
  /-- The eight order-1 counters of an active model. -/
  o1_new : 1 ≤ s.hist.nbytes.toNat → ∀ k < 8, readO1 t (o1Index s.hist.c1 (nodeOf c k)) =
    ctrUpdate (readO1 s (o1Index s.hist.c1 (nodeOf c k))) (operandBit c (7 - k))
  /-- Every other order-1 counter; every one while the model is inactive. -/
  o1_old : ∀ a, (s.hist.nbytes.toNat < 1 ∨ ∀ k < 8, a ≠ o1Index s.hist.c1 (nodeOf c k)) → readO1 t a = readO1 s a
  /-- The eight slots of an active hashed model. -/
  hx_new : 4 ≤ s.hist.nbytes.toNat → ∀ k < 8, readHx t (hxIndex s.hist.acc (nodeOf c k)) =
    slotAdapt (readHx s (hxIndex s.hist.acc (nodeOf c k))) (hxKey s.hist.acc (nodeOf c k)) (operandBit c (7 - k))
  /-- Every other slot; every one while the model is inactive. -/
  hx_old : ∀ a, (s.hist.nbytes.toNat < 4 ∨ ∀ k < 8, a ≠ hxIndex s.hist.acc (nodeOf c k)) → readHx t a = readHx s a

/-- The history after the byte `c` (R112). -/
structure HistoryRolls (c : Byte) (s t : State) : Prop where
  /-- `c1 <- byte`. -/
  c1 : t.hist.c1 = c
  /-- `acc <- ((acc << 8) OR byte) mod 2^32`. -/
  acc : t.hist.acc.toNat = s.hist.acc.toNat * 256 % 2 ^ 32 + c.toNat
  /-- `nbytes <- min(nbytes + 1, 4)`. -/
  nbytes : t.hist.nbytes.toNat = min (s.hist.nbytes.toNat + 1) 4

/-- The part of the state that encoder and decoder hold alike (R145): `node`, `c1`, `acc`, `nbytes`, `O0`, `O1`, `HX`, `w`,
`low`, `range`; with them `nadd`, the one mixer latch that is read before it is written. -/
structure InLockstep (e d : State) : Prop where
  /-- `node`. -/
  node : e.node = d.node
  /-- `c1`, `acc`, `nbytes`. -/
  hist : e.hist = d.hist
  /-- `O0`, `O1`, `HX`. -/
  mem : e.mem = d.mem
  /-- `w[0]`. -/
  w0 : e.mixer.w0 = d.mixer.w0
  /-- `w[1]`. -/
  w1 : e.mixer.w1 = d.mixer.w1
  /-- `w[2]`. -/
  w2 : e.mixer.w2 = d.mixer.w2
  /-- `w[3]`. -/
  w3 : e.mixer.w3 = d.mixer.w3
  /-- `nadd`. -/
  nadd : e.mixer.nadd = d.mixer.nadd
  /-- `low`. -/
  low : e.coder.low = d.coder.low
  /-- `range`. -/
  range : e.coder.range = d.coder.range

end Sys2Proof.Machine
end

