-- ==== Sys2Proof/Certificates/Slice0/Obligations.lean ====
section
/-! DEFINITION. The statements about the machine. Each docstring names the rule of spec/ it rests on. -/

open Sys2Proof Sys2Proof.Machine

/-! ### Command words -/

/-- R50: a word decodes to a command exactly when it lies in that command's row of (match, mask), in one row only, and it is
refused exactly when it lies in none. -/
def Obligations.DecodeFollowsOpcodeMap : Prop :=
  ∀ w : CmdWord,
    (∀ i, decodeWord w = .ok i → ∃ r ∈ opcodeRows, r.mnemonic = mnemonicOf i ∧
      ∀ r' ∈ opcodeRows, r'.holds w = true ↔ r' = r) ∧
    ((∃ e, decodeWord w = .error e) ↔ ∀ r ∈ opcodeRows, r.holds w = false)

/-- R50, R51, R55: every command has exactly one word, and every word at most one command. -/
def Obligations.DecodeEncodeAgree : Prop :=
  ∀ (i : Instr) (w : CmdWord),
    (decodeWord w = .ok i ↔ w = encodeWord i) ∧ (decodeTableWord 16 w.toNat = some i ↔ w = encodeWord i)

/-- R50: the words of the opcode map, written out from its columns, decode to their commands (a sanity statement). -/
def Obligations.WrittenWordsDecode : Prop :=
  decodeWord 0b0000000000000000 = .ok .nop ∧ decodeWord 0b0001000000000000 = .ok .startEnc ∧
  decodeWord 0b0010000000000000 = .ok .startDec ∧ decodeWord 0b0011000001100001 = .ok (.encByte 0x61) ∧
  decodeWord 0b0100000000000000 = .ok .encEnd ∧ decodeWord 0b0101000000000000 = .ok .decByte

/-! ### Steps -/

/-- R134: the step at a command word that decodes to `i` is `exec i`, with the word taken from the port and nothing else done
around it. -/
def Obligations.StepRunsDecodedCommand : Prop :=
  ∀ (s : State) (w : CmdWord) (rest : List HostInput) (i : Instr),
    s.inputs = .command w :: rest → decodeWord w = .ok i → i.wellFormed = true → step s = exec i { s with inputs := rest }

/-- R164: with nothing from the host the block holds its state. -/
def Obligations.IdleStepHoldsState : Prop := ∀ s : State, s.inputs = [] → step s = .next s

/-- R53, R153: the four ways a word is illegal; in IDLE, ENC, DEC each raises ILLEGAL_CMD with response 0x1C00 (0x1E00 when
`eos` was 1); in FAULT mode no test is made. That nothing else changes is kept literally, the model's choice of the two that
R153 offers (log entry 5). -/
def Obligations.IllegalWordRaisesIllegalCmd : Prop :=
  ∀ (s : State) (w : CmdWord) (rest : List HostInput), s.inputs = .command w :: rest →
    (s.mode ≠ .fault →
      (rsvField w ≠ 0 ∨ 6 ≤ (opField w).toNat ∨ (opField w ≠ 3 ∧ opdField w ≠ 0) ∨
        ∃ i, decodeWord w = .ok i ∧ s.mode ∉ legalModes i) →
      step s = .next { s with
        inputs := rest, fault := 1, mode := .fault, rsps := s.rsps ++ [if s.eos then 0x1E00 else 0x1C00] }) ∧
    (s.mode ≠ .fault →
      ¬ (rsvField w ≠ 0 ∨ 6 ≤ (opField w).toNat ∨ (opField w ≠ 3 ∧ opdField w ≠ 0) ∨
        ∃ i, decodeWord w = .ok i ∧ s.mode ∉ legalModes i) →
      ∃ i, decodeWord w = .ok i ∧ s.mode ∈ legalModes i) ∧
    (s.mode = .fault → step s = .next { s with inputs := rest, rsps := s.rsps ++ [statusWord s] })

/-- R50 (column "legal in"), R53 (d): a command in a mode where it is not legal raises ILLEGAL_CMD before it changes anything
(all else kept literally after the fault: log entry 5). -/
def Obligations.WrongModeRaisesIllegalCmd : Prop :=
  ∀ (s : State) (i : Instr), s.mode ≠ .fault →
    s.mode ∉ ((match i with
      | .nop => [.idle, .enc, .dec]
      | .startEnc => [.idle]
      | .startDec => [.idle]
      | .encByte _ => [.enc]
      | .encEnd => [.enc]
      | .decByte => [.dec]) : List Mode) →
    exec i s = .next { s with fault := 1, mode := .fault, rsps := s.rsps ++ [if s.eos then 0x1E00 else 0x1C00] }

/-- R154: in FAULT mode every word, legal or not, is answered with STATUS and changes nothing. -/
def Obligations.FaultModeAnswersStatus : Prop :=
  ∀ (s : State) (w : CmdWord) (rest : List HostInput), s.mode = .fault → s.inputs = .command w :: rest →
    step s = .next { s with inputs := rest, rsps := s.rsps ++ [statusWord s] }

/-- R155: only a RESET pulse leaves FAULT mode, into an empty session; no other step changes `mode` or `fault` there. -/
def Obligations.OnlyResetLeavesFault : Prop :=
  ∀ s t : State, s.mode = .fault → step s = .next t →
    (t.mode = .fault ∧ t.fault = s.fault) ∨
    ∃ rest, s.inputs = .reset :: rest ∧ t.mode = .idle ∧ t.fault = 0 ∧ t.eos = false ∧ t.cout = [] ∧ t.cinPos = 0

/-- R175, R29: what RESET defines: a pulse in any state, and the state `State.reset` that stands for the machine right after
one. The tables a pulse leaves unspecified are in canonical form. That a pulse keeps what the host has supplied and received
is the model's choice (log entries 1 and 12). -/
def Obligations.ResetDefines : Prop :=
  (∀ (s : State) (rest : List HostInput), s.inputs = .reset :: rest →
    ∃ t, step s = .next t ∧ t.mode = .idle ∧ t.fault = 0 ∧ t.eos = false ∧ t.cout = [] ∧ t.cinPos = 0 ∧
      faultLine t = false ∧ statusWord t = 0 ∧ t.mem.wf = true ∧ t.cin = s.cin ∧ t.inputs = rest ∧ t.rsps = s.rsps) ∧
  State.reset.mode = .idle ∧ State.reset.fault = 0 ∧ State.reset.eos = false ∧ State.reset.cout = [] ∧
  State.reset.cinPos = 0 ∧ faultLine State.reset = false ∧ statusWord State.reset = 0

/-- The supply of `cin` (R28, R177): the whole stream, read from its start. That a supply while a decode stream is open is
refused is the model's choice, after U17 and R182 (log entry 6). -/
def Obligations.SupplyGivesWholeStream : Prop :=
  ∀ (s : State) (stream : List Byte) (rest : List HostInput), s.inputs = .supply stream :: rest →
    (s.mode ≠ .dec → step s = .next { s with inputs := rest, cin := stream, cinPos := 0 }) ∧
    (s.mode = .dec → step s = .refused .suppliedWhileDecoding)

/-! ### Status and fault entry -/

/-- R52, R27: the fields of the response word, and STATUS. -/
def Obligations.ResponseWordFields : Prop :=
  ∀ (r : Reply) (s : State),
    rspFault (responseWord r s) = s.fault ∧
    rspMode (responseWord r s) = (match s.mode with | .idle => 0 | .enc => 1 | .dec => 2 | .fault => 3) ∧
    rspEos (responseWord r s) = s.eos ∧ rspDv (responseWord r s) = r.dv ∧ rspData (responseWord r s) = r.data ∧
    (statusWord s).toNat % 512 = 0 ∧ (statusWord s).toNat / 512 = (responseWord r s).toNat / 512

/-- R153: fault entry. A command whose procedure raises a fault in the state `u` it has reached answers the next state with the
code and FAULT mode written, `eos` and all else as in `u`, the response built from the new values and the line high. That all
else is kept is the model's choice of the two that R153 offers (log entry 5). -/
def Obligations.FaultEntryWrites : Prop :=
  ∀ (legal : List Mode) (body : State → Result Reply) (s u : State) (f : FaultCode),
    s.mode ≠ .fault → s.mode ∈ legal → body s = .raised f u →
    ∃ w : RspWord,
      w = (match f with
        | .illegalCmd => 0x1C00
        | .probRange => 0x2C00
        | .rangeUnderflow => 0x3C00
        | .inUnderrun => 0x4C00) + (if u.eos then 0x200 else 0) ∧
      runCommand legal body s = .next { u with fault := f.code, mode := .fault, rsps := u.rsps ++ [w] } ∧
      faultLine { u with fault := f.code, mode := .fault, rsps := u.rsps ++ [w] } = true

/-! ### Arithmetic -/

/-- R71: the shift of any integer, negative included, rounds toward minus infinity. -/
def Obligations.FloorShiftIsFloor : Prop := ∀ (a : Int) (n : Nat), floorShift a n = ⌊(a : ℚ) / 2 ^ n⌋

/-- R78: the counter law, its two directions in closed form, its fixpoints, and the number of updates that reach them. -/
def Obligations.CounterUpdateLaw : Prop :=
  (∀ (c : Prob) (bit : Bool), 1 ≤ c.toNat →
    ((ctrUpdate c bit).toNat : Int) =
      clamp ((c.toNat : Int) + ⌊(((if bit then 4096 else 0) - (c.toNat : Int) : Int) : ℚ) / 16⌋) 1 4095) ∧
  (∀ c : Prob, 1 ≤ c.toNat →
    (ctrUpdate c true).toNat = c.toNat + (4096 - c.toNat) / 16 ∧
    (ctrUpdate c false).toNat = max 1 (c.toNat - (c.toNat + 15) / 16) ∧
    (ctrUpdate c true = c ↔ 4081 ≤ c.toNat) ∧ (ctrUpdate c false = c ↔ c.toNat = 1)) ∧
  (fun c => ctrUpdate c true)^[85] 2048 = 4081 ∧ ((fun c => ctrUpdate c true)^[84] 2048).toNat < 4081 ∧
  (fun c => ctrUpdate c false)^[84] 2048 = 1 ∧ 1 < ((fun c => ctrUpdate c false)^[83] 2048).toNat

/-- R79: every probability that the models and the mixer produce is in 1..4095, when the counters are. -/
def Obligations.PredictionsLegal : Prop :=
  ∀ s : State, CountersLegal s →
    (1 ≤ (o0Predict s).toNat ∧ (o0Predict s).toNat ≤ 4095) ∧ (1 ≤ (o1Predict s).toNat ∧ (o1Predict s).toNat ≤ 4095) ∧
    (1 ≤ (hxPredict s).toNat ∧ (hxPredict s).toNat ≤ 4095) ∧
    ∀ p t, predictMix s = .ok p t → 1 ≤ p.toNat ∧ p.toNat ≤ 4095

/-! ### The context models -/

/-- R102, R103: the order-0 model. Its adapt writes the node's entry with the counter law and nothing else. -/
def Obligations.Order0PredictAdapt : Prop :=
  ∀ (s : State) (b : Bool), s.mem.wf = true →
    o0Predict s = readO0 s s.node.toNat ∧
    readO0 (o0Adapt b s) s.node.toNat = ctrUpdate (readO0 s s.node.toNat) b ∧
    (∀ a, a ≠ s.node.toNat → readO0 (o0Adapt b s) a = readO0 s a) ∧
    o0Adapt b s = { s with mem := { s.mem with o0 := (o0Adapt b s).mem.o0 } }

/-- R104, R105: the order-1 model at index `c1·256 + node`, from the first byte of history on; before that it predicts 2048 and
its adapt does nothing. -/
def Obligations.Order1PredictAdapt : Prop :=
  ∀ (s : State) (b : Bool), s.mem.wf = true →
    (s.hist.nbytes.toNat < 1 → o1Predict s = 2048 ∧ o1Adapt b s = s) ∧
    (1 ≤ s.hist.nbytes.toNat →
      o1Predict s = readO1 s (s.hist.c1.toNat * 256 + s.node.toNat) ∧
      readO1 (o1Adapt b s) (s.hist.c1.toNat * 256 + s.node.toNat) =
        ctrUpdate (readO1 s (s.hist.c1.toNat * 256 + s.node.toNat)) b ∧
      (∀ a, a ≠ s.hist.c1.toNat * 256 + s.node.toNat → readO1 (o1Adapt b s) a = readO1 s a) ∧
      o1Adapt b s = { s with mem := { s.mem with o1 := (o1Adapt b s).mem.o1 } })

/-- R106: the hash is the two-step formula, a bijection on 32-bit values, and each of the four bytes moves its low half. -/
def Obligations.HashIsBijective : Prop :=
  (∀ acc : Word, hxHash acc = acc * 0x9E3779B1 ^^^ ((acc * 0x9E3779B1) >>> 16)) ∧ Function.Bijective hxHash ∧
  ∀ k < 4, ∃ a b : Word, (∀ j < 32, j / 8 ≠ k → a.getLsbD j = b.getLsbD j) ∧
    (hxHash a).setWidth 16 ≠ (hxHash b).setWidth 16

/-- R107: index and key are the halves of `HX.HASH XOR node`; the nodes of one byte share the key and have different slots. -/
def Obligations.LookupSplitsContext : Prop :=
  ∀ (acc : Word) (node node' : BitVec 8),
    (hxKey acc node).toNat * 2 ^ 16 + hxIndex acc node = (hxHash acc ^^^ node.setWidth 32).toNat ∧
    hxIndex acc node < 2 ^ 16 ∧ hxKey acc node = hxKey acc node' ∧
    (hxIndex acc node = hxIndex acc node' ↔ node = node')

/-- R109: the probability of two counts. -/
def Obligations.CountsGiveProbability : Prop :=
  ∀ n0 n1 : BitVec 8,
    (n0.toNat + n1.toNat = 0 → hxProb n0 n1 = 2048) ∧
    (n0.toNat + n1.toNat ≠ 0 →
      (hxProb n0 n1).toNat = max 1 (min 4095 (n1.toNat * 4096 / (n0.toNat + n1.toNat))))

/-- R108, R111: what an adapt makes of a slot. A matching key: the bit's count goes up, and both counts are halved when either
passes 255. A different key: the slot is claimed with a fresh count. -/
def Obligations.SlotAdaptLaw : Prop :=
  ∀ (e : HxEntry) (key : BitVec 16) (b : Bool),
    (hxMatch e.key key = true ↔ e.key = key) ∧
    (e.key = key →
      (slotAdapt e key b).key = key ∧
      (e.count0.toNat + (1 - b.toNat) ≤ 255 ∧ e.count1.toNat + b.toNat ≤ 255 →
        (slotAdapt e key b).count0.toNat = e.count0.toNat + (1 - b.toNat) ∧
        (slotAdapt e key b).count1.toNat = e.count1.toNat + b.toNat) ∧
      (255 < e.count0.toNat + (1 - b.toNat) ∨ 255 < e.count1.toNat + b.toNat →
        (slotAdapt e key b).count0.toNat = (e.count0.toNat + (1 - b.toNat)) / 2 ∧
        (slotAdapt e key b).count1.toNat = (e.count1.toNat + b.toNat) / 2)) ∧
    (e.key ≠ key → slotAdapt e key b = if b then ⟨key, 0, 1⟩ else ⟨key, 1, 0⟩)

/-- R110, R111: the hashed model, from four bytes of history on; before that it predicts 2048 and its adapt does nothing. Its
predict of a slot under another key is 2048; its adapt writes its one slot and nothing else. -/
def Obligations.HashedPredictAdapt : Prop :=
  ∀ (s : State) (b : Bool), s.mem.wf = true →
    (s.hist.nbytes.toNat < 4 → hxPredict s = 2048 ∧ hxAdapt b s = s) ∧
    (4 ≤ s.hist.nbytes.toNat → ∀ a key e, a = hxIndex s.hist.acc s.node → key = hxKey s.hist.acc s.node → e = readHx s a →
      (e.key = key → hxPredict s = hxProb e.count0 e.count1) ∧ (e.key ≠ key → hxPredict s = 2048) ∧
      readHx (hxAdapt b s) a = slotAdapt e key b ∧
      (∀ a', a' ≠ a → readHx (hxAdapt b s) a' = readHx s a') ∧
      hxAdapt b s = { s with mem := { s.mem with hx := (hxAdapt b s).mem.hx } })

/-- R114: a detected collision. Two contexts with one slot and different keys: after an adapt by the first, the second predicts
2048, and its own adapt evicts the first, which then predicts 2048. -/
def Obligations.CollisionEvicts : Prop :=
  ∀ (s : State) (acc' : Word) (node' : BitVec 8) (b b' : Bool), s.mem.wf = true → 4 ≤ s.hist.nbytes.toNat →
    hxIndex acc' node' = hxIndex s.hist.acc s.node → hxKey acc' node' ≠ hxKey s.hist.acc s.node →
    let other : State → State := fun u => { u with node := node', hist := { u.hist with acc := acc' } }
    hxPredict (other (hxAdapt b s)) = 2048 ∧
    hxPredict { hxAdapt b' (other (hxAdapt b s)) with node := s.node, hist := s.hist } = 2048

/-- R112: the history roll. No table is touched and nothing else changes. -/
def Obligations.UpdateContextRolls : Prop :=
  ∀ (c : Byte) (s : State),
    HistoryRolls c s (updateContext c s) ∧ updateContext c s = { s with hist := (updateContext c s).hist }

/-! ### The mixer -/

/-- R122: the three calls of `MX.ADD` fill the latches in order and count; nothing else changes. -/
def Obligations.MixerAddLatches : Prop :=
  ∀ (x : Prob) (s : State),
    (s.mixer.nadd = 0 → mxAdd x s = .ok () { s with mixer := { s.mixer with st0 := x, nadd := 1 } }) ∧
    (s.mixer.nadd = 1 → mxAdd x s = .ok () { s with mixer := { s.mixer with st1 := x, nadd := 2 } }) ∧
    (s.mixer.nadd = 2 → mxAdd x s = .ok () { s with mixer := { s.mixer with st2 := x, nadd := 3 } })

/-- R123, R80: the combined probability is the weighted sum rounded to nearest, ties upward, clamped to 1..4095; the sum stays
below 2^47 in size; only `pr` is written. -/
def Obligations.MixerGetLaw : Prop :=
  ∀ s : State, s.mixer.nadd = 3 →
    ∃ (p : Prob) (S : Int),
      S = s.mixer.w0.toInt * s.mixer.st0.toNat + s.mixer.w1.toInt * s.mixer.st1.toNat +
        s.mixer.w2.toInt * s.mixer.st2.toNat + s.mixer.w3.toInt * 4096 ∧
      |S| < 2 ^ 47 ∧ (p.toNat : Int) = clamp ⌊((S + 8388608 : Int) : ℚ) / 2 ^ 24⌋ 1 4095 ∧
      mxGet s = .ok p { s with mixer := { s.mixer with pr := p } }

/-- R124: the learning step. Each weight moves by its floored increment, saturated at the signed 32-bit bounds; the bias by four
times the error; `nadd` is 0 again; latches and everything else stay. -/
def Obligations.MixerUpdateLaw : Prop :=
  ∀ (b : Bool) (s : State), s.mixer.nadd = 3 →
    ∃ t, mxUpdate b s = .ok () t ∧ ∀ E : Int, E = (if b then 4096 else 0) - (s.mixer.pr.toNat : Int) →
      t.mixer.w0.toInt = max (-2147483648) (min 2147483647 (s.mixer.w0.toInt + ⌊((E * s.mixer.st0.toNat : Int) : ℚ) / 1024⌋)) ∧
      t.mixer.w1.toInt = max (-2147483648) (min 2147483647 (s.mixer.w1.toInt + ⌊((E * s.mixer.st1.toNat : Int) : ℚ) / 1024⌋)) ∧
      t.mixer.w2.toInt = max (-2147483648) (min 2147483647 (s.mixer.w2.toInt + ⌊((E * s.mixer.st2.toNat : Int) : ℚ) / 1024⌋)) ∧
      t.mixer.w3.toInt = max (-2147483648) (min 2147483647 (s.mixer.w3.toInt + 4 * E)) ∧
      t = { s with mixer :=
        { s.mixer with w0 := t.mixer.w0, w1 := t.mixer.w1, w2 := t.mixer.w2, w3 := t.mixer.w3, nadd := 0 } }

/-- R125, U8: outside the sequencing contract the mixer's procedures have no behaviour. That the model stops there with a named
fault is its choice (log entry 7). -/
def Obligations.MixerOutsideContractStops : Prop :=
  ∀ (x : Prob) (b : Bool) (s : State),
    (s.mixer.nadd = 3 → mxAdd x s = .stuck .mixerSequence) ∧
    (s.mixer.nadd ≠ 3 → mxGet s = .stuck .mixerSequence ∧ mxUpdate b s = .stuck .mixerSequence) ∧
    (s.mode = .enc → s.mixer.nadd ≠ 0 → ∀ c, exec (.encByte c) s = .fault .mixerSequence)

/-! ### The entropy coder -/

/-- R86: `RC.SPLIT`. The fault outside 1..4095; the floored product inside; both sides at least 16 wide from `range ≥ 2^16`. -/
def Obligations.SplitLaw : Prop :=
  ∀ (p : Nat) (s : State),
    (p < 1 ∨ p > 4095 → rcSplit p s = .raised .probRange s) ∧
    (1 ≤ p → p ≤ 4095 → ∃ r1, rcSplit p s = .ok r1 s ∧ r1.toNat = s.coder.range.toNat * p / 4096 ∧
      (2 ^ 16 ≤ s.coder.range.toNat → 16 ≤ r1.toNat ∧ r1.toNat + 16 ≤ s.coder.range.toNat))

/-- R87: `RC.NARROW` inside the space of fractions. Bit 1 takes the lower part, bit 0 the remainder; an empty
interval raises RANGE_UNDERFLOW with the registers written. The low end is R87's at every `r1`, the remainder's empty case
included; while the remainder is not empty the addition does not wrap (R72). -/
def Obligations.NarrowLaw : Prop :=
  ∀ (b : Bool) (r1 : Word) (s : State), r1.toNat ≤ s.coder.range.toNat →
    s.coder.low.toNat + s.coder.range.toNat ≤ 2 ^ 32 →
    ∃ low range : Word,
      low.toNat = (if b then s.coder.low.toNat else (s.coder.low.toNat + r1.toNat) % 2 ^ 32) ∧
      (r1.toNat < s.coder.range.toNat → low.toNat = s.coder.low.toNat + (if b then 0 else r1.toNat)) ∧
      range.toNat = (if b then r1.toNat else s.coder.range.toNat - r1.toNat) ∧
      (range ≠ 0 → rcNarrow b r1 s = .ok () { s with coder := { s.coder with low := low, range := range } }) ∧
      (range = 0 → rcNarrow b r1 s =
        .raised .rangeUnderflow { s with coder := { s.coder with low := low, range := range } })

/-- R88: `RC.SHIFT` where the loops call it. The clamp keeps `low + range ≤ 2^32`, leaves at least 256, never binds at
`low' = 0`, and once `low + range = 2^32` a shift multiplies `range` by exactly 256. -/
def Obligations.ShiftLaw : Prop :=
  ∀ s : State, s.coder.range.toNat < 2 ^ 16 →
    ∃ low range : Word,
      rcShift s = { s with coder := { s.coder with low := low, range := range } } ∧
      low.toNat = s.coder.low.toNat * 256 % 2 ^ 32 ∧
      range.toNat = min (s.coder.range.toNat * 256) (2 ^ 32 - low.toNat) ∧
      low.toNat + range.toNat ≤ 2 ^ 32 ∧ (1 ≤ s.coder.range.toNat → 256 ≤ range.toNat) ∧
      (low.toNat = 0 → range.toNat = s.coder.range.toNat * 256) ∧
      (s.coder.low.toNat + s.coder.range.toNat = 2 ^ 32 →
        range.toNat = s.coder.range.toNat * 256 ∧ low.toNat + range.toNat = 2 ^ 32)

/-- R89, R90, with R93 (I1, I2) and R94: coding one bit, from a legal probability and an interval that is well kept. The bit
takes its part of the interval, `range * p / 4096` wide for bit 1; then, while `range < 2^16` and no longer, the encoder emits
the top byte of `low` and shifts, and the decoder shifts and takes one byte into `code`: `n` turns, at most 2. The decoder's bit
is 1 iff `code` is less than the part of bit 1 above `low`, and it faults, by IN_UNDERRUN, only where fewer than `n` bytes are
unread (what it then leaves in `low`, `range`, `code`: log entry 5). The interval is well kept again, nothing else changes, and
this is what the bit step calls in either direction (R130). -/
def Obligations.CodingBitKeepsInterval : Prop :=
  ∀ (s : State) (p : Nat), 1 ≤ p → p ≤ 4095 → IntervalOk s.coder →
    let emit : State → State := fun v => rcShift { v with cout := v.cout ++ [v.coder.low.extractLsb' 24 8] }
    let fetch : State → State := fun v =>
      { rcShift v with
        coder := { (rcShift v).coder with
          code := BitVec.ofNat 32 (v.coder.code.toNat * 256 + (v.cin.getD v.cinPos 0).toNat) }
        cinPos := v.cinPos + 1 }
    (∀ b, ∃ d n t bs, TakesPart b p s.coder d ∧ n ≤ 2 ∧ t = emit^[n] { s with coder := d } ∧
      (∀ k < n, (emit^[k] { s with coder := d }).coder.range.toNat < 2 ^ 16) ∧ IntervalOk t.coder ∧
      rcEncodeBit b p s = .ok () t ∧ codeBit .enc b p s = .ok b t ∧ t.coder.code = s.coder.code ∧
      t.cout = s.cout ++ bs ∧ bs.length = n ∧ t = { s with coder := t.coder, cout := t.cout }) ∧
    ∃ b d n t, b = decide ((s.coder.code.toNat + 2 ^ 32 - s.coder.low.toNat) % 2 ^ 32 < s.coder.range.toNat * p / 4096) ∧
      TakesPart b p s.coder d ∧ n ≤ 2 ∧ t = fetch^[n] { s with coder := d } ∧
      (∀ k < n, (fetch^[k] { s with coder := d }).coder.range.toNat < 2 ^ 16) ∧ IntervalOk t.coder ∧
      t.cinPos = s.cinPos + n ∧ t = { s with coder := t.coder, cinPos := t.cinPos } ∧
      (∀ bIn, codeBit .dec bIn p s = rcDecodeBit p s) ∧
      (n ≤ (s.cin.drop s.cinPos).length → rcDecodeBit p s = .ok b t) ∧
      ((s.cin.drop s.cinPos).length < n →
        ∃ u, rcDecodeBit p s = .raised .inUnderrun u ∧ u.cinPos = s.cinPos + (s.cin.drop s.cinPos).length ∧
          u = { s with coder := u.coder, cinPos := u.cinPos })

/-- R91: `RC.INIT_DEC` reads the first four unread bytes, big-endian, into `code`, or raises IN_UNDERRUN at the first missing
one. -/
def Obligations.InitDecReadsFour : Prop :=
  ∀ s : State,
    (∀ b0 b1 b2 b3 l, s.cin.drop s.cinPos = b0 :: b1 :: b2 :: b3 :: l →
      rcInitDec s = .ok () { s with
        coder := { s.coder with code := b0 ++ (b1 ++ (b2 ++ b3)) }, cinPos := s.cinPos + 4 }) ∧
    ((s.cin.drop s.cinPos).length < 4 →
      ∃ v, rcInitDec s = .raised .inUnderrun { s with
        coder := { s.coder with code := v }, cinPos := s.cinPos + (s.cin.drop s.cinPos).length })

/-- R92: the flush appends the four bytes of `low`, most significant first, and leaves `low = 0`; `range` stays. -/
def Obligations.FlushEmitsLow : Prop :=
  ∀ s : State, ∃ b0 b1 b2 b3 : Byte, b0 ++ (b1 ++ (b2 ++ b3)) = s.coder.low ∧
    rcFlush s = { s with coder := { s.coder with low := 0 }, cout := s.cout ++ [b0, b1, b2, b3] }

/-- R95: the coder alone. Whatever legal probabilities, decoding what was encoded gives the bits back, reads exactly the bytes
emitted, whatever follows them, and leaves `code` at the encoder's last `low`. -/
def Obligations.CoderRoundTrip : Prop :=
  ∀ (l : List (Bool × Nat)) (s : State), (∀ x ∈ l, 1 ≤ x.2 ∧ x.2 ≤ 4095) →
    ∃ t, encodeBits l { rcInit s with cout := [] } = .ok () t ∧
      ∀ (d : State) (extra : List Byte), d.cin = (rcFlush t).cout ++ extra → d.cinPos = 0 →
        ∃ v u, rcInitDec (rcInit d) = .ok () v ∧ decodeBits (l.map Prod.snd) v = .ok (l.map Prod.fst) u ∧
          u.cinPos = (rcFlush t).cout.length ∧ u.coder.code = t.coder.low ∧ u.coder.low = t.coder.low ∧
          u.coder.range = t.coder.range

/-! ### The driving loop -/

/-- R131: the node's advance. -/
def Obligations.NodeAdvanceLaw : Prop :=
  ∀ (b : Bool) (s : State),
    (nextNode s.node b).toNat = s.node.toNat * 2 + b.toNat ∧
    nodeAdvance b s = { s with node := (nodeAdvance b s).node } ∧
    ((nextNode s.node b).toNat < 256 → (nodeAdvance b s).node.toNat = s.node.toNat * 2 + b.toNat) ∧
    (256 ≤ (nextNode s.node b).toNat → (nodeAdvance b s).node = 1)

/-- R130: the order of the bit step, in both directions. From a state between bit steps, a step that completes has latched the
three predictions of THAT state, has coded its bit (`CodingBitKeepsInterval`) with the probability `MX.GET` gives of them
(`MixerGetLaw`), has adapted the entries that state's node and history address, has run `MX.UPDATE` of the bit on the same
latches (`MixerUpdateLaw`), and has advanced the node last. -/
def Obligations.BitStepFollowsOrder : Prop :=
  ∀ (dir : Dir) (bIn : Bool) (s t : State) (r : Bool × BitVec 9), s.mixer.nadd = 0 → bitStep dir bIn s = .ok r t →
    ∃ m p v, m = { s.mixer with st0 := o0Predict s, st1 := o1Predict s, st2 := hxPredict s, nadd := 3 } ∧
      mxGet { s with mixer := m } = .ok p v ∧ v = { s with mixer := { m with pr := p } } ∧
      ∃ b u, codeBit dir bIn p.toNat v = .ok b u ∧
        (dir = .enc → b = bIn) ∧ r = (b, nextNode s.node b) ∧
        t.coder = u.coder ∧ t.cout = u.cout ∧ t.cinPos = u.cinPos ∧
        t.mem = (hxAdapt b (o1Adapt b (o0Adapt b s))).mem ∧
        mxUpdate b v = .ok () { v with mixer := t.mixer } ∧ t.node = (nodeAdvance b s).node ∧
        t = { s with
          coder := t.coder, cout := t.cout, cinPos := t.cinPos, mem := t.mem, mixer := t.mixer, node := t.node }

/-- R132: a byte is eight bit steps, most significant bit first, and the byte is the low 8 bits of the last `n9`. -/
def Obligations.ByteIsEightBitSteps : Prop :=
  ∀ (dir : Dir) (c : Byte) (s : State),
    codeByte dir c s =
      (bitStep dir (c.getLsbD 7) s).bind fun _ s => (bitStep dir (c.getLsbD 6) s).bind fun _ s =>
      (bitStep dir (c.getLsbD 5) s).bind fun _ s => (bitStep dir (c.getLsbD 4) s).bind fun _ s =>
      (bitStep dir (c.getLsbD 3) s).bind fun _ s => (bitStep dir (c.getLsbD 2) s).bind fun _ s =>
      (bitStep dir (c.getLsbD 1) s).bind fun _ s => (bitStep dir (c.getLsbD 0) s).bind fun r s =>
        .ok (r.2.setWidth 8) s

/-- R132, R44: coding a byte touches eight different entries of each active table, once each, in either direction; the byte
that is coded is the one returned, and the operand when encoding. -/
def Obligations.ByteTeachesItsNodes : Prop :=
  ∀ (dir : Dir) (c : Byte) (s : State), SessionOk s → s.mem.wf = true →
    ∀ r t, codeByte dir c s = .ok r t → TablesLearn r s t ∧ t.node = 1 ∧ (dir = .enc → r = c)

/-- R133, R29, R85, R100, R121: what `STREAM_INIT` defines, in both directions, and what it leaves. -/
def Obligations.StreamInitDefines : Prop :=
  ∀ (dir : Dir) (s t : State), t = streamInit dir s →
    t.coder = ⟨0, 0xFFFFFFFF, 0⟩ ∧ t.hist = ⟨0, 0, 0⟩ ∧
    (∀ a, readO0 t a = 2048 ∧ readO1 t a = 2048 ∧ readHx t a = ⟨0, 0, 0⟩) ∧ t.mem.wf = true ∧
    t.mixer.w0.toInt = 5592405 ∧ t.mixer.w1.toInt = 5592405 ∧ t.mixer.w2.toInt = 5592405 ∧ t.mixer.w3.toInt = 0 ∧
    t.mixer.nadd = 0 ∧ t.node = 1 ∧ t.eos = false ∧
    (dir = .enc → t.cout = [] ∧ t.cinPos = s.cinPos) ∧ (dir = .dec → t.cinPos = 0 ∧ t.cout = s.cout) ∧
    t.mode = s.mode ∧ t.fault = s.fault ∧ t.cin = s.cin ∧ t.inputs = s.inputs ∧ t.rsps = s.rsps

/-! ### The commands -/

/-- R135: NOP answers STATUS and changes nothing. -/
def Obligations.NopCompletes : Prop :=
  ∀ s : State, s.mode = .idle ∨ s.mode = .enc ∨ s.mode = .dec →
    exec .nop s = .next { s with rsps := s.rsps ++ [statusWord s] }

/-- R136: START_ENC in IDLE opens an encode session from nothing of the old one. -/
def Obligations.StartEncCompletes : Prop :=
  ∀ s : State, s.mode = .idle → s.fault = 0 →
    ∃ t, exec .startEnc s = .next t ∧ t.mode = .enc ∧ t.fault = 0 ∧ t.eos = false ∧ t.coder = ⟨0, 0xFFFFFFFF, 0⟩ ∧
      t.node = 1 ∧ t.hist = ⟨0, 0, 0⟩ ∧ (∀ a, readO0 t a = 2048 ∧ readO1 t a = 2048 ∧ readHx t a = ⟨0, 0, 0⟩) ∧
      t.mixer.w0 = 5592405 ∧ t.mixer.w1 = 5592405 ∧ t.mixer.w2 = 5592405 ∧ t.mixer.w3 = 0 ∧ t.mixer.nadd = 0 ∧
      t.cout = [] ∧ t.cin = s.cin ∧ t.cinPos = s.cinPos ∧ t.inputs = s.inputs ∧ t.rsps = s.rsps ++ [0x0400]

/-- R137: START_DEC in IDLE with at least four bytes supplied opens a decode session; `code` is the stream's first four bytes. -/
def Obligations.StartDecCompletes : Prop :=
  ∀ (s : State) (b0 b1 b2 b3 : Byte) (l : List Byte), s.mode = .idle → s.fault = 0 → s.cin = b0 :: b1 :: b2 :: b3 :: l →
    ∃ t, exec .startDec s = .next t ∧ t.mode = .dec ∧ t.fault = 0 ∧ t.eos = false ∧
      t.coder = ⟨0, 0xFFFFFFFF, b0 ++ (b1 ++ (b2 ++ b3))⟩ ∧
      t.node = 1 ∧ t.hist = ⟨0, 0, 0⟩ ∧ (∀ a, readO0 t a = 2048 ∧ readO1 t a = 2048 ∧ readHx t a = ⟨0, 0, 0⟩) ∧
      t.mixer.w0 = 5592405 ∧ t.mixer.w1 = 5592405 ∧ t.mixer.w2 = 5592405 ∧ t.mixer.w3 = 0 ∧ t.mixer.nadd = 0 ∧
      t.cout = s.cout ∧ t.cin = s.cin ∧ t.cinPos = 4 ∧ t.inputs = s.inputs ∧ t.rsps = s.rsps ++ [0x0800]

/-- R137, R91: START_DEC with fewer than four bytes supplied takes IN_UNDERRUN, with every byte consumed (what it leaves in the
streams: log entry 5). -/
def Obligations.StartDecUnderrun : Prop :=
  ∀ s : State, s.mode = .idle → s.cin.length < 4 →
    ∃ t, exec .startDec s = .next t ∧ t.mode = .fault ∧ t.fault = 4 ∧ t.eos = false ∧ t.cin = s.cin ∧
      t.cinPos = s.cin.length ∧ t.cout = s.cout ∧ t.inputs = s.inputs ∧ t.rsps = s.rsps ++ [0x4C00]

/-- R138: ENC_BYTE in an open encode stream completes with its byte coded, learnt and rolled into the history, and appends at
most 16 bytes. Nothing else changes. -/
def Obligations.EncByteCompletes : Prop :=
  ∀ (c : Byte) (s : State), s.mode = .enc → SessionOk s → s.mem.wf = true →
    ∃ t bs, exec (.encByte c) s = .next t ∧ codeByte .enc c s = .ok c { t with hist := s.hist, rsps := s.rsps } ∧
      HistoryRolls c s t ∧ TablesLearn c s t ∧ SessionOk t ∧ t.mem.wf = true ∧
      t.cout = s.cout ++ bs ∧ bs.length ≤ 16 ∧ t.rsps = s.rsps ++ [statusWord s] ∧
      t = { s with
        node := t.node, coder := ⟨t.coder.low, t.coder.range, s.coder.code⟩, hist := t.hist, mem := t.mem
        mixer := t.mixer, cout := t.cout, rsps := t.rsps }

/-- R139: ENC_END in an open encode stream codes and rolls the end marker, flushes four bytes, and closes the stream. The
registers of the closed stream are as the pseudocode leaves them (log entry 5). -/
def Obligations.EncEndCompletes : Prop :=
  ∀ s : State, s.mode = .enc → SessionOk s → s.mem.wf = true → s.fault = 0 →
    ∃ t u bs b0 b1 b2 b3, exec .encEnd s = .next t ∧ codeByte .enc 0 s = .ok 0 u ∧
      t.node = 1 ∧ t.mixer = u.mixer ∧ t.mem = u.mem ∧ t.coder = ⟨0, u.coder.range, s.coder.code⟩ ∧
      HistoryRolls 0 s t ∧ TablesLearn 0 s t ∧ t.mem.wf = true ∧
      u.cout = s.cout ++ bs ∧ bs.length ≤ 16 ∧ b0 ++ (b1 ++ (b2 ++ b3)) = u.coder.low ∧
      t.cout = s.cout ++ bs ++ [b0, b1, b2, b3] ∧ t.rsps = s.rsps ++ [0x0200] ∧
      t = { s with
        mode := .idle, eos := true, node := t.node, coder := t.coder, hist := t.hist, mem := t.mem
        mixer := t.mixer, cout := t.cout, rsps := t.rsps }

/-- R139 (conflict C4): the end marker is coded exactly as ENC_BYTE 0x00 would code it; ENC_END adds the flush, `eos` and the
return to IDLE (the closed stream's registers as the pseudocode leaves them: log entry 5). -/
def Obligations.EndMarkerIsEncByteZero : Prop :=
  ∀ s : State, s.mode = .enc → SessionOk s → s.mem.wf = true →
    ∃ t u, exec (.encByte 0) s = .next u ∧ exec .encEnd s = .next t ∧
      { t with rsps := [] } = { rcFlush u with eos := true, mode := .idle, rsps := [] }

/-- R140: DEC_BYTE in an open decode stream with at least 16 bytes unread completes. A decoded 0x00 closes the stream and is not
delivered; any other byte is delivered; the byte is learnt and rolled into the history either way. The registers of a closed
stream are as the pseudocode leaves them (log entry 5). -/
def Obligations.DecByteCompletes : Prop :=
  ∀ s : State, s.mode = .dec → SessionOk s → s.mem.wf = true → s.fault = 0 → 16 ≤ (s.cin.drop s.cinPos).length →
    ∃ t u c k, exec .decByte s = .next t ∧ codeByte .dec 0 s = .ok c u ∧ t.coder = u.coder ∧ t.mixer = u.mixer ∧
      t.mem = u.mem ∧ t.node = 1 ∧ HistoryRolls c s t ∧ TablesLearn c s t ∧ t.mem.wf = true ∧
      k ≤ 16 ∧ t.cinPos = s.cinPos + k ∧
      (c = 0 → t.mode = .idle ∧ t.eos = true ∧ t.rsps = s.rsps ++ [0x0200]) ∧
      (c ≠ 0 → t.mode = .dec ∧ t.eos = s.eos ∧ SessionOk t ∧ t.rsps = s.rsps ++ [responseWord ⟨true, c⟩ s]) ∧
      t = { s with
        mode := t.mode, eos := t.eos, node := t.node, coder := t.coder, hist := t.hist, mem := t.mem
        mixer := t.mixer, cinPos := t.cinPos, rsps := t.rsps }

/-- R140, R36, R153: however few bytes are unread, DEC_BYTE in an open decode stream completes, with the effect that
`DecByteCompletes` gives it, or takes IN_UNDERRUN, as the coding of its byte does. It takes it only with every byte of `cin`
consumed, leaves `eos`, the history and `cout` (the last two by the model's choice, log entry 5), and answers 0x4C00 (0x4E00
with `eos`). The registers of a closed stream are as the pseudocode leaves them (log entry 5). -/
def Obligations.DecByteUnderrunOnlyAtEnd : Prop :=
  ∀ s : State, s.mode = .dec → SessionOk s → s.mem.wf = true → s.fault = 0 → s.cinPos ≤ s.cin.length →
    ∃ t, exec .decByte s = .next t ∧
      ((∃ u c k, codeByte .dec 0 s = .ok c u ∧ t.fault = 0 ∧ t.coder = u.coder ∧ t.mixer = u.mixer ∧ t.mem = u.mem ∧
          t.node = 1 ∧ HistoryRolls c s t ∧ TablesLearn c s t ∧ t.mem.wf = true ∧
          k ≤ 16 ∧ t.cinPos = s.cinPos + k ∧ t.cinPos ≤ s.cin.length ∧
          (c = 0 → t.mode = .idle ∧ t.eos = true ∧ t.rsps = s.rsps ++ [0x0200]) ∧
          (c ≠ 0 → t.mode = .dec ∧ t.eos = s.eos ∧ SessionOk t ∧ t.rsps = s.rsps ++ [responseWord ⟨true, c⟩ s]) ∧
          t = { s with
            mode := t.mode, eos := t.eos, node := t.node, coder := t.coder, hist := t.hist, mem := t.mem
            mixer := t.mixer, cinPos := t.cinPos, rsps := t.rsps }) ∨
        ((∃ v, codeByte .dec 0 s = .raised .inUnderrun v) ∧ t.fault = 4 ∧ t.mode = .fault ∧
          t.eos = s.eos ∧ t.hist = s.hist ∧ t.cout = s.cout ∧ t.cin = s.cin ∧
          t.cinPos = s.cin.length ∧ t.rsps = s.rsps ++ [if s.eos then 0x4E00 else 0x4C00]))

/-! ### The whole machine -/

/-- R59, whole: the mode after each command, from each mode, and after a word that is no command. After a DEC_BYTE that ran,
`c1` is the byte it decoded (R112), so the terminator test shows in it. -/
def Obligations.ModeTransitions : Prop :=
  (∀ (w : CmdWord) (e : DecodeError) (s : State), decodeWord w = .error e →
    ∃ t, commandWord w s = .next t ∧ t.mode = .fault ∧ (s.mode ≠ .fault → t.fault = 1) ∧ (s.mode = .fault → t.fault = s.fault)) ∧
  ∀ (i : Instr) (s t : State), StateInv s → exec i s = .next t →
    (s.mode = .fault → t.mode = .fault ∧ t.fault = s.fault) ∧
    (s.mode = .idle → match i with
      | .nop => t.mode = .idle
      | .startEnc => t.mode = .enc
      | .startDec => t.mode = .dec ∨ (t.mode = .fault ∧ t.fault = 4)
      | .encByte _ => t.mode = .fault ∧ t.fault = 1
      | .encEnd => t.mode = .fault ∧ t.fault = 1
      | .decByte => t.mode = .fault ∧ t.fault = 1) ∧
    (s.mode = .enc → match i with
      | .nop => t.mode = .enc
      | .startEnc => t.mode = .fault ∧ t.fault = 1
      | .startDec => t.mode = .fault ∧ t.fault = 1
      | .encByte _ => t.mode = .enc
      | .encEnd => t.mode = .idle
      | .decByte => t.mode = .fault ∧ t.fault = 1) ∧
    (s.mode = .dec → match i with
      | .nop => t.mode = .dec
      | .startEnc => t.mode = .fault ∧ t.fault = 1
      | .startDec => t.mode = .fault ∧ t.fault = 1
      | .encByte _ => t.mode = .fault ∧ t.fault = 1
      | .encEnd => t.mode = .fault ∧ t.fault = 1
      | .decByte => (t.mode = .dec ∧ t.hist.c1 ≠ 0) ∨ (t.mode = .idle ∧ t.hist.c1 = 0) ∨ (t.mode = .fault ∧ t.fault = 4))

/-- R26: what changes `eos`: a START in IDLE clears it; ENC_END and the DEC_BYTE that decodes the terminator (no fault, and the
byte rolled into the history is 0x00) set it; no other command touches it. -/
def Obligations.EosChangesOnlyAtStreamEnds : Prop :=
  ∀ (i : Instr) (s t : State), StateInv s → exec i s = .next t →
    t.eos = (if s.mode = .idle ∧ (i = .startEnc ∨ i = .startDec) then false
      else if (s.mode = .enc ∧ i = .encEnd) ∨ (s.mode = .dec ∧ i = .decByte ∧ t.fault = 0 ∧ t.hist.c1 = 0) then true
      else s.eos)

/-- R28, R35: bytes once in `cout` are never changed or removed by a command but START_ENC, and by no step but that and RESET
(after a fault and after a completed stream too, where the model keeps them literally: log entry 5). -/
def Obligations.OutputOnlyGrows : Prop :=
  ∀ s t : State, StateInv s → step s = .next t →
    s.cout <+: t.cout ∨
    (t.cout = [] ∧ ∃ rest, s.inputs = .reset :: rest ∨ (s.mode = .idle ∧ s.inputs = .command 0x1000 :: rest))

/-- The invariant holds at the reset state. -/
def Obligations.ResetMeetsInvariant : Prop := StateInv State.reset

/-- THE INVARIANT IS KEPT by every step from every state: tables in canonical form; `fault ≠ 0` iff FAULT (R25); no fault but
ILLEGAL_CMD and IN_UNDERRUN (R79, R151, R157); and in an open stream the byte boundary (R11), `nadd = 0` (R23), the interval
(R93), the history (R16, R18) and legal counters (R79). -/
def Obligations.StepKeepsInvariant : Prop := ∀ s t : State, StateInv s → step s = .next t → StateInv t

/-- R143, R53: from a state that meets the invariant every command word, legal or not, is answered by a next state; a step stops
only where the host supplies `cin` inside a decode stream. -/
def Obligations.EveryCommandIsAnswered : Prop :=
  ∀ s : State, StateInv s →
    (∀ w, Runs (commandWord w s)) ∧ (∀ i, Runs (exec i s)) ∧
    (Runs (step s) ∨ (s.mode = .dec ∧ ∃ stream rest, s.inputs = .supply stream :: rest))

/-- R145: one byte in lockstep. An encoder and a decoder that hold the same `node`, history, tables, weights, `low` and `range`
hold the same again after the decoder's DEC_BYTE and the encoder's ENC_BYTE of the byte it decoded (after the terminator the
decoder's registers are as the pseudocode leaves them: log entry 5). -/
def Obligations.DecByteMirrorsEncByte : Prop :=
  ∀ e d d' : State, e.mode = .enc → d.mode = .dec → SessionOk e → e.mem.wf = true → InLockstep e d → d.fault = 0 →
    exec .decByte d = .next d' → d'.fault = 0 →
    ∃ e', exec (.encByte d'.hist.c1) e = .next e' ∧ InLockstep e' d'

/-- R141, T2: COMPRESS cannot fault, its output has at least four bytes, and the output depends on the bytes alone: not on the
old tables, weights, registers, or anything else of the state it starts from. -/
def Obligations.CompressIsDeterministic : Prop :=
  ∀ (x : List Byte) (s s' : State), s.mode = .idle → s'.mode = .idle → s.fault = 0 → s'.fault = 0 →
    ∃ t t', compress x s = .next t ∧ compress x s' = .next t' ∧ t.cout = t'.cout ∧ 4 ≤ t.cout.length ∧
      t.fault = 0 ∧ t.eos = true ∧ t.mode = .idle

/-- R142: THE ROUND TRIP. DECOMPRESS of what COMPRESS produced, in any other block and whatever follows the stream, delivers the
bytes before the first 0x00 and ends with `eos = 1`, no fault; without a zero byte it delivers all and has consumed exactly
the stream. -/
def Obligations.RoundTrip : Prop :=
  ∀ (x : List Byte) (s : State), s.mode = .idle → s.fault = 0 →
    ∃ e, compress x s = .next e ∧
      ∀ (d : State) (extra : List Byte) (n : Nat), d.mode = .idle → d.fault = 0 → d.cin = e.cout ++ extra →
        x.length + 1 ≤ n →
        ∃ u, decompress n d = .next u ∧ u.fault = 0 ∧ u.eos = true ∧ u.mode = .idle ∧
          delivered (u.rsps.drop d.rsps.length) = x.takeWhile (· ≠ 0) ∧
          ((∀ b ∈ x, b ≠ 0) → delivered (u.rsps.drop d.rsps.length) = x ∧ u.cinPos = e.cout.length)

/-- R157: on any input whatever, decoding ends after finitely many DEC_BYTE, in exactly one of two ways: the terminator
(`eos = 1`, no fault) or IN_UNDERRUN. -/
def Obligations.DecoderAlwaysEnds : Prop :=
  ∀ d : State, d.mode = .idle → d.fault = 0 →
    ∃ n u, decompress n d = .next u ∧ hostStops u = true ∧
      ((u.eos = true ∧ u.fault = 0 ∧ u.mode = .idle) ∨ (u.eos = false ∧ u.fault = 4 ∧ u.mode = .fault))
end

