-- ==== Sys2Proof/Laws/State.lean ====
section
/-! SUPPORT. What each named update of the state does to each field, by unfolding it once (true by rfl). -/

namespace Sys2Proof.Machine

/-! ### `writeO0` -/

section
variable (i : Nat) (v : Prob) (s : State)

@[simp] theorem writeO0_mode : (writeO0 i v s).mode = s.mode := rfl
@[simp] theorem writeO0_fault : (writeO0 i v s).fault = s.fault := rfl
@[simp] theorem writeO0_eos : (writeO0 i v s).eos = s.eos := rfl
@[simp] theorem writeO0_node : (writeO0 i v s).node = s.node := rfl
@[simp] theorem writeO0_coder : (writeO0 i v s).coder = s.coder := rfl
@[simp] theorem writeO0_hist : (writeO0 i v s).hist = s.hist := rfl
@[simp] theorem writeO0_mem : (writeO0 i v s).mem = { s.mem with o0 := tabWrite counterInit s.mem.o0 i v } := rfl
@[simp] theorem writeO0_mixer : (writeO0 i v s).mixer = s.mixer := rfl
@[simp] theorem writeO0_cout : (writeO0 i v s).cout = s.cout := rfl
@[simp] theorem writeO0_cin : (writeO0 i v s).cin = s.cin := rfl
@[simp] theorem writeO0_cinPos : (writeO0 i v s).cinPos = s.cinPos := rfl
@[simp] theorem writeO0_inputs : (writeO0 i v s).inputs = s.inputs := rfl
@[simp] theorem writeO0_rsps : (writeO0 i v s).rsps = s.rsps := rfl
@[simp] theorem writeO0_free : (writeO0 i v s).free = s.free := rfl

end

/-! ### `writeO1` -/

section
variable (i : Nat) (v : Prob) (s : State)

@[simp] theorem writeO1_mode : (writeO1 i v s).mode = s.mode := rfl
@[simp] theorem writeO1_fault : (writeO1 i v s).fault = s.fault := rfl
@[simp] theorem writeO1_eos : (writeO1 i v s).eos = s.eos := rfl
@[simp] theorem writeO1_node : (writeO1 i v s).node = s.node := rfl
@[simp] theorem writeO1_coder : (writeO1 i v s).coder = s.coder := rfl
@[simp] theorem writeO1_hist : (writeO1 i v s).hist = s.hist := rfl
@[simp] theorem writeO1_mem : (writeO1 i v s).mem = { s.mem with o1 := tabWrite counterInit s.mem.o1 i v } := rfl
@[simp] theorem writeO1_mixer : (writeO1 i v s).mixer = s.mixer := rfl
@[simp] theorem writeO1_cout : (writeO1 i v s).cout = s.cout := rfl
@[simp] theorem writeO1_cin : (writeO1 i v s).cin = s.cin := rfl
@[simp] theorem writeO1_cinPos : (writeO1 i v s).cinPos = s.cinPos := rfl
@[simp] theorem writeO1_inputs : (writeO1 i v s).inputs = s.inputs := rfl
@[simp] theorem writeO1_rsps : (writeO1 i v s).rsps = s.rsps := rfl
@[simp] theorem writeO1_free : (writeO1 i v s).free = s.free := rfl

end

/-! ### `writeHx` -/

section
variable (i : Nat) (v : HxEntry) (s : State)

@[simp] theorem writeHx_mode : (writeHx i v s).mode = s.mode := rfl
@[simp] theorem writeHx_fault : (writeHx i v s).fault = s.fault := rfl
@[simp] theorem writeHx_eos : (writeHx i v s).eos = s.eos := rfl
@[simp] theorem writeHx_node : (writeHx i v s).node = s.node := rfl
@[simp] theorem writeHx_coder : (writeHx i v s).coder = s.coder := rfl
@[simp] theorem writeHx_hist : (writeHx i v s).hist = s.hist := rfl
@[simp] theorem writeHx_mem : (writeHx i v s).mem = { s.mem with hx := tabWrite slotInit s.mem.hx i v } := rfl
@[simp] theorem writeHx_mixer : (writeHx i v s).mixer = s.mixer := rfl
@[simp] theorem writeHx_cout : (writeHx i v s).cout = s.cout := rfl
@[simp] theorem writeHx_cin : (writeHx i v s).cin = s.cin := rfl
@[simp] theorem writeHx_cinPos : (writeHx i v s).cinPos = s.cinPos := rfl
@[simp] theorem writeHx_inputs : (writeHx i v s).inputs = s.inputs := rfl
@[simp] theorem writeHx_rsps : (writeHx i v s).rsps = s.rsps := rfl
@[simp] theorem writeHx_free : (writeHx i v s).free = s.free := rfl

end

/-! ### `outByte` -/

section
variable (b : Byte) (s : State)

@[simp] theorem outByte_mode : (outByte b s).mode = s.mode := rfl
@[simp] theorem outByte_fault : (outByte b s).fault = s.fault := rfl
@[simp] theorem outByte_eos : (outByte b s).eos = s.eos := rfl
@[simp] theorem outByte_node : (outByte b s).node = s.node := rfl
@[simp] theorem outByte_coder : (outByte b s).coder = s.coder := rfl
@[simp] theorem outByte_hist : (outByte b s).hist = s.hist := rfl
@[simp] theorem outByte_mem : (outByte b s).mem = s.mem := rfl
@[simp] theorem outByte_mixer : (outByte b s).mixer = s.mixer := rfl
@[simp] theorem outByte_cout : (outByte b s).cout = s.cout ++ [b] := rfl
@[simp] theorem outByte_cin : (outByte b s).cin = s.cin := rfl
@[simp] theorem outByte_cinPos : (outByte b s).cinPos = s.cinPos := rfl
@[simp] theorem outByte_inputs : (outByte b s).inputs = s.inputs := rfl
@[simp] theorem outByte_rsps : (outByte b s).rsps = s.rsps := rfl
@[simp] theorem outByte_free : (outByte b s).free = s.free := rfl

end

/-! ### `respond` -/

section
variable (r : Reply) (s : State)

@[simp] theorem respond_mode : (respond r s).mode = s.mode := rfl
@[simp] theorem respond_fault : (respond r s).fault = s.fault := rfl
@[simp] theorem respond_eos : (respond r s).eos = s.eos := rfl
@[simp] theorem respond_node : (respond r s).node = s.node := rfl
@[simp] theorem respond_coder : (respond r s).coder = s.coder := rfl
@[simp] theorem respond_hist : (respond r s).hist = s.hist := rfl
@[simp] theorem respond_mem : (respond r s).mem = s.mem := rfl
@[simp] theorem respond_mixer : (respond r s).mixer = s.mixer := rfl
@[simp] theorem respond_cout : (respond r s).cout = s.cout := rfl
@[simp] theorem respond_cin : (respond r s).cin = s.cin := rfl
@[simp] theorem respond_cinPos : (respond r s).cinPos = s.cinPos := rfl
@[simp] theorem respond_inputs : (respond r s).inputs = s.inputs := rfl
@[simp] theorem respond_rsps : (respond r s).rsps = s.rsps ++ [responseWord r s] := rfl
@[simp] theorem respond_free : (respond r s).free = s.free := rfl

end

/-! ### `takeFault` -/

section
variable (f : FaultCode) (s : State)

@[simp] theorem takeFault_mode : (takeFault f s).mode = .fault := rfl
@[simp] theorem takeFault_fault : (takeFault f s).fault = f.code := rfl
@[simp] theorem takeFault_eos : (takeFault f s).eos = s.eos := rfl
@[simp] theorem takeFault_node : (takeFault f s).node = s.node := rfl
@[simp] theorem takeFault_coder : (takeFault f s).coder = s.coder := rfl
@[simp] theorem takeFault_hist : (takeFault f s).hist = s.hist := rfl
@[simp] theorem takeFault_mem : (takeFault f s).mem = s.mem := rfl
@[simp] theorem takeFault_mixer : (takeFault f s).mixer = s.mixer := rfl
@[simp] theorem takeFault_cout : (takeFault f s).cout = s.cout := rfl
@[simp] theorem takeFault_cin : (takeFault f s).cin = s.cin := rfl
@[simp] theorem takeFault_cinPos : (takeFault f s).cinPos = s.cinPos := rfl
@[simp] theorem takeFault_inputs : (takeFault f s).inputs = s.inputs := rfl
@[simp] theorem takeFault_rsps : (takeFault f s).rsps = s.rsps ++ [responseWord Reply.none { s with fault := f.code, mode := .fault }] := rfl
@[simp] theorem takeFault_free : (takeFault f s).free = s.free := rfl

end

/-! ### `rcInit` -/

section
variable (s : State)

@[simp] theorem rcInit_mode : (rcInit s).mode = s.mode := rfl
@[simp] theorem rcInit_fault : (rcInit s).fault = s.fault := rfl
@[simp] theorem rcInit_eos : (rcInit s).eos = s.eos := rfl
@[simp] theorem rcInit_node : (rcInit s).node = s.node := rfl
@[simp] theorem rcInit_coder : (rcInit s).coder = { low := BitVec.ofNat 32 Config.rcInitLow, range := BitVec.ofNat 32 Config.rcInitRange, code := 0 } := rfl
@[simp] theorem rcInit_hist : (rcInit s).hist = s.hist := rfl
@[simp] theorem rcInit_mem : (rcInit s).mem = s.mem := rfl
@[simp] theorem rcInit_mixer : (rcInit s).mixer = s.mixer := rfl
@[simp] theorem rcInit_cout : (rcInit s).cout = s.cout := rfl
@[simp] theorem rcInit_cin : (rcInit s).cin = s.cin := rfl
@[simp] theorem rcInit_cinPos : (rcInit s).cinPos = s.cinPos := rfl
@[simp] theorem rcInit_inputs : (rcInit s).inputs = s.inputs := rfl
@[simp] theorem rcInit_rsps : (rcInit s).rsps = s.rsps := rfl
@[simp] theorem rcInit_free : (rcInit s).free = s.free := rfl

end

/-! ### `rcShift` -/

section
variable (s : State)

@[simp] theorem rcShift_mode : (rcShift s).mode = s.mode := rfl
@[simp] theorem rcShift_fault : (rcShift s).fault = s.fault := rfl
@[simp] theorem rcShift_eos : (rcShift s).eos = s.eos := rfl
@[simp] theorem rcShift_node : (rcShift s).node = s.node := rfl
@[simp] theorem rcShift_coder : (rcShift s).coder = shifted s.coder := rfl
@[simp] theorem rcShift_hist : (rcShift s).hist = s.hist := rfl
@[simp] theorem rcShift_mem : (rcShift s).mem = s.mem := rfl
@[simp] theorem rcShift_mixer : (rcShift s).mixer = s.mixer := rfl
@[simp] theorem rcShift_cout : (rcShift s).cout = s.cout := rfl
@[simp] theorem rcShift_cin : (rcShift s).cin = s.cin := rfl
@[simp] theorem rcShift_cinPos : (rcShift s).cinPos = s.cinPos := rfl
@[simp] theorem rcShift_inputs : (rcShift s).inputs = s.inputs := rfl
@[simp] theorem rcShift_rsps : (rcShift s).rsps = s.rsps := rfl
@[simp] theorem rcShift_free : (rcShift s).free = s.free := rfl

end

/-! ### `cmInit` -/

section
variable (s : State)

@[simp] theorem cmInit_mode : (cmInit s).mode = s.mode := rfl
@[simp] theorem cmInit_fault : (cmInit s).fault = s.fault := rfl
@[simp] theorem cmInit_eos : (cmInit s).eos = s.eos := rfl
@[simp] theorem cmInit_node : (cmInit s).node = s.node := rfl
@[simp] theorem cmInit_coder : (cmInit s).coder = s.coder := rfl
@[simp] theorem cmInit_hist : (cmInit s).hist = { c1 := 0, acc := 0, nbytes := 0 } := rfl
@[simp] theorem cmInit_mem : (cmInit s).mem = { o0 := [], o1 := [], hx := [] } := rfl
@[simp] theorem cmInit_mixer : (cmInit s).mixer = s.mixer := rfl
@[simp] theorem cmInit_cout : (cmInit s).cout = s.cout := rfl
@[simp] theorem cmInit_cin : (cmInit s).cin = s.cin := rfl
@[simp] theorem cmInit_cinPos : (cmInit s).cinPos = s.cinPos := rfl
@[simp] theorem cmInit_inputs : (cmInit s).inputs = s.inputs := rfl
@[simp] theorem cmInit_rsps : (cmInit s).rsps = s.rsps := rfl
@[simp] theorem cmInit_free : (cmInit s).free = s.free := rfl

end

/-! ### `updateContext` -/

section
variable (b : Byte) (s : State)

@[simp] theorem updateContext_mode : (updateContext b s).mode = s.mode := rfl
@[simp] theorem updateContext_fault : (updateContext b s).fault = s.fault := rfl
@[simp] theorem updateContext_eos : (updateContext b s).eos = s.eos := rfl
@[simp] theorem updateContext_node : (updateContext b s).node = s.node := rfl
@[simp] theorem updateContext_coder : (updateContext b s).coder = s.coder := rfl
@[simp] theorem updateContext_hist : (updateContext b s).hist = { c1 := b, acc := shiftInByte s.hist.acc b, nbytes := BitVec.ofNat 3 (min (s.hist.nbytes.toNat + 1) Config.histBytes) } := rfl
@[simp] theorem updateContext_mem : (updateContext b s).mem = s.mem := rfl
@[simp] theorem updateContext_mixer : (updateContext b s).mixer = s.mixer := rfl
@[simp] theorem updateContext_cout : (updateContext b s).cout = s.cout := rfl
@[simp] theorem updateContext_cin : (updateContext b s).cin = s.cin := rfl
@[simp] theorem updateContext_cinPos : (updateContext b s).cinPos = s.cinPos := rfl
@[simp] theorem updateContext_inputs : (updateContext b s).inputs = s.inputs := rfl
@[simp] theorem updateContext_rsps : (updateContext b s).rsps = s.rsps := rfl
@[simp] theorem updateContext_free : (updateContext b s).free = s.free := rfl

end

/-! ### `mxInit` -/

section
variable (s : State)

@[simp] theorem mxInit_mode : (mxInit s).mode = s.mode := rfl
@[simp] theorem mxInit_fault : (mxInit s).fault = s.fault := rfl
@[simp] theorem mxInit_eos : (mxInit s).eos = s.eos := rfl
@[simp] theorem mxInit_node : (mxInit s).node = s.node := rfl
@[simp] theorem mxInit_coder : (mxInit s).coder = s.coder := rfl
@[simp] theorem mxInit_hist : (mxInit s).hist = s.hist := rfl
@[simp] theorem mxInit_mem : (mxInit s).mem = s.mem := rfl
@[simp] theorem mxInit_cout : (mxInit s).cout = s.cout := rfl
@[simp] theorem mxInit_cin : (mxInit s).cin = s.cin := rfl
@[simp] theorem mxInit_cinPos : (mxInit s).cinPos = s.cinPos := rfl
@[simp] theorem mxInit_inputs : (mxInit s).inputs = s.inputs := rfl
@[simp] theorem mxInit_rsps : (mxInit s).rsps = s.rsps := rfl
@[simp] theorem mxInit_free : (mxInit s).free = s.free + 4 := rfl

end

/-! ### `nodeAdvance` -/

section
variable (b : Bool) (s : State)

@[simp] theorem nodeAdvance_mode : (nodeAdvance b s).mode = s.mode := rfl
@[simp] theorem nodeAdvance_fault : (nodeAdvance b s).fault = s.fault := rfl
@[simp] theorem nodeAdvance_eos : (nodeAdvance b s).eos = s.eos := rfl
@[simp] theorem nodeAdvance_coder : (nodeAdvance b s).coder = s.coder := rfl
@[simp] theorem nodeAdvance_hist : (nodeAdvance b s).hist = s.hist := rfl
@[simp] theorem nodeAdvance_mem : (nodeAdvance b s).mem = s.mem := rfl
@[simp] theorem nodeAdvance_mixer : (nodeAdvance b s).mixer = s.mixer := rfl
@[simp] theorem nodeAdvance_cout : (nodeAdvance b s).cout = s.cout := rfl
@[simp] theorem nodeAdvance_cin : (nodeAdvance b s).cin = s.cin := rfl
@[simp] theorem nodeAdvance_cinPos : (nodeAdvance b s).cinPos = s.cinPos := rfl
@[simp] theorem nodeAdvance_inputs : (nodeAdvance b s).inputs = s.inputs := rfl
@[simp] theorem nodeAdvance_rsps : (nodeAdvance b s).rsps = s.rsps := rfl
@[simp] theorem nodeAdvance_free : (nodeAdvance b s).free = s.free := rfl

end

/-! ### `pushCommand` -/

section
variable (w : CmdWord) (s : State)

@[simp] theorem pushCommand_mode : (pushCommand w s).mode = s.mode := rfl
@[simp] theorem pushCommand_fault : (pushCommand w s).fault = s.fault := rfl
@[simp] theorem pushCommand_eos : (pushCommand w s).eos = s.eos := rfl
@[simp] theorem pushCommand_node : (pushCommand w s).node = s.node := rfl
@[simp] theorem pushCommand_coder : (pushCommand w s).coder = s.coder := rfl
@[simp] theorem pushCommand_hist : (pushCommand w s).hist = s.hist := rfl
@[simp] theorem pushCommand_mem : (pushCommand w s).mem = s.mem := rfl
@[simp] theorem pushCommand_mixer : (pushCommand w s).mixer = s.mixer := rfl
@[simp] theorem pushCommand_cout : (pushCommand w s).cout = s.cout := rfl
@[simp] theorem pushCommand_cin : (pushCommand w s).cin = s.cin := rfl
@[simp] theorem pushCommand_cinPos : (pushCommand w s).cinPos = s.cinPos := rfl
@[simp] theorem pushCommand_inputs : (pushCommand w s).inputs = .command w :: s.inputs := rfl
@[simp] theorem pushCommand_rsps : (pushCommand w s).rsps = s.rsps := rfl
@[simp] theorem pushCommand_free : (pushCommand w s).free = s.free := rfl

end

/-! ### `applyReset` -/

section
variable (s : State)

@[simp] theorem applyReset_mode : (applyReset s).mode = .idle := rfl
@[simp] theorem applyReset_fault : (applyReset s).fault = 0 := rfl
@[simp] theorem applyReset_eos : (applyReset s).eos = false := rfl
@[simp] theorem applyReset_cout : (applyReset s).cout = [] := rfl
@[simp] theorem applyReset_cin : (applyReset s).cin = s.cin := rfl
@[simp] theorem applyReset_cinPos : (applyReset s).cinPos = 0 := rfl
@[simp] theorem applyReset_inputs : (applyReset s).inputs = s.inputs := rfl
@[simp] theorem applyReset_rsps : (applyReset s).rsps = s.rsps := rfl
@[simp] theorem applyReset_free : (applyReset s).free = s.free + 19 := rfl

end

/-! ### `streamInit` -/

section
variable (dir : Dir) (s : State)

@[simp] theorem streamInit_mode : (streamInit dir s).mode = s.mode := by cases dir <;> rfl
@[simp] theorem streamInit_fault : (streamInit dir s).fault = s.fault := by cases dir <;> rfl
@[simp] theorem streamInit_eos : (streamInit dir s).eos = false := by cases dir <;> rfl
@[simp] theorem streamInit_node : (streamInit dir s).node = 1 := by cases dir <;> rfl
@[simp] theorem streamInit_coder : (streamInit dir s).coder = { low := 0, range := 0xFFFFFFFF, code := 0 } := by cases dir <;> rfl
@[simp] theorem streamInit_hist : (streamInit dir s).hist = { c1 := 0, acc := 0, nbytes := 0 } := by cases dir <;> rfl
@[simp] theorem streamInit_mem : (streamInit dir s).mem = { o0 := [], o1 := [], hx := [] } := by cases dir <;> rfl
@[simp] theorem streamInit_mixer : (streamInit dir s).mixer = (mxInit s).mixer := by cases dir <;> rfl
@[simp] theorem streamInit_cin : (streamInit dir s).cin = s.cin := by cases dir <;> rfl
@[simp] theorem streamInit_inputs : (streamInit dir s).inputs = s.inputs := by cases dir <;> rfl
@[simp] theorem streamInit_rsps : (streamInit dir s).rsps = s.rsps := by cases dir <;> rfl
@[simp] theorem streamInit_free : (streamInit dir s).free = s.free + 4 := by cases dir <;> rfl
@[simp] theorem streamInit_enc_cout : (streamInit .enc s).cout = [] := rfl
@[simp] theorem streamInit_dec_cout : (streamInit .dec s).cout = s.cout := rfl
@[simp] theorem streamInit_enc_cinPos : (streamInit .enc s).cinPos = s.cinPos := rfl
@[simp] theorem streamInit_dec_cinPos : (streamInit .dec s).cinPos = 0 := rfl

end

/-! ### Running procedures -/

section
variable {α β : Type} (f : α → State → Result β)

@[simp] theorem bind_ok (a : α) (s : State) : (Result.ok a s).bind f = f a s := rfl
@[simp] theorem bind_raised (c : FaultCode) (s : State) : (Result.raised c s : Result α).bind f = .raised c s := rfl
@[simp] theorem bind_stuck (r : Fault) : (Result.stuck r : Result α).bind f = .stuck r := rfl

theorem bind_eq_ok {x : Result α} {b : β} {t : State} (h : x.bind f = .ok b t) :
    ∃ a s, x = .ok a s ∧ f a s = .ok b t := by
  cases x with
  | ok a s => exact ⟨a, s, rfl, h⟩
  | raised c s => cases h
  | stuck r => cases h

theorem bind_eq_raised {x : Result α} {c : FaultCode} {t : State} (h : x.bind f = .raised c t) :
    x = .raised c t ∨ ∃ a s, x = .ok a s ∧ f a s = .raised c t := by
  cases x with
  | ok a s => exact .inr ⟨a, s, rfl, h⟩
  | raised c' s => cases h; exact .inl rfl
  | stuck r => cases h

theorem bind_eq_stuck {x : Result α} {r : Fault} (h : x.bind f = .stuck r) :
    x = .stuck r ∨ ∃ a s, x = .ok a s ∧ f a s = .stuck r := by
  cases x with
  | ok a s => exact .inr ⟨a, s, rfl, h⟩
  | raised c s => cases h
  | stuck r' => cases h; exact .inl rfl

@[simp] theorem andThen_next (s : State) (g : State → Host.Outcome State Fault Refusal) :
    andThen (.next s) g = g s := rfl

end

end Sys2Proof.Machine
end

