-- ==== Sys2Proof/Laws/Tables.lean ====
section
/-! SUPPORT. The laws of the table memories: read after write, and every table operation keeps the canonical form. -/

namespace Sys2Proof.Machine

section
variable {α : Type} (d : α)

@[simp] theorem tabRead_nil (i : Nat) : tabRead d [] i = d := rfl

/-- An index below every listed one reads as unlisted. -/
theorem tabRead_below {t : Table α} {i : Nat} (h : ∀ e ∈ t, i < e.1) : tabRead d t i = d := by
  induction t with
  | nil => rfl
  | cons e t ih =>
    have hi : i ≠ e.1 := (h e (by simp)).ne
    simp [tabRead, hi, ih fun e he => h e (by simp [he])]

/-- A read is of a listed entry or gives the unlisted value. -/
theorem tabRead_mem (t : Table α) (i : Nat) : tabRead d t i = d ∨ (i, tabRead d t i) ∈ t := by
  induction t with
  | nil => exact .inl rfl
  | cons e t ih =>
    by_cases hi : i = e.1
    · subst hi; right; simp [tabRead]
    · simp only [tabRead, hi, if_false]
      exact ih.imp id fun h => List.mem_cons_of_mem _ h

variable [DecidableEq α]

/-- Writing one index leaves every other entry as it was. -/
theorem tabRead_tabWrite_other (t : Table α) {i j : Nat} (v : α) (h : j ≠ i) :
    tabRead d (tabWrite d t i v) j = tabRead d t j := by
  induction t with
  | nil => simp only [tabWrite]; split <;> simp [tabRead, h]
  | cons e t ih =>
    simp only [tabWrite]
    split
    · split <;> simp [tabRead, h]
    · split
      · rename_i hi; subst hi; split <;> simp [tabRead, h]
      · simp [tabRead, ih]

/-- In canonical form, an index reads what was last written to it. -/
theorem tabRead_tabWrite_same {size : Nat} {t : Table α} (hw : TabWf d size t) (i : Nat) (v : α) :
    tabRead d (tabWrite d t i v) i = v := by
  induction t with
  | nil => simp only [tabWrite]; split <;> simp_all [tabRead]
  | cons e t ih =>
    obtain ⟨hs, hm⟩ := hw
    rw [List.pairwise_cons] at hs
    simp only [tabWrite]
    split
    · rename_i hlt
      split
      · rename_i hv
        rw [hv]
        refine tabRead_below d fun e' he' => ?_
        rcases List.mem_cons.1 he' with rfl | he'
        · exact hlt
        · exact hlt.trans (hs.1 _ he')
      · simp [tabRead]
    · split
      · rename_i hi
        subst hi
        split
        · rename_i hv
          rw [hv]
          exact tabRead_below d fun e' he' => hs.1 _ he'
        · simp [tabRead]
      · rename_i hi
        simp only [tabRead, hi, if_false]
        exact ih ⟨hs.2, fun e he => hm e (by simp [he])⟩

/-- The indices listed after a write are the written one and those listed before. -/
theorem mem_tabWrite {t : Table α} {i : Nat} {v : α} {e : Nat × α} (h : e ∈ tabWrite d t i v) :
    (e = (i, v) ∧ v ≠ d) ∨ e ∈ t := by
  induction t with
  | nil =>
    simp only [tabWrite] at h
    split at h
    · cases h
    · exact .inl ⟨by simpa using h, by assumption⟩
  | cons e' t ih =>
    simp only [tabWrite] at h
    split at h
    · split at h
      · exact .inr h
      · rcases List.mem_cons.1 h with h | h
        · exact .inl ⟨h, by assumption⟩
        · exact .inr h
    · split at h
      · split at h
        · exact .inr (List.mem_cons_of_mem _ h)
        · rcases List.mem_cons.1 h with h | h
          · exact .inl ⟨h, by assumption⟩
          · exact .inr (List.mem_cons_of_mem _ h)
      · rcases List.mem_cons.1 h with h | h
        · exact .inr (by simp [h])
        · exact (ih h).imp id fun h => List.mem_cons_of_mem _ h

/-- A write keeps the canonical form. -/
theorem tabWrite_wf {size : Nat} {t : Table α} (hw : TabWf d size t) {i : Nat} (hi : i < size) (v : α) :
    TabWf d size (tabWrite d t i v) := by
  refine ⟨?_, fun e he => ?_⟩
  · obtain ⟨hs, -⟩ := hw
    induction t with
    | nil => simp only [tabWrite]; split <;> simp
    | cons e t ih =>
      have hs' := List.pairwise_cons.1 hs
      simp only [tabWrite]
      split
      · rename_i hlt
        split
        · exact hs
        · refine List.pairwise_cons.2 ⟨fun e' he' => ?_, hs⟩
          rcases List.mem_cons.1 he' with rfl | he'
          · exact hlt
          · exact hlt.trans (hs'.1 _ he')
      · split
        · rename_i hie
          subst hie
          split
          · exact hs'.2
          · exact List.pairwise_cons.2 ⟨hs'.1, hs'.2⟩
        · refine List.pairwise_cons.2 ⟨fun e' he' => ?_, ih hs'.2⟩
          rcases mem_tabWrite d he' with ⟨rfl, -⟩ | he'
          · simp only; omega
          · exact hs'.1 _ he'
  · rcases mem_tabWrite d he with ⟨rfl, hv⟩ | he
    · exact ⟨hi, hv⟩
    · exact hw.2 e he

/-- Any list of entries makes a table in canonical form. -/
theorem tabOfList_wf (size : Nat) (l : List (Nat × α)) : TabWf d size (tabOfList d size l) := by
  induction l with
  | nil => exact ⟨List.Pairwise.nil, by simp [tabOfList]⟩
  | cons e l ih =>
    simp only [tabOfList]
    split
    · rename_i hi; exact tabWrite_wf d ih hi _
    · exact ih

end

theorem memory_wf_iff (m : Memory) :
    m.wf = true ↔ TabWf counterInit 256 m.o0 ∧ TabWf counterInit 65536 m.o1 ∧ TabWf slotInit 65536 m.hx := by
  unfold Memory.wf
  rw [Bool.and_eq_true, Bool.and_eq_true, and_assoc]
  exact and_congr decide_eq_true_iff (and_congr decide_eq_true_iff decide_eq_true_iff)

/-- Every table index is formed in range (R31). -/
theorem o0Index_lt (node : BitVec 8) : o0Index node < 256 := node.isLt

theorem o1Index_lt (c1 : Byte) (node : BitVec 8) : o1Index c1 node < 65536 := (c1 ++ node).isLt

theorem hxIndex_lt (acc : Word) (node : BitVec 8) : hxIndex acc node < 65536 :=
  ((hxContext acc node).extractLsb' 0 16).isLt

theorem o1Index_eq (c1 : Byte) (node : BitVec 8) : o1Index c1 node = c1.toNat * 256 + node.toNat := by
  have h := node.isLt
  rw [o1Index, BitVec.toNat_append, Nat.shiftLeft_eq, Nat.mul_comm, ← Nat.two_pow_add_eq_or_of_lt h, Nat.mul_comm]

theorem reset_memory_wf : State.reset.mem.wf = true := by decide

theorem cmInit_memory_wf (s : State) : (cmInit s).mem.wf = true := by rw [cmInit_mem]; decide

theorem streamInit_memory_wf (dir : Dir) (s : State) : (streamInit dir s).mem.wf = true := by
  rw [streamInit_mem]; decide

theorem writeO0_memory_wf {s : State} (h : s.mem.wf = true) {i : Nat} (hi : i < 256) (v : Prob) :
    (writeO0 i v s).mem.wf = true := by
  rw [memory_wf_iff] at *; exact ⟨tabWrite_wf _ h.1 hi v, h.2⟩

theorem writeO1_memory_wf {s : State} (h : s.mem.wf = true) {i : Nat} (hi : i < 65536) (v : Prob) :
    (writeO1 i v s).mem.wf = true := by
  rw [memory_wf_iff] at *; exact ⟨h.1, tabWrite_wf _ h.2.1 hi v, h.2.2⟩

theorem writeHx_memory_wf {s : State} (h : s.mem.wf = true) {i : Nat} (hi : i < 65536) (v : HxEntry) :
    (writeHx i v s).mem.wf = true := by
  rw [memory_wf_iff] at *; exact ⟨h.1, h.2.1, tabWrite_wf _ h.2.2 hi v⟩

theorem o0Adapt_memory_wf {s : State} (h : s.mem.wf = true) (b : Bool) : (o0Adapt b s).mem.wf = true :=
  writeO0_memory_wf h (o0Index_lt _) _

theorem o1Adapt_memory_wf {s : State} (h : s.mem.wf = true) (b : Bool) : (o1Adapt b s).mem.wf = true := by
  unfold o1Adapt; split
  · exact writeO1_memory_wf h (o1Index_lt _ _) _
  · exact h

theorem hxAdapt_memory_wf {s : State} (h : s.mem.wf = true) (b : Bool) : (hxAdapt b s).mem.wf = true := by
  unfold hxAdapt; split
  · exact writeHx_memory_wf h (hxIndex_lt _ _) _
  · exact h

/-- Adapt-all keeps the canonical form. -/
theorem adaptModels_memory_wf {s : State} (h : s.mem.wf = true) (b : Bool) : (adaptModels b s).mem.wf = true :=
  hxAdapt_memory_wf (o1Adapt_memory_wf (o0Adapt_memory_wf h b) b) b

/-- A RESET pulse leaves the tables in canonical form, whatever they hold. -/
theorem applyReset_memory_wf (s : State) : (applyReset s).mem.wf = true := by
  rw [memory_wf_iff]
  exact ⟨tabOfList_wf _ _ _, tabOfList_wf _ _ _, tabOfList_wf _ _ _⟩

end Sys2Proof.Machine
end

