-- ==== Sys2Proof/Laws/Arith.lean ====
section
/-! SUPPORT. The laws of the arithmetic: clamping, legal probabilities, saturation. -/

namespace Sys2Proof.Machine

/-- A clamped value lies between its bounds. -/
theorem clamp_bounds (v : Int) {lo hi : Int} (h : lo ≤ hi) : lo ≤ clamp v lo hi ∧ clamp v lo hi ≤ hi := by
  unfold clamp; split
  · omega
  · split <;> omega

/-- Clamping leaves a value inside the bounds as it is. -/
theorem clamp_inside {v lo hi : Int} (h1 : lo ≤ v) (h2 : v ≤ hi) : clamp v lo hi = v := by
  unfold clamp; split
  · omega
  · split <;> omega

/-- `legalProb` is the clamp to 1..4095, read back as a number. -/
theorem legalProb_toNat (v : Int) : ((legalProb v).toNat : Int) = clamp v 1 4095 := by
  have h := clamp_bounds v (show (1 : Int) ≤ 4095 by omega)
  simp only [legalProb, Config.probMin, Config.probMax, Nat.cast_one, Nat.cast_ofNat, BitVec.toNat_ofInt]
  rw [Int.toNat_of_nonneg (Int.emod_nonneg _ (by norm_num)), Int.emod_eq_of_lt (by omega)]
  norm_num; omega

/-- R79: a value made by `legalProb` is a legal probability. -/
theorem legalProb_legal (v : Int) : 1 ≤ (legalProb v).toNat ∧ (legalProb v).toNat ≤ 4095 := by
  have h := clamp_bounds v (show (1 : Int) ≤ 4095 by omega)
  rw [← legalProb_toNat] at h
  omega

/-- R79: a counter after `CTR.UPDATE` is a legal probability, whatever it was. -/
theorem ctrUpdate_legal (c : Prob) (bit : Bool) : 1 ≤ (ctrUpdate c bit).toNat ∧ (ctrUpdate c bit).toNat ≤ 4095 :=
  legalProb_legal _

/-- The combined probability is legal, whatever the weights (R79, R123). -/
theorem mxOutput_legal (m : Mixer) : 1 ≤ (mxOutput m).toNat ∧ (mxOutput m).toNat ≤ 4095 := legalProb_legal _

/-- `sat32` stays in the signed 32-bit range (R75). -/
theorem sat32_bounds (v : Int) : -2147483648 ≤ sat32 v ∧ sat32 v ≤ 2147483647 :=
  clamp_bounds v (by simp)

/-- A weight's step, read back as a signed number, is the saturated sum (R124): it never wraps. -/
theorem weightStep_toInt (w : Word) (e : Int) (x : Nat) :
    (weightStep w e x).toInt = sat32 (w.toInt + floorShift (e * (x : Int)) Config.lrShift) := by
  have h := sat32_bounds (w.toInt + floorShift (e * (x : Int)) Config.lrShift)
  rw [weightStep, BitVec.toInt_ofInt]
  exact Int.bmod_eq_of_le (by omega) (by omega)

end Sys2Proof.Machine
end

