-- ==== Sys2Proof/Laws/Coder.lean ====
section
/-! SUPPORT. The laws of the entropy coder: what a split, a narrowing, a shift and a renormalisation loop do, said once. The
two loops are described by the coder's registers alone (`renormed`) and by the bytes that leave `low` (`spilled`), which both
directions share. -/

namespace Sys2Proof.Machine

/-- The exact product never leaves the register for a legal probability (R77, R86). -/
theorem splitWidth_toNat (r : Word) {p : Nat} (hp : p ≤ 4095) : (splitWidth r p).toNat = r.toNat * p / 4096 := by
  have hr := r.isLt
  have h1 : r.toNat * p ≤ r.toNat * 4096 := Nat.mul_le_mul_left _ (by omega)
  have h2 : r.toNat * p / 4096 ≤ r.toNat := Nat.div_le_of_le_mul (by omega)
  simp only [splitWidth, Config.probBits, BitVec.toNat_ofNat]
  exact Nat.mod_eq_of_lt (by norm_num; omega)

/-- Both sub-intervals are at least 16 wide (R86). -/
theorem splitWidth_bounds {r : Word} {p : Nat} (hr : 2 ^ 16 ≤ r.toNat) (h1 : 1 ≤ p) (h2 : p ≤ 4095) :
    16 ≤ (splitWidth r p).toNat ∧ (splitWidth r p).toNat + 16 ≤ r.toNat := by
  rw [splitWidth_toNat r h2]
  have h3 : r.toNat * 1 ≤ r.toNat * p := Nat.mul_le_mul_left _ h1
  have h4 : r.toNat * p ≤ r.toNat * 4095 := Nat.mul_le_mul_left _ h2
  omega

/-- `RC.SPLIT` of a legal probability (R86). -/
theorem rcSplit_legal {p : Nat} (h1 : 1 ≤ p) (h2 : p ≤ 4095) (s : State) :
    rcSplit p s = .ok (splitWidth s.coder.range p) s := by
  simp only [rcSplit, Config.probMin, Config.probMax]; rw [if_neg (by omega)]

/-- The interval after a narrowing, as numbers, where the split leaves both sides non-empty (R87). -/
theorem narrowed_toNat {c : Coder} {r1 : Word} (hi : c.low.toNat + c.range.toNat ≤ 2 ^ 32) (h : r1.toNat < c.range.toNat)
    (bit : Bool) :
    (narrowed bit r1 c).low.toNat = (if bit then c.low.toNat else c.low.toNat + r1.toNat) ∧
    (narrowed bit r1 c).range.toNat = (if bit then r1.toNat else c.range.toNat - r1.toNat) := by
  cases bit
  · refine ⟨?_, ?_⟩
    · simp only [narrowed, Bool.false_eq_true, if_false, BitVec.toNat_add]; omega
    · simp only [narrowed, Bool.false_eq_true, if_false]
      exact BitVec.toNat_sub_of_le (by rw [BitVec.le_def]; omega)
  · simp [narrowed]

@[simp] theorem narrowed_code (bit : Bool) (r1 : Word) (c : Coder) : (narrowed bit r1 c).code = c.code := by
  cases bit <;> rfl

/-- `RC.NARROW` where something is left (R87). -/
theorem rcNarrow_of_ne {bit : Bool} {r1 : Word} {s : State} (h : (narrowed bit r1 s.coder).range ≠ 0) :
    rcNarrow bit r1 s = .ok () { s with coder := narrowed bit r1 s.coder } := by
  simp only [rcNarrow]; rw [if_neg h]

/-- A split and a narrowing of a well-kept interval, as numbers (R86, R87). -/
theorem takesPart_narrowed {c : Coder} (hc : IntervalOk c) {p : Nat} (h1 : 1 ≤ p) (h2 : p ≤ 4095) (bit : Bool) :
    TakesPart bit p c (narrowed bit (splitWidth c.range p) c) := by
  have hb := splitWidth_bounds hc.range_min h1 h2
  have hn := narrowed_toNat (r1 := splitWidth c.range p) hc.in_space (by omega) bit
  rw [splitWidth_toNat _ h2] at hn
  exact ⟨hn.1, hn.2, narrowed_code ..⟩

/-- A split and a narrowing of a well-kept interval leave at least 16, inside the old interval (R86, R87, R93). -/
theorem narrowed_split {c : Coder} (hc : IntervalOk c) {p : Nat} (h1 : 1 ≤ p) (h2 : p ≤ 4095) (bit : Bool) :
    16 ≤ (narrowed bit (splitWidth c.range p) c).range.toNat ∧
    (narrowed bit (splitWidth c.range p) c).range.toNat + 16 ≤ c.range.toNat ∧
    (narrowed bit (splitWidth c.range p) c).low.toNat + (narrowed bit (splitWidth c.range p) c).range.toNat ≤ 2 ^ 32 := by
  have hb := splitWidth_bounds hc.range_min h1 h2
  have hn := narrowed_toNat (r1 := splitWidth c.range p) hc.in_space (by omega) bit
  have hi := hc.in_space
  rw [hn.1, hn.2]
  cases bit <;> simp <;> omega

@[simp] theorem shifted_low (c : Coder) : (shifted c).low = c.low <<< 8 := rfl
@[simp] theorem shifted_code (c : Coder) : (shifted c).code = c.code := rfl

/-- `low' = (low << 8) mod 2^32`, as a number (R72, R88). -/
theorem shiftLeft_byte_toNat (v : Word) : (v <<< 8).toNat = v.toNat * 256 % 2 ^ 32 := by
  rw [BitVec.toNat_shiftLeft, Nat.shiftLeft_eq]

/-- A byte shifted in, as numbers (R72, R76). -/
theorem shiftInByte_toNat (v : Word) (b : Byte) : (shiftInByte v b).toNat = v.toNat * 256 % 2 ^ 32 + b.toNat := by
  have hb := b.isLt
  have h1 : (v <<< 8).toNat = 2 ^ 8 * (v.toNat % 2 ^ 24) := by rw [shiftLeft_byte_toNat]; omega
  have h2 : (b.setWidth 32).toNat = b.toNat := by
    rw [BitVec.toNat_setWidth]; exact Nat.mod_eq_of_lt (lt_trans hb (by norm_num))
  rw [shiftInByte, BitVec.toNat_or, h1, h2, ← Nat.two_pow_add_eq_or_of_lt hb]
  omega

theorem shiftInByte_eq_ofNat (v : Word) (b : Byte) : shiftInByte v b = BitVec.ofNat 32 (v.toNat * 256 + b.toNat) := by
  apply BitVec.eq_of_toNat_eq
  have hb := b.isLt
  rw [shiftInByte_toNat, BitVec.toNat_ofNat]
  omega

/-- `RC.SHIFT` as numbers, where the loop calls it (R88). -/
theorem shifted_range_toNat {c : Coder} (h : c.range.toNat < 2 ^ 16) :
    (shifted c).range.toNat = min (c.range.toNat * 256) (2 ^ 32 - c.low.toNat * 256 % 2 ^ 32) := by
  simp only [shifted, BitVec.toNat_ofNat, shiftLeft_byte_toNat]
  exact Nat.mod_eq_of_lt (by omega)

/-- A shift keeps the interval in the space of 32-bit fractions: the clamp (R88). -/
theorem shifted_in_space {c : Coder} (h : c.range.toNat < 2 ^ 16) :
    (shifted c).low.toNat + (shifted c).range.toNat ≤ 2 ^ 32 := by
  rw [shifted_range_toNat h, shifted_low, shiftLeft_byte_toNat]
  omega

/-- The coder's registers after at most `n` turns of the renormalisation loop (R89, R90), `code` apart. -/
def renormed : Nat → Coder → Coder
  | 0, c => c
  | n + 1, c => if c.range.toNat < 2 ^ 16 then renormed n (shifted c) else c

/-- The top bytes of `low` that leave it in those turns, in order (R88). -/
def spilled : Nat → Coder → List Byte
  | 0, _ => []
  | n + 1, c => if c.range.toNat < 2 ^ 16 then topByte c.low :: spilled n (shifted c) else []

/-- At most one byte a turn (R94). -/
theorem spilled_length (n : Nat) (c : Coder) : (spilled n c).length ≤ n := by
  induction n generalizing c with
  | zero => simp [spilled]
  | succ n ih => simp only [spilled]; split <;> simp [ih]

@[simp] theorem renormed_code (n : Nat) (c : Coder) : (renormed n c).code = c.code := by
  induction n generalizing c with
  | zero => rfl
  | succ n ih => simp only [renormed]; split <;> simp [ih]

/-- Setting `code` commutes with the loop: it reads `low` and `range` only. -/
theorem renormed_set_code (n : Nat) (c : Coder) (v : Word) :
    renormed n { c with code := v } = { renormed n c with code := v } := by
  induction n generalizing c with
  | zero => rfl
  | succ n ih =>
    simp only [renormed]; split
    · exact ih (shifted c)
    · rfl

theorem spilled_set_code (n : Nat) (c : Coder) (v : Word) : spilled n { c with code := v } = spilled n c := by
  induction n generalizing c with
  | zero => rfl
  | succ n ih =>
    simp only [spilled]; split
    · exact congrArg _ (ih (shifted c))
    · rfl

/-- The fuel never cuts the loop short: two turns always bring `range` back to 2^16 (R94), from any non-empty interval. -/
theorem renormed_done {c : Coder} (h : 1 ≤ c.range.toNat) : 2 ^ 16 ≤ (renormed 2 c).range.toNat := by
  have hl := c.low.isLt
  simp only [renormed]
  split
  · rename_i h1
    have e1 := shifted_range_toNat h1
    split
    · rename_i h2
      rw [shifted_range_toNat h2, shifted_low, shiftLeft_byte_toNat, e1]
      omega
    · omega
  · omega

/-- The loop keeps the interval in space (R93). -/
theorem renormed_in_space (n : Nat) {c : Coder} (h : c.low.toNat + c.range.toNat ≤ 2 ^ 32) :
    (renormed n c).low.toNat + (renormed n c).range.toNat ≤ 2 ^ 32 := by
  induction n generalizing c with
  | zero => exact h
  | succ n ih =>
    simp only [renormed]; split
    · rename_i hr; exact ih (shifted_in_space hr)
    · exact h

/-- After the loop the interval is well kept (R93). -/
theorem renormed_ok {c : Coder} (h1 : 1 ≤ c.range.toNat) (h : c.low.toNat + c.range.toNat ≤ 2 ^ 32) :
    IntervalOk (renormed 2 c) := ⟨renormed_done h1, renormed_in_space 2 h⟩

/-- The encoder's loop, whole: the registers and the bytes emitted (R89). -/
theorem renormEnc_eq (n : Nat) (s : State) :
    renormEnc n s = { s with coder := renormed n s.coder, cout := s.cout ++ spilled n s.coder } := by
  induction n generalizing s with
  | zero => simp [renormEnc, renormed, spilled]
  | succ n ih =>
    simp only [renormEnc, renormed, spilled, Config.rcMinRange]
    by_cases h : s.coder.range.toNat < 65536
    · rw [if_pos h, if_pos (by omega), if_pos (by omega), ih]; simp [rcShift, outByte]
    · rw [if_neg h, if_neg (by omega), if_neg (by omega)]; simp

/-- The encoder's loop ends by its own test, never by its fuel (R94). -/
theorem renormEnc_done {s : State} (h : 1 ≤ s.coder.range.toNat) : 2 ^ 16 ≤ (renormEnc renormBound s).coder.range.toNat := by
  rw [renormEnc_eq]; exact renormed_done h

/-- `InByte` on a stream with an unread byte. -/
theorem inByte_cons {s : State} {b : Byte} {l : List Byte} (h : unread s = b :: l) :
    inByte s = .ok b { s with cinPos := s.cinPos + 1 } := by
  simp only [inByte, h]

/-- `InByte` on an exhausted stream. -/
theorem inByte_nil {s : State} (h : unread s = []) : inByte s = .raised .inUnderrun s := by
  simp only [inByte, h]

/-- Consuming `k` bytes. -/
theorem unread_advance (s : State) (k : Nat) (c : Coder) :
    unread { s with coder := c, cinPos := s.cinPos + k } = (unread s).drop k := by
  simp [unread, List.drop_drop]

/-- The decoder's loop, whole, where the stream has the bytes (R90): the same registers as the encoder's loop, one byte
into `code` for each byte the encoder emitted. -/
theorem renormDec_ok (n : Nat) (s : State) (h : (spilled n s.coder).length ≤ (unread s).length) :
    renormDec n s = .ok ()
      { s with
        coder :=
          { renormed n s.coder with
            code := ((unread s).take (spilled n s.coder).length).foldl shiftInByte s.coder.code }
        cinPos := s.cinPos + (spilled n s.coder).length } := by
  induction n generalizing s with
  | zero => simp [renormDec, renormed, spilled]
  | succ n ih =>
    simp only [renormDec, Config.rcMinRange]
    by_cases hr : s.coder.range.toNat < 65536
    · have hr' : s.coder.range.toNat < 2 ^ 16 := by omega
      rw [if_pos hr]
      simp only [spilled, renormed, if_pos hr'] at h ⊢
      rw [List.length_cons] at h
      obtain ⟨b, l, hl⟩ : ∃ b l, unread s = b :: l := by
        cases hu : unread s with
        | nil => rw [hu] at h; simp at h
        | cons b l => exact ⟨b, l, rfl⟩
      have hu : unread (rcShift s) = b :: l := hl
      rw [inByte_cons hu, bind_ok]
      have hs := spilled_set_code n (shifted s.coder) (shiftInByte s.coder.code b)
      have hn := renormed_set_code n (shifted s.coder) (shiftInByte s.coder.code b)
      have hd : unread { rcShift s with
          coder := { shifted s.coder with code := shiftInByte s.coder.code b }, cinPos := s.cinPos + 1 } = l := by
        have := unread_advance s 1 { shifted s.coder with code := shiftInByte s.coder.code b }
        rw [hl] at this; simpa [rcShift] using this
      have hlen : (spilled n (shifted s.coder)).length ≤ l.length := by rw [hl] at h; simpa using h
      refine (ih _ ?_).trans ?_
      · simp only [rcShift, shifted_code] at hd ⊢
        rw [hs, hd]; exact hlen
      · simp only [rcShift, shifted_code] at hd ⊢
        rw [hs, hn, hd, hl]
        simp [Nat.add_assoc, Nat.add_comm 1]
    · rw [if_neg hr]; simp [spilled, renormed, hr]

/-- The decoder's loop where the stream ends first (R90, R36): IN_UNDERRUN with every byte consumed; only the coder's
registers and the read position have changed. -/
theorem renormDec_underrun (n : Nat) (s : State) (h : (unread s).length < (spilled n s.coder).length) :
    ∃ c, renormDec n s = .raised .inUnderrun { s with coder := c, cinPos := s.cinPos + (unread s).length } := by
  induction n generalizing s with
  | zero => simp [spilled] at h
  | succ n ih =>
    simp only [renormDec, Config.rcMinRange]
    by_cases hr : s.coder.range.toNat < 65536
    · have hr' : s.coder.range.toNat < 2 ^ 16 := by omega
      rw [if_pos hr]
      simp only [spilled, if_pos hr', List.length_cons] at h
      cases hl : unread s with
      | nil =>
        have hu : unread (rcShift s) = [] := hl
        exact ⟨shifted s.coder, by rw [inByte_nil hu, bind_raised]; simp [rcShift]⟩
      | cons b l =>
        have hu : unread (rcShift s) = b :: l := hl
        rw [inByte_cons hu, bind_ok]
        have hd : unread { rcShift s with
            coder := { shifted s.coder with code := shiftInByte s.coder.code b }, cinPos := s.cinPos + 1 } = l := by
          have := unread_advance s 1 { shifted s.coder with code := shiftInByte s.coder.code b }
          rw [hl] at this; simpa [rcShift] using this
        have hs := spilled_set_code n (shifted s.coder) (shiftInByte s.coder.code b)
        obtain ⟨c, hc⟩ := ih { rcShift s with
            coder := { shifted s.coder with code := shiftInByte s.coder.code b }, cinPos := s.cinPos + 1 } (by
          rw [hd]; simp only [hs]; rw [hl] at h; simpa using h)
        refine ⟨c, ?_⟩
        rw [hd] at hc
        simp only [rcShift] at hc ⊢
        refine hc.trans ?_
        simp [Nat.add_assoc, Nat.add_comm 1]
    · simp [spilled, hr] at h

/-- The decoder's loop ends by its own test, never by its fuel (R94). -/
theorem renormDec_done {s t : State} (h : 1 ≤ s.coder.range.toNat) (ht : renormDec renormBound s = .ok () t) :
    2 ^ 16 ≤ t.coder.range.toNat := by
  by_cases hl : (spilled renormBound s.coder).length ≤ (unread s).length
  · rw [renormDec_ok _ _ hl] at ht
    cases ht
    exact renormed_done h
  · obtain ⟨c, hc⟩ := renormDec_underrun _ _ (Nat.lt_of_not_le hl)
    rw [hc] at ht; cases ht

/-! ### The loops as iterated turns: the shape in which the rules write them -/

/-- One turn of the encoder's loop (R89): the top byte of `low` is emitted, then the shift. -/
def encTurn (s : State) : State := rcShift { s with cout := s.cout ++ [s.coder.low.extractLsb' 24 8] }

/-- One turn of the decoder's loop (R90), where a byte is unread: the shift, then the byte into `code`. -/
def decTurn (s : State) : State :=
  { rcShift s with
    coder := { (rcShift s).coder with code := BitVec.ofNat 32 (s.coder.code.toNat * 256 + (s.cin.getD s.cinPos 0).toNat) }
    cinPos := s.cinPos + 1 }

/-- The encoder's loop is as many turns as bytes leave `low`, each from `range < 2^16` (R89). -/
theorem renormEnc_iterate (n : Nat) (s : State) :
    renormEnc n s = encTurn^[(spilled n s.coder).length] s ∧
    ∀ k < (spilled n s.coder).length, (encTurn^[k] s).coder.range.toNat < 2 ^ 16 := by
  induction n generalizing s with
  | zero => exact ⟨rfl, fun k hk => absurd hk (Nat.not_lt_zero k)⟩
  | succ n ih =>
    simp only [renormEnc, spilled, Config.rcMinRange]
    by_cases h : s.coder.range.toNat < 65536
    · rw [if_pos h, if_pos (by omega), List.length_cons]
      obtain ⟨e, hk⟩ := ih (encTurn s)
      refine ⟨by rw [Function.iterate_succ_apply]; exact e, fun k hlt => ?_⟩
      cases k with
      | zero => exact h
      | succ k => rw [Function.iterate_succ_apply]; exact hk k (Nat.lt_of_succ_lt_succ hlt)
    · rw [if_neg h, if_neg (by omega)]
      exact ⟨rfl, fun k hk => absurd hk (Nat.not_lt_zero k)⟩

/-- The interval after the decoder's turns is the encoder's (R90), whatever the bytes; each turn is from `range < 2^16`. -/
theorem decTurn_iterate_interval (n : Nat) (s : State) :
    (decTurn^[(spilled n s.coder).length] s).coder.low = (renormed n s.coder).low ∧
    (decTurn^[(spilled n s.coder).length] s).coder.range = (renormed n s.coder).range ∧
    ∀ k < (spilled n s.coder).length, (decTurn^[k] s).coder.range.toNat < 2 ^ 16 := by
  induction n generalizing s with
  | zero => exact ⟨rfl, rfl, fun k hk => absurd hk (Nat.not_lt_zero k)⟩
  | succ n ih =>
    simp only [spilled, renormed]
    by_cases h : s.coder.range.toNat < 2 ^ 16
    · rw [if_pos h, if_pos h, List.length_cons]
      obtain ⟨e1, e2, hk⟩ := ih (decTurn s)
      have hs : spilled n (decTurn s).coder = spilled n (shifted s.coder) := spilled_set_code ..
      have hr : renormed n (decTurn s).coder = { renormed n (shifted s.coder) with code := (decTurn s).coder.code } :=
        renormed_set_code ..
      rw [hs] at e1 e2 hk
      rw [hr] at e1 e2
      refine ⟨by rw [Function.iterate_succ_apply]; exact e1, by rw [Function.iterate_succ_apply]; exact e2, fun k hlt => ?_⟩
      cases k with
      | zero => exact h
      | succ k => rw [Function.iterate_succ_apply]; exact hk k (by simpa using hlt)
    · rw [if_neg h, if_neg h]
      exact ⟨rfl, rfl, fun k hk => absurd hk (Nat.not_lt_zero k)⟩

/-- The decoder's turns change the coder's registers and the read position only. -/
theorem decTurn_iterate_frame (n : Nat) (s : State) :
    decTurn^[n] s = { s with coder := (decTurn^[n] s).coder, cinPos := s.cinPos + n } := by
  induction n generalizing s with
  | zero => rfl
  | succ n ih =>
    rw [Function.iterate_succ_apply]
    refine (ih (decTurn s)).trans ?_
    simp [decTurn, rcShift, Nat.add_assoc, Nat.add_comm 1]

/-- The decoder's loop is those turns, where the stream has the bytes (R90). -/
theorem renormDec_iterate (n : Nat) (s : State) (h : (spilled n s.coder).length ≤ (unread s).length) :
    renormDec n s = .ok () (decTurn^[(spilled n s.coder).length] s) := by
  induction n generalizing s with
  | zero => rfl
  | succ n ih =>
    simp only [renormDec, Config.rcMinRange]
    by_cases hr : s.coder.range.toNat < 2 ^ 16
    · rw [if_pos (by omega)]
      simp only [spilled, if_pos hr, List.length_cons] at h ⊢
      cases hl : unread s with
      | nil => rw [hl] at h; simp at h
      | cons b l =>
        have hs : spilled n (decTurn s).coder = spilled n (shifted s.coder) := spilled_set_code ..
        have hb : s.cin.getD s.cinPos 0 = b := by
          rw [List.getD_eq_getElem?_getD, ← List.head?_drop]
          exact congrArg (fun l => (List.head? l).getD 0) hl
        have hd : decTurn s = { rcShift s with
            coder := { shifted s.coder with code := shiftInByte s.coder.code b }, cinPos := s.cinPos + 1 } := by
          rw [decTurn, hb, shiftInByte_eq_ofNat]; rfl
        have hu : (unread (decTurn s)).length = l.length := by
          have := unread_advance s 1 { shifted s.coder with code := shiftInByte s.coder.code b }
          rw [hl] at this; rw [hd]; exact congrArg List.length this
        rw [inByte_cons (s := rcShift s) hl, bind_ok, Function.iterate_succ_apply, ← hs]
        refine Eq.trans (congrArg (renormDec n) hd.symm) (ih (decTurn s) ?_)
        rw [hs, hu]; rw [hl] at h; simpa using h
    · rw [if_neg (by omega), spilled, if_neg hr]
      rfl

/-- `RC.ENCODE_BIT` of a legal probability on a well-kept interval, whole (R89): it never faults. -/
theorem rcEncodeBit_eq {s : State} (hc : IntervalOk s.coder) {p : Nat} (h1 : 1 ≤ p) (h2 : p ≤ 4095) (bit : Bool) :
    rcEncodeBit bit p s = .ok ()
      { s with
        coder := renormed 2 (narrowed bit (splitWidth s.coder.range p) s.coder)
        cout := s.cout ++ spilled 2 (narrowed bit (splitWidth s.coder.range p) s.coder) } := by
  have hn := narrowed_split hc h1 h2 bit
  have h0 : (narrowed bit (splitWidth s.coder.range p) s.coder).range ≠ 0 := by
    intro h; rw [h] at hn; simp at hn
  rw [rcEncodeBit, rcSplit_legal h1 h2, bind_ok, rcNarrow_of_ne h0, bind_ok, renormEnc_eq]
  rfl

/-- `RC.DECODE_BIT` of a legal probability on a well-kept interval, where the stream has the bytes (R90). -/
theorem rcDecodeBit_ok {s : State} (hc : IntervalOk s.coder) {p : Nat} (h1 : 1 ≤ p) (h2 : p ≤ 4095) {bit : Bool}
    (hb : decidedBit s.coder (splitWidth s.coder.range p) = bit)
    (hl : (spilled 2 (narrowed bit (splitWidth s.coder.range p) s.coder)).length ≤ (unread s).length) :
    rcDecodeBit p s = .ok bit
      { s with
        coder :=
          { renormed 2 (narrowed bit (splitWidth s.coder.range p) s.coder) with
            code := ((unread s).take (spilled 2 (narrowed bit (splitWidth s.coder.range p) s.coder)).length).foldl
              shiftInByte s.coder.code }
        cinPos := s.cinPos + (spilled 2 (narrowed bit (splitWidth s.coder.range p) s.coder)).length } := by
  have hn := narrowed_split hc h1 h2 bit
  have h0 : (narrowed bit (splitWidth s.coder.range p) s.coder).range ≠ 0 := by
    intro h; rw [h] at hn; simp at hn
  rw [rcDecodeBit, rcSplit_legal h1 h2, bind_ok]
  simp only [hb]
  rw [rcNarrow_of_ne h0, bind_ok]
  rw [show renormBound = 2 from rfl, renormDec_ok 2 _ hl]
  simp [narrowed_code, unread]

/-- `RC.DECODE_BIT` where the stream ends first (R90): IN_UNDERRUN, every byte consumed, nothing adapted. -/
theorem rcDecodeBit_underrun {s : State} (hc : IntervalOk s.coder) {p : Nat} (h1 : 1 ≤ p) (h2 : p ≤ 4095) {bit : Bool}
    (hb : decidedBit s.coder (splitWidth s.coder.range p) = bit)
    (hl : (unread s).length < (spilled 2 (narrowed bit (splitWidth s.coder.range p) s.coder)).length) :
    ∃ c, rcDecodeBit p s = .raised .inUnderrun { s with coder := c, cinPos := s.cinPos + (unread s).length } := by
  have hn := narrowed_split hc h1 h2 bit
  have h0 : (narrowed bit (splitWidth s.coder.range p) s.coder).range ≠ 0 := by
    intro h; rw [h] at hn; simp at hn
  obtain ⟨c, hr⟩ := renormDec_underrun 2 { s with coder := narrowed bit (splitWidth s.coder.range p) s.coder } hl
  refine ⟨c, ?_⟩
  rw [rcDecodeBit, rcSplit_legal h1 h2, bind_ok]
  simp only [hb]
  rw [rcNarrow_of_ne h0, bind_ok, show renormBound = 2 from rfl, hr]
  rfl

end Sys2Proof.Machine
end

