-- ==== Sys2Proof/Laws/Loop.lean ====
section
/-! SUPPORT. The laws of the bit step and of the byte: what one `BIT_STEP` and one `CODE_BYTE` can do, said once. -/

namespace Sys2Proof.Machine

/-! ### The adapts write their tables and nothing else -/

section
variable (b : Bool) (s : State)

@[simp] theorem o0Adapt_mode : (o0Adapt b s).mode = s.mode := rfl
@[simp] theorem o0Adapt_fault : (o0Adapt b s).fault = s.fault := rfl
@[simp] theorem o0Adapt_eos : (o0Adapt b s).eos = s.eos := rfl
@[simp] theorem o0Adapt_node : (o0Adapt b s).node = s.node := rfl
@[simp] theorem o0Adapt_coder : (o0Adapt b s).coder = s.coder := rfl
@[simp] theorem o0Adapt_hist : (o0Adapt b s).hist = s.hist := rfl
@[simp] theorem o0Adapt_mixer : (o0Adapt b s).mixer = s.mixer := rfl
@[simp] theorem o0Adapt_cout : (o0Adapt b s).cout = s.cout := rfl
@[simp] theorem o0Adapt_cin : (o0Adapt b s).cin = s.cin := rfl
@[simp] theorem o0Adapt_cinPos : (o0Adapt b s).cinPos = s.cinPos := rfl
@[simp] theorem o0Adapt_inputs : (o0Adapt b s).inputs = s.inputs := rfl
@[simp] theorem o0Adapt_rsps : (o0Adapt b s).rsps = s.rsps := rfl
@[simp] theorem o0Adapt_free : (o0Adapt b s).free = s.free := rfl

@[simp] theorem o1Adapt_mode : (o1Adapt b s).mode = s.mode := by unfold o1Adapt; split <;> rfl
@[simp] theorem o1Adapt_fault : (o1Adapt b s).fault = s.fault := by unfold o1Adapt; split <;> rfl
@[simp] theorem o1Adapt_eos : (o1Adapt b s).eos = s.eos := by unfold o1Adapt; split <;> rfl
@[simp] theorem o1Adapt_node : (o1Adapt b s).node = s.node := by unfold o1Adapt; split <;> rfl
@[simp] theorem o1Adapt_coder : (o1Adapt b s).coder = s.coder := by unfold o1Adapt; split <;> rfl
@[simp] theorem o1Adapt_hist : (o1Adapt b s).hist = s.hist := by unfold o1Adapt; split <;> rfl
@[simp] theorem o1Adapt_mixer : (o1Adapt b s).mixer = s.mixer := by unfold o1Adapt; split <;> rfl
@[simp] theorem o1Adapt_cout : (o1Adapt b s).cout = s.cout := by unfold o1Adapt; split <;> rfl
@[simp] theorem o1Adapt_cin : (o1Adapt b s).cin = s.cin := by unfold o1Adapt; split <;> rfl
@[simp] theorem o1Adapt_cinPos : (o1Adapt b s).cinPos = s.cinPos := by unfold o1Adapt; split <;> rfl
@[simp] theorem o1Adapt_inputs : (o1Adapt b s).inputs = s.inputs := by unfold o1Adapt; split <;> rfl
@[simp] theorem o1Adapt_rsps : (o1Adapt b s).rsps = s.rsps := by unfold o1Adapt; split <;> rfl
@[simp] theorem o1Adapt_free : (o1Adapt b s).free = s.free := by unfold o1Adapt; split <;> rfl

@[simp] theorem hxAdapt_mode : (hxAdapt b s).mode = s.mode := by unfold hxAdapt; split <;> rfl
@[simp] theorem hxAdapt_fault : (hxAdapt b s).fault = s.fault := by unfold hxAdapt; split <;> rfl
@[simp] theorem hxAdapt_eos : (hxAdapt b s).eos = s.eos := by unfold hxAdapt; split <;> rfl
@[simp] theorem hxAdapt_node : (hxAdapt b s).node = s.node := by unfold hxAdapt; split <;> rfl
@[simp] theorem hxAdapt_coder : (hxAdapt b s).coder = s.coder := by unfold hxAdapt; split <;> rfl
@[simp] theorem hxAdapt_hist : (hxAdapt b s).hist = s.hist := by unfold hxAdapt; split <;> rfl
@[simp] theorem hxAdapt_mixer : (hxAdapt b s).mixer = s.mixer := by unfold hxAdapt; split <;> rfl
@[simp] theorem hxAdapt_cout : (hxAdapt b s).cout = s.cout := by unfold hxAdapt; split <;> rfl
@[simp] theorem hxAdapt_cin : (hxAdapt b s).cin = s.cin := by unfold hxAdapt; split <;> rfl
@[simp] theorem hxAdapt_cinPos : (hxAdapt b s).cinPos = s.cinPos := by unfold hxAdapt; split <;> rfl
@[simp] theorem hxAdapt_inputs : (hxAdapt b s).inputs = s.inputs := by unfold hxAdapt; split <;> rfl
@[simp] theorem hxAdapt_rsps : (hxAdapt b s).rsps = s.rsps := by unfold hxAdapt; split <;> rfl
@[simp] theorem hxAdapt_free : (hxAdapt b s).free = s.free := by unfold hxAdapt; split <;> rfl

@[simp] theorem adaptModels_mode : (adaptModels b s).mode = s.mode := by simp [adaptModels]
@[simp] theorem adaptModels_fault : (adaptModels b s).fault = s.fault := by simp [adaptModels]
@[simp] theorem adaptModels_eos : (adaptModels b s).eos = s.eos := by simp [adaptModels]
@[simp] theorem adaptModels_node : (adaptModels b s).node = s.node := by simp [adaptModels]
@[simp] theorem adaptModels_coder : (adaptModels b s).coder = s.coder := by simp [adaptModels]
@[simp] theorem adaptModels_hist : (adaptModels b s).hist = s.hist := by simp [adaptModels]
@[simp] theorem adaptModels_mixer : (adaptModels b s).mixer = s.mixer := by simp [adaptModels]
@[simp] theorem adaptModels_cout : (adaptModels b s).cout = s.cout := by simp [adaptModels]
@[simp] theorem adaptModels_cin : (adaptModels b s).cin = s.cin := by simp [adaptModels]
@[simp] theorem adaptModels_cinPos : (adaptModels b s).cinPos = s.cinPos := by simp [adaptModels]
@[simp] theorem adaptModels_inputs : (adaptModels b s).inputs = s.inputs := by simp [adaptModels]
@[simp] theorem adaptModels_rsps : (adaptModels b s).rsps = s.rsps := by simp [adaptModels]
@[simp] theorem adaptModels_free : (adaptModels b s).free = s.free := by simp [adaptModels]

end

/-! The adapts depend on `node`, the history and the tables only (R103, R105, R111). -/

section
variable (b : Bool) {s t : State} (hn : s.node = t.node) (hh : s.hist = t.hist) (hm : s.mem = t.mem)
include hn hm

theorem o0Adapt_mem_congr : (o0Adapt b s).mem = (o0Adapt b t).mem := by
  simp only [o0Adapt, readO0, writeO0, hn, hm]

include hh

theorem o1Adapt_mem_congr : (o1Adapt b s).mem = (o1Adapt b t).mem := by
  have ha : o1Active s = o1Active t := by simp only [o1Active, hh]
  simp only [o1Adapt, readO1, ha, hn, hh, hm]
  split
  · simp only [writeO1, hm]
  · exact hm

theorem hxAdapt_mem_congr : (hxAdapt b s).mem = (hxAdapt b t).mem := by
  have ha : hxActive s = hxActive t := by simp only [hxActive, hh]
  simp only [hxAdapt, readHx, ha, hn, hh, hm]
  split
  · simp only [writeHx, hm]
  · exact hm

theorem adaptModels_mem_congr : (adaptModels b s).mem = (adaptModels b t).mem := by
  apply hxAdapt_mem_congr b (by simpa using hn) (by simpa using hh)
  apply o1Adapt_mem_congr b (by simpa using hn) (by simpa using hh)
  exact o0Adapt_mem_congr b hn hm

end

/-- The counters stay legal under the adapts (R79). -/
theorem adaptModels_counters (b : Bool) {s : State} (hw : s.mem.wf = true) (h : CountersLegal s) :
    CountersLegal (adaptModels b s) := by
  have h0 : CountersLegal (o0Adapt b s) := fun i => by
    refine ⟨?_, (h i).2⟩
    by_cases hi : i = o0Index s.node
    · subst hi
      have := tabRead_tabWrite_same counterInit ((memory_wf_iff _).1 hw).1 (o0Index s.node)
        (ctrUpdate (readO0 s (o0Index s.node)) b)
      show 1 ≤ (tabRead counterInit (tabWrite _ _ _ _) _).toNat
      rw [this]; exact (ctrUpdate_legal _ _).1
    · have := tabRead_tabWrite_other counterInit s.mem.o0 (ctrUpdate (readO0 s (o0Index s.node)) b) hi
      show 1 ≤ (tabRead counterInit (tabWrite _ _ _ _) _).toNat
      rw [this]; exact (h i).1
  have hw0 := o0Adapt_memory_wf hw b
  have h1 : CountersLegal (o1Adapt b (o0Adapt b s)) := by
    unfold o1Adapt; split
    · generalize o0Adapt b s = u at h0 hw0
      intro i
      refine ⟨(h0 i).1, ?_⟩
      by_cases hi : i = o1Index u.hist.c1 u.node
      · subst hi
        have := tabRead_tabWrite_same counterInit ((memory_wf_iff _).1 hw0).2.1 (o1Index u.hist.c1 u.node)
          (ctrUpdate (readO1 u (o1Index u.hist.c1 u.node)) b)
        show 1 ≤ (tabRead counterInit (tabWrite _ _ _ _) _).toNat
        rw [this]; exact (ctrUpdate_legal _ _).1
      · have := tabRead_tabWrite_other counterInit u.mem.o1 (ctrUpdate (readO1 u (o1Index u.hist.c1 u.node)) b) hi
        show 1 ≤ (tabRead counterInit (tabWrite _ _ _ _) _).toNat
        rw [this]; exact (h0 i).2
    · exact h0
  unfold adaptModels hxAdapt; split
  · exact h1
  · exact h1

/-! What adapt-all does to a read of each table (R103, R105, R111). -/

section
variable {s : State} (h : s.mem.wf = true) (b : Bool)
include h

/-- The node's order-0 counter learns the bit; every other one is as before. -/
theorem adaptModels_readO0 :
    readO0 (adaptModels b s) (o0Index s.node) = ctrUpdate (readO0 s (o0Index s.node)) b ∧
    ∀ a, a ≠ o0Index s.node → readO0 (adaptModels b s) a = readO0 s a := by
  have e : ∀ a, readO0 (adaptModels b s) a = readO0 (o0Adapt b s) a := by
    intro a; unfold readO0 adaptModels hxAdapt o1Adapt
    split <;> split <;> rfl
  simp only [e]
  exact ⟨tabRead_tabWrite_same counterInit ((memory_wf_iff _).1 h).1 _ _,
    fun a ha => tabRead_tabWrite_other counterInit _ _ ha⟩

/-- The order-1 counter of `{c1, node}` learns the bit if its model is active; every other one is as before. -/
theorem adaptModels_readO1 :
    (1 ≤ s.hist.nbytes.toNat → readO1 (adaptModels b s) (o1Index s.hist.c1 s.node) =
      ctrUpdate (readO1 s (o1Index s.hist.c1 s.node)) b) ∧
    ∀ a, (s.hist.nbytes.toNat < 1 ∨ a ≠ o1Index s.hist.c1 s.node) → readO1 (adaptModels b s) a = readO1 s a := by
  have e : ∀ a, readO1 (adaptModels b s) a = readO1 (o1Adapt b (o0Adapt b s)) a := by
    intro a; unfold readO1 adaptModels hxAdapt
    split <;> rfl
  simp only [e]
  refine ⟨fun hn => ?_, fun a ha => ?_⟩
  · have : o1Active (o0Adapt b s) = true := decide_eq_true hn
    rw [o1Adapt, if_pos this]
    exact tabRead_tabWrite_same counterInit ((memory_wf_iff _).1 (o0Adapt_memory_wf h b)).2.1 _ _
  · rw [o1Adapt]; split
    · rename_i hc
      have hc : 1 ≤ s.hist.nbytes.toNat := of_decide_eq_true hc
      exact tabRead_tabWrite_other counterInit _ _ (ha.resolve_left (by omega))
    · rfl

/-- The slot of the hashed context adapts if its model is active; every other one is as before. -/
theorem adaptModels_readHx :
    (4 ≤ s.hist.nbytes.toNat → readHx (adaptModels b s) (hxIndex s.hist.acc s.node) =
      slotAdapt (readHx s (hxIndex s.hist.acc s.node)) (hxKey s.hist.acc s.node) b) ∧
    ∀ a, (s.hist.nbytes.toNat < 4 ∨ a ≠ hxIndex s.hist.acc s.node) → readHx (adaptModels b s) a = readHx s a := by
  have hw := o1Adapt_memory_wf (o0Adapt_memory_wf h b) b
  have e : ∀ a, readHx (o1Adapt b (o0Adapt b s)) a = readHx s a := by
    intro a; unfold o1Adapt; split <;> rfl
  refine ⟨fun hn => ?_, fun a ha => ?_⟩
  · have : hxActive (o1Adapt b (o0Adapt b s)) = true := by simp [hxActive]; omega
    rw [adaptModels, hxAdapt, if_pos this]
    simp only [o1Adapt_hist, o1Adapt_node, o0Adapt_hist, o0Adapt_node, e]
    exact tabRead_tabWrite_same slotInit ((memory_wf_iff _).1 hw).2.2 _ _
  · rw [adaptModels, hxAdapt]; split
    · rename_i hc
      simp [hxActive] at hc
      rw [← e a]
      simp only [o1Adapt_hist, o1Adapt_node, o0Adapt_hist, o0Adapt_node]
      exact tabRead_tabWrite_other slotInit _ _ (ha.resolve_left (by omega))
    · exact e a

end

/-! ### The bit step, whole -/

/-- The mixer with the three predictions of a state latched (R122). -/
def latched (s : State) : Mixer :=
  { s.mixer with st0 := o0Predict s, st1 := o1Predict s, st2 := hxPredict s, nadd := 3 }

/-- The probability of the next bit (R115, R123). -/
def bitProb (s : State) : Prob := mxOutput (latched s)

/-- The state after predict-all and mix. -/
def mixed (s : State) : State := { s with mixer := { latched s with pr := bitProb s } }

/-- The interval of the next bit's value, before renormalisation. -/
def bitInterval (b : Bool) (s : State) : Coder := narrowed b (splitWidth s.coder.range (bitProb s).toNat) s.coder

/-- Adapt-all and the node's advance. -/
def bitEnd (b : Bool) (s : State) : State := nodeAdvance b { adaptModels b s with mixer := mxLearned b s.mixer }

/-- The node after a bit (R131). -/
def advanced (node : BitVec 8) (b : Bool) : BitVec 8 :=
  if (nextNode node b).toNat < 256 then (nextNode node b).setWidth 8 else 1

theorem nodeAdvance_node (b : Bool) (s : State) : (nodeAdvance b s).node = advanced s.node b := by
  simp [nodeAdvance, advanced]

section
variable (b : Bool) (s : State)

@[simp] theorem bitEnd_node : (bitEnd b s).node = advanced s.node b := by simp [bitEnd, nodeAdvance_node]
@[simp] theorem bitEnd_mem : (bitEnd b s).mem = (adaptModels b s).mem := rfl
@[simp] theorem bitEnd_mixer : (bitEnd b s).mixer = mxLearned b s.mixer := rfl
@[simp] theorem bitEnd_mode : (bitEnd b s).mode = s.mode := by simp [bitEnd]
@[simp] theorem bitEnd_fault : (bitEnd b s).fault = s.fault := by simp [bitEnd]
@[simp] theorem bitEnd_eos : (bitEnd b s).eos = s.eos := by simp [bitEnd]
@[simp] theorem bitEnd_coder : (bitEnd b s).coder = s.coder := by simp [bitEnd]
@[simp] theorem bitEnd_hist : (bitEnd b s).hist = s.hist := by simp [bitEnd]
@[simp] theorem bitEnd_cout : (bitEnd b s).cout = s.cout := by simp [bitEnd]
@[simp] theorem bitEnd_cin : (bitEnd b s).cin = s.cin := by simp [bitEnd]
@[simp] theorem bitEnd_cinPos : (bitEnd b s).cinPos = s.cinPos := by simp [bitEnd]
@[simp] theorem bitEnd_inputs : (bitEnd b s).inputs = s.inputs := by simp [bitEnd]
@[simp] theorem bitEnd_rsps : (bitEnd b s).rsps = s.rsps := by simp [bitEnd]
@[simp] theorem bitEnd_free : (bitEnd b s).free = s.free := by simp [bitEnd]

end

/-- The probability is legal in every state (R79). -/
theorem bitProb_legal (s : State) : 1 ≤ (bitProb s).toNat ∧ (bitProb s).toNat ≤ 4095 := mxOutput_legal _

/-- Predict-all and mix, whole (R130), from a state between bit steps. -/
theorem predictMix_eq {s : State} (h : s.mixer.nadd = 0) : predictMix s = .ok (bitProb s) (mixed s) := by
  simp [predictMix, mxAdd, mxGet, h, mixed, bitProb, latched]

/-- `MX.UPDATE` after `MX.GET` (R124). -/
theorem mxUpdate_eq {s : State} (b : Bool) (h : s.mixer.nadd = 3) :
    mxUpdate b s = .ok () { s with mixer := mxLearned b s.mixer } := by
  simp [mxUpdate, h]

/-- `BIT_STEP(ENC, b)`, whole (R130): it never faults. -/
theorem bitStep_enc_eq {s : State} (h : s.mixer.nadd = 0) (hc : IntervalOk s.coder) (b : Bool) :
    bitStep .enc b s = .ok (b, nextNode s.node b)
      (bitEnd b { mixed s with
        coder := renormed 2 (bitInterval b s)
        cout := s.cout ++ spilled 2 (bitInterval b s) }) := by
  have hp := bitProb_legal s
  have he := rcEncodeBit_eq (s := mixed s) hc hp.1 hp.2 b
  rw [bitStep, predictMix_eq h, bind_ok, codeBit, he, bind_ok, bind_ok, mxUpdate_eq b (by simp [mixed, latched]), bind_ok]
  simp [bitEnd, bitInterval, mixed]

/-- The decoder's next bit. -/
def decodedBit (s : State) : Bool := decidedBit s.coder (splitWidth s.coder.range (bitProb s).toNat)

/-- `BIT_STEP(DEC)`, whole (R130), where the stream has the bytes. -/
theorem bitStep_dec_ok {s : State} (h : s.mixer.nadd = 0) (hc : IntervalOk s.coder) (bIn : Bool)
    (hl : (spilled 2 (bitInterval (decodedBit s) s)).length ≤ (unread s).length) :
    bitStep .dec bIn s = .ok (decodedBit s, nextNode s.node (decodedBit s))
      (bitEnd (decodedBit s) { mixed s with
        coder :=
          { renormed 2 (bitInterval (decodedBit s) s) with
            code := ((unread s).take (spilled 2 (bitInterval (decodedBit s) s)).length).foldl shiftInByte s.coder.code }
        cinPos := s.cinPos + (spilled 2 (bitInterval (decodedBit s) s)).length }) := by
  have hp := bitProb_legal s
  have he := rcDecodeBit_ok (s := mixed s) hc hp.1 hp.2 (bit := decodedBit s) rfl hl
  rw [bitStep, predictMix_eq h, bind_ok, codeBit, he, bind_ok, mxUpdate_eq _ (by simp [mixed, latched]), bind_ok]
  simp [bitEnd, bitInterval, mixed, unread]

/-- `BIT_STEP(DEC)` where the stream ends first (R130): the fault stops the step before any adapt. -/
theorem bitStep_dec_underrun {s : State} (h : s.mixer.nadd = 0) (hc : IntervalOk s.coder) (bIn : Bool)
    (hl : (unread s).length < (spilled 2 (bitInterval (decodedBit s) s)).length) :
    ∃ c, bitStep .dec bIn s =
      .raised .inUnderrun { mixed s with coder := c, cinPos := s.cinPos + (unread s).length } := by
  have hp := bitProb_legal s
  obtain ⟨c, he⟩ := rcDecodeBit_underrun (s := mixed s) hc hp.1 hp.2 (bit := decodedBit s) rfl hl
  refine ⟨c, ?_⟩
  rw [bitStep, predictMix_eq h, bind_ok, codeBit, he]
  rfl

/-- What holds before and after every bit step of an open stream. -/
structure BitOk (s : State) : Prop where
  /-- No input is latched (R23). -/
  no_inputs : s.mixer.nadd = 0
  /-- R93. -/
  interval : IntervalOk s.coder
  /-- R16, R18. -/
  history : HistoryOk s.hist
  /-- R79. -/
  counters : CountersLegal s
  /-- The tables are in canonical form. -/
  tables : s.mem.wf = true

/-- What no bit step and no byte of a stream changes. -/
structure Kept (s t : State) : Prop where
  /-- `mode`. -/
  mode : t.mode = s.mode
  /-- `fault`. -/
  fault : t.fault = s.fault
  /-- `eos`. -/
  eos : t.eos = s.eos
  /-- `c1`, `acc`, `nbytes`. -/
  hist : t.hist = s.hist
  /-- `cin` as supplied. -/
  cin : t.cin = s.cin
  /-- The host's inputs. -/
  inputs : t.inputs = s.inputs
  /-- The responses. -/
  rsps : t.rsps = s.rsps
  /-- The free values. -/
  free : t.free = s.free

theorem Kept.refl (s : State) : Kept s s := ⟨rfl, rfl, rfl, rfl, rfl, rfl, rfl, rfl⟩

theorem Kept.trans {s t u : State} (h : Kept s t) (g : Kept t u) : Kept s u :=
  ⟨g.1.trans h.1, g.2.trans h.2, g.3.trans h.3, g.4.trans h.4, g.5.trans h.5, g.6.trans h.6, g.7.trans h.7, g.8.trans h.8⟩

/-- What `n` completed bit steps do to the streams (R94, R132): the encoder appends at most `2 n` bytes, the decoder consumes
at most `2 n`. -/
structure Streamed (dir : Dir) (n : Nat) (s t : State) : Prop where
  /-- The encoder: `cout` grows, `cin` is not read, `code` is not written. -/
  enc : dir = .enc → (∃ bs, bs.length ≤ 2 * n ∧ t.cout = s.cout ++ bs) ∧ t.cinPos = s.cinPos ∧
    t.coder.code = s.coder.code
  /-- The decoder: `cout` is not written, `cin` is read in order. -/
  dec : dir = .dec → t.cout = s.cout ∧ ∃ k, k ≤ 2 * n ∧ k ≤ (unread s).length ∧ t.cinPos = s.cinPos + k

theorem unread_length (s : State) : (unread s).length = s.cin.length - s.cinPos := by simp [unread]

theorem Streamed.trans {dir : Dir} {m n : Nat} {s t u : State} (hk : Kept s t) (h : Streamed dir m s t)
    (g : Streamed dir n t u) : Streamed dir (n + m) s u := by
  refine ⟨fun hd => ?_, fun hd => ?_⟩
  · obtain ⟨⟨a, ha, ha'⟩, hp, hc⟩ := h.enc hd
    obtain ⟨⟨b, hb, hb'⟩, gp, gc⟩ := g.enc hd
    exact ⟨⟨a ++ b, by simp only [List.length_append]; omega, by rw [hb', ha', List.append_assoc]⟩, gp.trans hp, gc.trans hc⟩
  · obtain ⟨hc, a, ha, ha', hp⟩ := h.dec hd
    obtain ⟨gc, b, hb, hb', gp⟩ := g.dec hd
    rw [unread_length] at *
    rw [hk.cin, hp] at hb'
    exact ⟨gc.trans hc, a + b, by omega, by omega, by rw [gp, hp]; omega⟩

theorem bitEnd_ok {b : Bool} {s : State} (hc : IntervalOk s.coder) (hh : HistoryOk s.hist) (hk : CountersLegal s)
    (hm : s.mem.wf = true) : BitOk (bitEnd b s) :=
  ⟨rfl, by simpa using hc, by simpa using hh, adaptModels_counters b hm hk, adaptModels_memory_wf hm b⟩

theorem nextNode_toNat (node : BitVec 8) (b : Bool) : (nextNode node b).toNat = 2 * node.toNat + b.toNat := by
  rw [nextNode, BitVec.toNat_append, Nat.shiftLeft_eq, Nat.mul_comm, ← Nat.two_pow_add_eq_or_of_lt (BitVec.isLt _)]
  cases b <;> simp

/-- THE BIT STEP, said once: it completes, or (decoding) it raises IN_UNDERRUN, with fewer than two bytes unread, `cin` exhausted and no table written. -/
theorem bitStep_cases (dir : Dir) (bIn : Bool) {s : State} (h : BitOk s) :
    (∃ b t, bitStep dir bIn s = .ok (b, nextNode s.node b) t ∧ BitOk t ∧ Kept s t ∧ Streamed dir 1 s t ∧
      t.node = advanced s.node b ∧ (dir = .enc → b = bIn)) ∨
    (dir = .dec ∧ (unread s).length < 2 ∧ ∃ t, bitStep dir bIn s = .raised .inUnderrun t ∧ Kept s t ∧ t.mem = s.mem ∧
      t.cout = s.cout ∧ t.cinPos = s.cinPos + (unread s).length) := by
  cases dir with
  | enc =>
    have hp := bitProb_legal s
    have hn := narrowed_split h.interval hp.1 hp.2 bIn
    refine .inl ⟨bIn, _, bitStep_enc_eq h.no_inputs h.interval bIn, ?_, ?_, ?_, ?_, fun _ => rfl⟩
    · exact bitEnd_ok (renormed_ok (by exact le_trans (by norm_num) hn.1) hn.2.2) h.history h.counters h.tables
    · constructor <;> simp [mixed]
    · refine ⟨fun _ => ⟨⟨spilled 2 (bitInterval bIn s), ?_, ?_⟩, ?_, ?_⟩, fun h => by cases h⟩
      · exact spilled_length _ _
      · simp
      · simp [mixed]
      · simp [bitInterval]
    · simp [mixed]
  | dec =>
    have hp := bitProb_legal s
    have hn := narrowed_split h.interval hp.1 hp.2 (decodedBit s)
    by_cases hl : (spilled 2 (bitInterval (decodedBit s) s)).length ≤ (unread s).length
    · refine .inl ⟨_, _, bitStep_dec_ok h.no_inputs h.interval bIn hl, ?_, ?_, ?_, ?_, fun h => by cases h⟩
      · have := renormed_ok (c := bitInterval (decodedBit s) s) (by exact le_trans (by norm_num) hn.1) hn.2.2
        exact bitEnd_ok ⟨this.1, this.2⟩ h.history h.counters h.tables
      · constructor <;> simp [mixed]
      · refine ⟨fun h => by (cases h), fun _ => ⟨?_, _, spilled_length _ _, hl, ?_⟩⟩ <;> simp [mixed]
      · simp [mixed]
    · obtain ⟨c, hc⟩ := bitStep_dec_underrun h.no_inputs h.interval bIn (Nat.lt_of_not_le hl)
      have h2 : (spilled 2 (bitInterval (decodedBit s) s)).length ≤ 2 := spilled_length _ _
      refine .inr ⟨rfl, by omega, _, hc, ?_, ?_, ?_, ?_⟩
      · constructor <;> simp [mixed]
      all_goals simp [mixed]

/-- The value of `node` before the last `n` bits of a byte (R15): the bits so far, with a leading 1. -/
def NodeAt (n : Nat) (node : BitVec 8) : Prop := 2 ^ (8 - n) ≤ node.toNat ∧ node.toNat < 2 ^ (9 - n)

theorem nodeAt_advance {n : Nat} (hn : 1 ≤ n) (h8 : n < 8) {node : BitVec 8} (h : NodeAt (n + 1) node) (b : Bool) :
    NodeAt n (advanced node b) ∧ (advanced node b).toNat = 2 * node.toNat + b.toNat := by
  have ht := nextNode_toNat node b
  have hb : b.toNat ≤ 1 := Bool.toNat_le b
  have e1 : 2 ^ (9 - n) = 2 * 2 ^ (9 - (n + 1)) := by rw [← pow_succ']; congr 1; omega
  have e2 : 2 ^ (8 - n) = 2 * 2 ^ (8 - (n + 1)) := by rw [← pow_succ']; congr 1; omega
  have e3 : 2 ^ (9 - n) ≤ 2 ^ 8 := Nat.pow_le_pow_right (by norm_num) (by omega)
  obtain ⟨h1, h2⟩ := h
  have hlt : (nextNode node b).toNat < 256 := by rw [ht]; omega
  have hv : (advanced node b).toNat = 2 * node.toNat + b.toNat := by
    rw [advanced, if_pos hlt, BitVec.toNat_setWidth, ht]; omega
  exact ⟨⟨by rw [hv]; omega, by rw [hv]; omega⟩, hv⟩

theorem advanced_last {node : BitVec 8} (h : NodeAt 1 node) (b : Bool) :
    advanced node b = 1 ∧ (nextNode node b).toNat = 2 * node.toNat + b.toNat ∧ 256 ≤ (nextNode node b).toNat := by
  have ht := nextNode_toNat node b
  obtain ⟨h1, h2⟩ := h
  norm_num at h1 h2
  refine ⟨?_, ht, by omega⟩
  rw [advanced, if_neg (by omega)]

/-- THE BITS OF A BYTE, said once (R132): from the node of position `n`, `n ≥ 1` bit steps complete with the node back at 1, or
(decoding) raise IN_UNDERRUN with `cin` exhausted. -/
theorem codeBits_cases (dir : Dir) (c : Byte) (n : Nat) (n9 : BitVec 9) {s : State} (h : BitOk s) (h1 : 1 ≤ n) (h8 : n ≤ 8)
    (hn : NodeAt n s.node) :
    (∃ r t, codeBits dir c n n9 s = .ok r t ∧ BitOk t ∧ Kept s t ∧ Streamed dir n s t ∧ t.node = 1 ∧ 256 ≤ r.toNat ∧
      (dir = .enc → r.toNat = s.node.toNat * 2 ^ n + c.toNat % 2 ^ n)) ∨
    (dir = .dec ∧ (unread s).length < 2 * n ∧ ∃ t, codeBits dir c n n9 s = .raised .inUnderrun t ∧ Kept s t ∧
      t.mem.wf = true ∧ t.cout = s.cout ∧ t.cinPos = s.cinPos + (unread s).length) := by
  induction n generalizing s n9 with
  | zero => omega
  | succ n ih =>
    rcases bitStep_cases dir (operandBit c n) h with ⟨b, t, hb, hok, hk, hs, hnode, henc⟩ | ⟨hd, hu2, t, hb, hk, hm, hc, hp⟩
    · have hbit : dir = .enc → b.toNat = c.toNat / 2 ^ n % 2 := fun hd => by
        rw [henc hd, operandBit, BitVec.getLsbD, Nat.toNat_testBit]
      have hcmod : c.toNat % 2 ^ (n + 1) = (c.toNat / 2 ^ n % 2) * 2 ^ n + c.toNat % 2 ^ n := by
        rw [Nat.mod_pow_succ]; ring
      rcases Nat.eq_zero_or_pos n with rfl | hpos
      · have hl := advanced_last hn b
        refine .inl ⟨nextNode s.node b, t, ?_, hok, hk, by simpa using hs, by rw [hnode]; exact hl.1, hl.2.2, fun hd => ?_⟩
        · simp [codeBits, hb]
        · have := hbit hd
          rw [hl.2.1]; simp at this ⊢; omega
      · have ha := nodeAt_advance hpos (by omega) hn b
        rw [← hnode] at ha
        have hu : codeBits dir c (n + 1) n9 s = codeBits dir c n (nextNode s.node b) t := by
          rw [codeBits, hb, bind_ok]
        rw [hu]
        rcases ih (nextNode s.node b) hok hpos (by omega) ha.1 with
          ⟨r, u, hr, rok, rk, rs, rn, r256, rv⟩ | ⟨hd, hu2, u, hr, rk, rm, rc, rp⟩
        · refine .inl ⟨r, u, hr, rok, hk.trans rk, hs.trans hk rs, rn, r256, fun hd => ?_⟩
          rw [rv hd, ha.2, hbit hd, hcmod, pow_succ]; ring
        · refine .inr ⟨hd, ?_, u, hr, hk.trans rk, rm, ?_, ?_⟩
          · obtain ⟨-, k, hk2, -, hkp⟩ := hs.dec hd
            rw [unread_length] at *
            rw [hk.cin, hkp] at hu2; omega
          · rw [rc]; exact (hs.dec hd).1
          · obtain ⟨-, k, -, hkl, hkp⟩ := hs.dec hd
            rw [unread_length] at *
            rw [rp, hk.cin, hkp]; omega
    · refine .inr ⟨hd, by omega, t, ?_, hk, by rw [hm]; exact h.tables, hc, hp⟩
      rw [codeBits, hb, bind_raised]

/-- THE BYTE, said once (R132): `CODE_BYTE` from a byte boundary. Encoding returns the operand. -/
theorem codeByte_cases (dir : Dir) (c : Byte) {s : State} (h : BitOk s) (hn : s.node = 1) :
    (∃ r t, codeByte dir c s = .ok r t ∧ BitOk t ∧ Kept s t ∧ Streamed dir 8 s t ∧ t.node = 1 ∧ (dir = .enc → r = c)) ∨
    (dir = .dec ∧ (unread s).length < 16 ∧ ∃ t, codeByte dir c s = .raised .inUnderrun t ∧ Kept s t ∧ t.mem.wf = true ∧
      t.cout = s.cout ∧ t.cinPos = s.cinPos + (unread s).length) := by
  have hna : NodeAt 8 s.node := by rw [hn]; exact ⟨by decide, by decide⟩
  rcases codeBits_cases dir c 8 0 h (by norm_num) le_rfl hna with ⟨r, t, hr, hok, hk, hs, hnode, -, hv⟩ | ⟨hd, hl, t, hr, h'⟩
  · refine .inl ⟨r.setWidth 8, t, by rw [codeByte, hr, bind_ok], hok, hk, hs, hnode, fun hd => ?_⟩
    have := hv hd
    rw [hn] at this
    apply BitVec.eq_of_toNat_eq
    rw [BitVec.toNat_setWidth, this]
    have := c.isLt
    simp; omega
  · exact .inr ⟨hd, hl, t, by rw [codeByte, hr, bind_raised], h'⟩

end Sys2Proof.Machine
end

