-- ==== Sys2Proof/Laws/Commands.lean ====
section
/-! SUPPORT. The laws of the commands' common part and of the procedures they run, said once each. -/

namespace Sys2Proof.Machine

/-! ### The common part of a command (R134) -/

section
variable {legal : List Mode} {body : State → Result Reply} {s : State}

theorem runCommand_fault (h : s.mode = .fault) : runCommand legal body s = .next (respond Reply.none s) := by
  rw [runCommand, if_pos h]

theorem runCommand_illegal (h : s.mode ≠ .fault) (hl : s.mode ∉ legal) :
    runCommand legal body s = .next (takeFault .illegalCmd s) := by
  rw [runCommand, if_neg h, if_neg hl]

theorem runCommand_ok (h : s.mode ≠ .fault) (hl : s.mode ∈ legal) {r : Reply} {t : State} (hb : body s = .ok r t) :
    runCommand legal body s = .next (respond r t) := by
  rw [runCommand, if_neg h, if_pos hl, hb]

theorem runCommand_raised (h : s.mode ≠ .fault) (hl : s.mode ∈ legal) {f : FaultCode} {t : State}
    (hb : body s = .raised f t) : runCommand legal body s = .next (takeFault f t) := by
  rw [runCommand, if_neg h, if_pos hl, hb]

theorem runCommand_stuck (h : s.mode ≠ .fault) (hl : s.mode ∈ legal) {r : Fault} (hb : body s = .stuck r) :
    runCommand legal body s = .fault r := by
  rw [runCommand, if_neg h, if_pos hl, hb]

/-- Everything the common part can answer with a next state. -/
theorem runCommand_next {t : State} (h : runCommand legal body s = .next t) :
    (s.mode = .fault ∧ t = respond Reply.none s) ∨
    (s.mode ≠ .fault ∧ s.mode ∉ legal ∧ t = takeFault .illegalCmd s) ∨
    (s.mode ≠ .fault ∧ s.mode ∈ legal ∧ ∃ r u, body s = .ok r u ∧ t = respond r u) ∨
    (s.mode ≠ .fault ∧ s.mode ∈ legal ∧ ∃ f u, body s = .raised f u ∧ t = takeFault f u) := by
  by_cases hf : s.mode = .fault
  · rw [runCommand_fault hf] at h; cases h; exact .inl ⟨hf, rfl⟩
  by_cases hl : s.mode ∈ legal
  · cases hb : body s with
    | ok r u => rw [runCommand_ok hf hl hb] at h; cases h; exact .inr (.inr (.inl ⟨hf, hl, r, u, rfl, rfl⟩))
    | raised f u => rw [runCommand_raised hf hl hb] at h; cases h; exact .inr (.inr (.inr ⟨hf, hl, f, u, rfl, rfl⟩))
    | stuck r => rw [runCommand_stuck hf hl hb] at h; cases h
  · rw [runCommand_illegal hf hl] at h; cases h; exact .inr (.inl ⟨hf, hl, rfl⟩)

end

/-- The procedure of each command, under the common part. -/
def commandBody : Instr → State → Result Reply
  | .nop => fun s => .ok Reply.none s
  | .startEnc => startEncBody
  | .startDec => startDecBody
  | .encByte c => encByteBody c
  | .encEnd => encEndBody
  | .decByte => decByteBody

/-- Every command is the common part over its own procedure (R134). -/
theorem exec_eq (i : Instr) (s : State) : exec i s = runCommand (legalModes i) (commandBody i) s := by
  cases i <;> rfl

/-- The response word of fault entry (R153 (5)): the code, FAULT mode, `eos` as it was. -/
theorem responseWord_fault (u : State) (f : FaultCode) :
    responseWord Reply.none { u with fault := f.code, mode := .fault } =
      (match f with
        | .illegalCmd => 0x1C00
        | .probRange => 0x2C00
        | .rangeUnderflow => 0x3C00
        | .inUnderrun => 0x4C00) + (if u.eos then 0x200 else 0) := by
  show f.code ++ (Mode.fault.code ++ (BitVec.ofBool u.eos ++ (BitVec.ofBool false ++ (0 : BitVec 8)))) = _
  generalize u.eos = e
  cases e <;> cases f <;> decide

/-- ILLEGAL_CMD writes the code and the mode, answers, and changes nothing else (R53). -/
theorem takeFault_illegalCmd (s : State) :
    takeFault .illegalCmd s =
      { s with fault := 1, mode := .fault, rsps := s.rsps ++ [if s.eos then 0x1E00 else 0x1C00] } := by
  have hw : responseWord Reply.none { s with fault := FaultCode.illegalCmd.code, mode := .fault } =
      if s.eos then 0x1E00 else 0x1C00 := by
    rw [responseWord_fault]; cases s.eos <;> decide
  rw [takeFault, respond, hw]; rfl

/-- IN_UNDERRUN writes the code and the mode, answers, and changes nothing else (R36, R153). -/
theorem takeFault_inUnderrun (s : State) :
    takeFault .inUnderrun s =
      { s with fault := 4, mode := .fault, rsps := s.rsps ++ [if s.eos then 0x4E00 else 0x4C00] } := by
  have hw : responseWord Reply.none { s with fault := FaultCode.inUnderrun.code, mode := .fault } =
      if s.eos then 0x4E00 else 0x4C00 := by
    rw [responseWord_fault]; cases s.eos <;> decide
  rw [takeFault, respond, hw]; rfl

/-! ### The history roll (R112) -/

/-- The history stays in agreement (R16, R18). -/
theorem updateContext_history (c : Byte) {s : State} : HistoryOk (updateContext c s).hist := by
  refine ⟨?_, ?_⟩
  · simp only [updateContext_hist, Config.histBytes, BitVec.toNat_ofNat]; omega
  · apply BitVec.eq_of_toNat_eq
    have := c.isLt
    simp only [updateContext_hist, BitVec.toNat_setWidth, shiftInByte_toNat]; omega

/-! ### Opening a stream (R133) -/

theorem streamInit_bitOk (dir : Dir) (s : State) : BitOk (streamInit dir s) := by
  refine ⟨by rw [streamInit_mixer]; rfl, ⟨by simp, by simp⟩, ⟨by simp, by simp⟩, fun i => ?_, streamInit_memory_wf dir s⟩
  simp [readO0, readO1, counterInit]

/-- `RC.INIT_DEC` where the stream has four bytes (R91): only `code` and the read position change. -/
theorem rcInitDec_ok {s : State} (h : 4 ≤ (unread s).length) :
    ∃ v, rcInitDec s = .ok () { s with coder := { s.coder with code := v }, cinPos := s.cinPos + 4 } := by
  have key : ∀ n (s : State), n ≤ (unread s).length →
      ∃ v, rcInitDecLoop n s = .ok () { s with coder := { s.coder with code := v }, cinPos := s.cinPos + n } := by
    intro n
    induction n with
    | zero => exact fun s _ => ⟨s.coder.code, rfl⟩
    | succ n ih =>
      intro s h
      obtain ⟨b, l, hl⟩ : ∃ b l, unread s = b :: l := by
        cases hu : unread s with
        | nil => rw [hu] at h; simp at h
        | cons b l => exact ⟨b, l, rfl⟩
      have hu := unread_advance s 1 { s.coder with code := shiftInByte s.coder.code b }
      obtain ⟨v, hv⟩ := ih { s with coder := { s.coder with code := shiftInByte s.coder.code b }, cinPos := s.cinPos + 1 }
        (by rw [hu, List.length_drop]; omega)
      refine ⟨v, ?_⟩
      rw [rcInitDecLoop, inByte_cons hl, bind_ok]
      refine hv.trans ?_
      simp [Nat.add_assoc, Nat.add_comm 1]
  exact key 4 s h

/-- `RC.INIT_DEC` where the stream ends first (R91): IN_UNDERRUN, every byte consumed. -/
theorem rcInitDec_underrun {s : State} (h : (unread s).length < 4) :
    ∃ v, rcInitDec s = .raised .inUnderrun
      { s with coder := { s.coder with code := v }, cinPos := s.cinPos + (unread s).length } := by
  have key : ∀ n (s : State), (unread s).length < n →
      ∃ v, rcInitDecLoop n s = .raised .inUnderrun
        { s with coder := { s.coder with code := v }, cinPos := s.cinPos + (unread s).length } := by
    intro n
    induction n with
    | zero => intro s h; omega
    | succ n ih =>
      intro s h
      cases hl : unread s with
      | nil => exact ⟨s.coder.code, by rw [rcInitDecLoop, inByte_nil hl, bind_raised]; simp⟩
      | cons b l =>
        have hu := unread_advance s 1 { s.coder with code := shiftInByte s.coder.code b }
        rw [hl] at hu h
        obtain ⟨v, hv⟩ := ih { s with coder := { s.coder with code := shiftInByte s.coder.code b }, cinPos := s.cinPos + 1 }
          (by rw [hu]; simpa using h)
        refine ⟨v, ?_⟩
        rw [rcInitDecLoop, inByte_cons hl, bind_ok]
        refine hv.trans ?_
        rw [hu]
        simp [Nat.add_assoc, Nat.add_comm 1]
  exact key 4 s h

/-! ### Closing a stream (R92) -/

/-- `RC.FLUSH`, whole: four bytes appended, `low` shifted out, nothing else changed (R92). -/
theorem rcFlush_eq (s : State) :
    rcFlush s = { s with
      coder := { s.coder with low := 0 }
      cout := s.cout ++ [topByte s.coder.low, topByte (s.coder.low <<< 8), topByte (s.coder.low <<< 8 <<< 8),
        topByte (s.coder.low <<< 8 <<< 8 <<< 8)] } := by
  have h : s.coder.low <<< 8 <<< 8 <<< 8 <<< 8 = 0 := by
    apply BitVec.eq_of_toNat_eq
    rw [shiftLeft_byte_toNat, shiftLeft_byte_toNat, shiftLeft_byte_toNat, shiftLeft_byte_toNat]
    show _ = 0
    omega
  show rcFlushLoop 4 s = _
  simp only [rcFlushLoop, outByte, h, List.append_assoc, List.cons_append, List.nil_append]

/-! ### The stream commands' procedures -/

/-- Between the commands of an open stream the bit-level conditions hold (R11, R23). -/
theorem SessionOk.bitOk {s : State} (h : SessionOk s) (hm : s.mem.wf = true) : BitOk s :=
  ⟨h.no_inputs, h.interval, h.history, h.counters, hm⟩

/-- A byte through the pipeline and into the history leaves an open stream well kept. -/
theorem sessionOk_of_byte {s : State} (c : Byte) (h : BitOk s) (hn : s.node = 1) : SessionOk (updateContext c s) :=
  ⟨hn, h.no_inputs, h.interval, updateContext_history c, h.counters⟩

/-- The shared part of ENC_BYTE and ENC_END, said once (R138, R139): it always completes. -/
theorem encodeByte_cases (c : Byte) {s : State} (h : SessionOk s) (hm : s.mem.wf = true) :
    ∃ t, encodeByte c s = .ok () (updateContext c t) ∧ codeByte .enc c s = .ok c t ∧ BitOk t ∧ Kept s t ∧
      Streamed .enc 8 s t ∧ t.node = 1 := by
  rcases codeByte_cases .enc c (h.bitOk hm) h.node_start with ⟨r, t, hr, hok, hk, hs, hn, hc⟩ | ⟨hd, -⟩
  · cases hc rfl
    exact ⟨t, by rw [encodeByte, hr, bind_ok], hr, hok, hk, hs, hn⟩
  · cases hd

/-- The procedure of DEC_BYTE, said once (R140): a byte is decoded, or IN_UNDERRUN is raised, with fewer
than 16 bytes unread and `cin` exhausted. -/
theorem decByteBody_cases {s : State} (h : SessionOk s) (hm : s.mem.wf = true) :
    (∃ c t, codeByte .dec 0 s = .ok c t ∧ decByteBody s = finishByte c (updateContext c t) ∧ BitOk t ∧ Kept s t ∧
      Streamed .dec 8 s t ∧ t.node = 1) ∨
    ((unread s).length < 16 ∧ ∃ t, decByteBody s = .raised .inUnderrun t ∧ Kept s t ∧ t.mem.wf = true ∧ t.cout = s.cout ∧
      t.cinPos = s.cinPos + (unread s).length) := by
  rcases codeByte_cases .dec 0 (h.bitOk hm) h.node_start with ⟨r, t, hr, hok, hk, hs, hn, -⟩ | ⟨-, hl, t, hr, h'⟩
  · exact .inl ⟨r, t, hr, by rw [decByteBody, hr, bind_ok], hok, hk, hs, hn⟩
  · exact .inr ⟨hl, t, by rw [decByteBody, hr, bind_raised], h'⟩

/-- The end of DEC_BYTE never faults (R140). -/
theorem finishByte_eq (c : Byte) (s : State) :
    finishByte c s = if c = 0 then .ok Reply.none { s with eos := true, mode := .idle } else .ok ⟨true, c⟩ s := rfl

/-- DEC_BYTE underruns only where the coding of its byte does (R140). -/
theorem codeByte_of_decByteBody_underrun {s u : State} (h : decByteBody s = .raised .inUnderrun u) :
    ∃ v, codeByte .dec 0 s = .raised .inUnderrun v := by
  rw [decByteBody] at h
  rcases hc : codeByte .dec 0 s with ⟨c, v⟩ | ⟨f, v⟩ | r
  · rw [hc, bind_ok, finishByte_eq] at h
    split at h <;> cases h
  · rw [hc, bind_raised] at h
    cases h
    exact ⟨_, rfl⟩
  · rw [hc] at h
    cases h

/-! ### Steps -/

/-- A pushed command is the next input, and is answered with the inputs as they were. -/
theorem step_pushCommand (w : CmdWord) (s : State) : step (pushCommand w s) = commandWord w s := rfl

/-- Everything a step can take from the host. -/
theorem step_cases (s : State) :
    (s.inputs = [] ∧ step s = .next s) ∨
    ∃ i rest, s.inputs = i :: rest ∧ step s = acceptInput i { s with inputs := rest } := by
  cases h : s.inputs with
  | nil => exact .inl ⟨rfl, by simp [step, takeInput, h]⟩
  | cons i rest => exact .inr ⟨i, rest, rfl, by simp [step, takeInput, h]⟩

end Sys2Proof.Machine
end

