-- ==== Sys2Proof/Laws/PerInstr.lean ====
section
/-! SUPPORT. A family of lemmas per instruction: the word of every command passes the form checks of R53 (a) to (c). -/

namespace Sys2Proof

/-- The word `0x3000 OR c` (R138), as a number. -/
theorem encodeWord_encByte_toNat (c : Byte) : (encodeWord (.encByte c)).toNat = 0x3000 + c.toNat := by
  rw [encodeWord, BitVec.toNat_append, Nat.shiftLeft_eq, Nat.mul_comm, ← Nat.two_pow_add_eq_or_of_lt c.isLt]
  rfl

end Sys2Proof

namespace Sys2Proof.Laws.WordForm

/-- The word of the command has a zero `rsv`, a defined `op` and no operand where none belongs. -/
abbrev Statement (i : Instr) : Prop := wordOk (encodeWord i) = true

theorem nop : Statement .nop := by decide

theorem startEnc : Statement .startEnc := by decide

theorem startDec : Statement .startDec := by decide

theorem encByte (c : Byte) : Statement (.encByte c) := by
  have hc := c.isLt
  have h1 : rsvField (encodeWord (.encByte c)) = 0 := by
    apply BitVec.eq_of_toNat_eq
    rw [rsvField, BitVec.extractLsb'_toNat, encodeWord_encByte_toNat, Nat.shiftRight_eq_div_pow]
    show _ = 0
    omega
  have h2 : opField (encodeWord (.encByte c)) = 3 := by
    apply BitVec.eq_of_toNat_eq
    rw [opField, BitVec.extractLsb'_toNat, encodeWord_encByte_toNat, Nat.shiftRight_eq_div_pow]
    show _ = 3
    omega
  simp [Statement, wordOk, rsvOk, opOk, opdOk, h1, h2]

theorem encEnd : Statement .encEnd := by decide

theorem decByte : Statement .decByte := by decide

end Sys2Proof.Laws.WordForm
end

