-- ==== Sys2Proof/Tests/Slice0.lean ====
section
/-! SUPPORT. The tests: the form checks, the decoding of every command's word, vectors of spec/95_test_vectors.md and
spec/96_worked_programs.md one step at a time, and a witness for every statement that has hypotheses. -/

namespace Sys2Proof.Tests

open Sys2Proof.Machine

/-! ### The form checks of R53 each refuse an ill-formed word -/

theorem test_rsv_refused : rsvOk 0x0100 = false ∧ rsvOk 0x3861 = false ∧ wordOk 0x0100 = false := by decide
theorem test_op_refused : opOk 0x6000 = false ∧ opOk 0xF000 = false ∧ wordOk 0x6000 = false := by decide
theorem test_opd_refused : opdOk 0x1001 = false ∧ opdOk 0x5080 = false ∧ wordOk 0x4001 = false := by decide
theorem test_form_accepted : wordOk 0x0000 = true ∧ wordOk 0x30FF = true ∧ wordOk 0x5000 = true := by decide

/-! ### Decoding: words written out from the columns `op`, `rsv`, `opd` of R50 -/

theorem test_decode_nop : decodeWord 0b0000_0000_00000000 = .ok .nop := by decide
theorem test_decode_startEnc : decodeWord 0b0001_0000_00000000 = .ok .startEnc := by decide
theorem test_decode_startDec : decodeWord 0b0010_0000_00000000 = .ok .startDec := by decide
theorem test_decode_encByte : decodeWord 0b0011_0000_01100001 = .ok (.encByte 0x61) := by decide
theorem test_decode_encEnd : decodeWord 0b0100_0000_00000000 = .ok .encEnd := by decide
theorem test_decode_decByte : decodeWord 0b0101_0000_00000000 = .ok .decByte := by decide
theorem test_decode_refused :
    decodeWord 0x0100 = .error .reservedField ∧ decodeWord 0x6000 = .error .reservedOpcode ∧
    decodeWord 0x1001 = .error .operandNotZero ∧ decodeTableWord 16 0xF000 = none := by decide

/-! ### The parameters of R4: the relations they must meet -/

theorem test_parameters :
    Config.probOne = 2 ^ Config.probBits ∧ Config.probMax = Config.probOne - 1 ∧ 2 * Config.probNeutral = Config.probOne ∧
    Config.wInit = 2 ^ Config.wFrac / 3 ∧ Config.biasIn = Config.probOne ∧ Config.hxEntries = 2 ^ Config.hashBits ∧
    Config.hxLimit = 2 ^ Config.cntBits - 1 ∧ Config.rcInitRange = 2 ^ Config.coderBits - 1 ∧
    Config.rcMinRange = 2 ^ 16 ∧ Config.rcFlushBytes = Config.rcInitBytes := by decide

/-! ### States -/

/-- A mixer right after `MX.INIT`; the latches, which the spec leaves open, at zero. -/
def openMixer : Mixer := ⟨5592405, 5592405, 5592405, 0, 0, 0, 0, 0, 0⟩

/-- An encode stream just opened. -/
def openEnc : State := { State.reset with mode := .enc, coder := ⟨0, 0xFFFFFFFF, 0⟩, mixer := openMixer }

/-- A decode stream just opened on the bytes `b0 b1 b2 b3 l`. -/
def openDec (b0 b1 b2 b3 : Byte) (l : List Byte) : State :=
  { State.reset with
    mode := .dec, coder := ⟨0, 0xFFFFFFFF, b0 ++ (b1 ++ (b2 ++ b3))⟩, mixer := openMixer
    cin := b0 :: b1 :: b2 :: b3 :: l, cinPos := 4 }

/-- The block stopped by IN_UNDERRUN. -/
def stopped : State := { State.reset with mode := .fault, fault := 4 }

/-- The state with one input of the host waiting. -/
def withInput (i : HostInput) (s : State) : State := { s with inputs := [i] }

/-- A next state with a property. -/
def nextIs (p : State → Bool) : Host.Outcome State Fault Refusal → Bool
  | .next t => p t
  | _ => false

theorem nextIs_elim {p : State → Bool} {o : Host.Outcome State Fault Refusal} (h : nextIs p o = true) :
    ∃ t, o = .next t ∧ p t = true := by
  cases o with
  | next t => exact ⟨t, rfl, h⟩
  | fault r => cases h
  | refused r => cases h

/-- One command word, answered from a state, with a property of the next state. -/
def answers (w : CmdWord) (s : State) (p : State → Bool) : Bool := nextIs p (step (withInput (.command w) s))

/-! ### One step of each command (96_worked_programs.md P1, P2, P5, P8) -/

theorem test_nop : answers 0x0000 openEnc (fun t => t.rsps == [0x0400] && t.mode == .enc) = true := by decide +kernel
theorem test_nop_in_fault : answers 0x0000 stopped (fun t => t.rsps == [0x4C00] && t.fault == 4) = true := by
  decide +kernel
theorem test_startEnc : answers 0x1000 State.reset (fun t =>
    t.rsps == [0x0400] && t.mixer.w0 == 0x00555555 && t.coder == ⟨0, 0xFFFFFFFF, 0⟩ && t.node == 1) = true := by
  decide +kernel
theorem test_startEnc_twice : answers 0x1000 openEnc (fun t => t.rsps == [0x1C00] && t.fault == 1) = true := by
  decide +kernel
theorem test_startDec : answers 0x2000 { State.reset with cin := [0x9E, 0xED, 0x4D, 0x85] } (fun t =>
    t.rsps == [0x0800] && t.coder.code == 0x9EED4D85 && t.cinPos == 4) = true := by decide +kernel
theorem test_startDec_short : answers 0x2000 { State.reset with cin := [0xFE, 0xF3] } (fun t =>
    t.rsps == [0x4C00] && t.cinPos == 2) = true := by decide +kernel
theorem test_encByte : answers 0x3061 openEnc (fun t =>
    t.rsps == [0x0400] && t.coder.low == 0x9DEF415E && t.coder.range == 0x00FF1ED9 && t.mixer.w0 == 5584255 &&
    (t.mixer.w3.toInt == -16300) && t.mem.o0 == [(1, 1920), (2, 2176), (5, 2176), (11, 1920), (22, 1920), (44, 1920),
      (88, 1920), (176, 2176)] && t.hist == ⟨0x61, 0x61, 1⟩) = true := by decide +kernel
theorem test_encByte_in_idle : answers 0x3061 State.reset (fun t => t.rsps == [0x1C00]) = true := by decide +kernel
theorem test_encEnd : answers 0x4000 openEnc (fun t =>
    t.rsps == [0x0200] && t.cout == [0xFE, 0xF3, 0xA2, 0xE1] && t.coder.low == 0 && t.coder.range == 0x010C5D1E &&
    t.mode == .idle && t.hist.nbytes == 1) = true := by decide +kernel
theorem test_decByte : answers 0x5000 (openDec 0x9E 0xED 0x4D 0x85 []) (fun t =>
    t.rsps == [0x0961] && t.mode == .dec && t.cinPos == 4 && t.coder.low == 0x9DEF415E) = true := by decide +kernel
theorem test_decByte_end : answers 0x5000 (openDec 0xFE 0xF3 0xA2 0xE1 []) (fun t =>
    t.rsps == [0x0200] && t.mode == .idle && t.coder.low == 0xFEF3A2E1) = true := by decide +kernel

/-! ### Procedures (95_test_vectors.md sections 2 to 6) -/

theorem test_floorShift : floorShift (-17) 4 = -2 ∧ floorShift (-4095) 10 = -4 ∧ floorShift (-4097) 10 = -5 ∧
    floorShift 4095 10 = 3 := by decide
theorem test_sat32 : sat32 (2147483647 + 16376) = 2147483647 ∧ sat32 (-2147483648 - 16380) = -2147483648 := by decide
theorem test_ctrUpdate : ctrUpdate 1 false = 1 ∧ ctrUpdate 1 true = 256 ∧ ctrUpdate 2049 false = 1920 ∧
    ctrUpdate 4081 true = 4081 ∧ ctrUpdate 4095 false = 3839 := by decide
theorem test_splitWidth : splitWidth 0xFFFFFFFF 4095 = 0xFFEFFFFF ∧ splitWidth 0x00FF1ED9 1998 = 0x007C722C := by decide
theorem test_shifted : (shifted ⟨0x61FFCC4B, 0xD1FF, 0⟩).range = 0x0033B500 ∧
    (shifted ⟨0x4007FEFF, 0x40, 0⟩).range = 0x4000 := by decide
theorem test_hxHash : hxHash 0x61616161 = 0x25320823 ∧ hxIndex 0x3C706167 1 = 0x61E8 ∧ hxKey 0xFFFFFFFF 255 = 0x61C8 := by
  decide
theorem test_hxProb : hxProb 0 0 = 2048 ∧ hxProb 0 1 = 4095 ∧ hxProb 128 127 = 2039 ∧ hxProb 255 0 = 1 := by decide
theorem test_slotAdapt : slotAdapt ⟨0x2532, 255, 3⟩ 0x2532 false = ⟨0x2532, 128, 1⟩ ∧
    slotAdapt ⟨0x2532, 2, 0⟩ 0x9732 false = ⟨0x9732, 1, 0⟩ ∧ slotAdapt ⟨0x2532, 255, 254⟩ 0x2532 true = ⟨0x2532, 255, 255⟩ := by
  decide
theorem test_mixer :
    mxOutput ⟨5566631, 5553663, 5548197, -92556, 2703, 2296, 4095, 3, 0⟩ = 2988 ∧
    mxLearned false ⟨5584255, 5584255, 5584255, -16300, 1920, 2048, 2048, 3, 1998⟩ =
      ⟨5580508, 5580259, 5580259, -24292, 1920, 2048, 2048, 0, 1998⟩ ∧
    (mxLearned true ⟨2147483647, 5592405, 5592405, 0, 4095, 1, 1, 3, 4095⟩).w0 = 2147483647 := by decide

/-- The increment of an input weight may reach -16377 (95_test_vectors.md section 6; log entry 11). -/
theorem test_mixer_floor : floorShift (-4095 * 4095) 10 = -16377 := by decide

/-- Sequence A of 95_test_vectors.md section 4.2. -/
def sequenceA : List (Bool × Nat) :=
  [(true, 2048), (false, 2048), (true, 4095), (false, 1), (true, 1), (false, 4095), (true, 3000), (false, 100)]

theorem test_sequenceA :
    (match encodeBits sequenceA { rcInit State.reset with cout := [] } with
      | .ok _ t => (rcFlush t).cout
      | _ => []) = [0x40, 0x07, 0xFF, 0x00, 0x24, 0xF8] := by decide +kernel

/-! ### The host's questions: a table row's word, decoded and run first after reset -/

theorem test_withFetchWord : nextIs (fun t => t.rsps == [0x0400] && t.mode == .enc)
    (step (State.reset.withFetchWord 16 0x1000)) = true := by decide +kernel

/-! ### Witnesses: the hypotheses of the statements can be met -/

theorem readO_empty {s : State} (h : s.mem = ⟨[], [], []⟩) : CountersLegal s := fun i => by
  simp [readO0, readO1, h, counterInit]

/-- A session just opened is well kept. -/
theorem openEnc_session : SessionOk openEnc :=
  ⟨rfl, rfl, ⟨by decide, by decide⟩, ⟨by decide, by decide⟩, readO_empty rfl⟩

theorem openDec_session (b0 b1 b2 b3 : Byte) (l : List Byte) : SessionOk (openDec b0 b1 b2 b3 l) :=
  ⟨rfl, rfl, ⟨show 2 ^ 16 ≤ (0xFFFFFFFF : Word).toNat by decide, show (0 : Word).toNat + (0xFFFFFFFF : Word).toNat ≤ 2 ^ 32 by
    decide⟩, ⟨show (0 : BitVec 3).toNat ≤ 4 by decide, rfl⟩, readO_empty rfl⟩

theorem openEnc_inv : StateInv openEnc :=
  ⟨by decide, by decide, by decide, by decide, fun _ => openEnc_session⟩

theorem openDec_inv (b0 b1 b2 b3 : Byte) (l : List Byte) : StateInv (openDec b0 b1 b2 b3 l) :=
  ⟨show (⟨[], [], []⟩ : Memory).wf = true by decide, iff_of_false (by simp [openDec, State.reset]) (by simp [openDec]), .inl rfl, by simp [openDec],
    fun _ => openDec_session b0 b1 b2 b3 l⟩

theorem stopped_inv : StateInv stopped :=
  ⟨by decide, by decide, by decide, by decide, fun h => by simp [StreamOpen, stopped] at h⟩

theorem reset_inv_witness : StateInv State.reset :=
  ⟨by decide, by decide, by decide, by decide, fun h => by simp [StreamOpen, State.reset] at h⟩

theorem witness_DecodeFollowsOpcodeMap : decodeWord 0x3061 = .ok (.encByte 0x61) ∧ ∃ e, decodeWord 0x6000 = .error e :=
  ⟨by decide, _, rfl⟩

theorem witness_StepRunsDecodedCommand : ∃ (s : State) (w : CmdWord) (rest : List HostInput) (i : Instr),
    s.inputs = .command w :: rest ∧ decodeWord w = .ok i ∧ i.wellFormed = true :=
  ⟨withInput (.command 0x3061) State.reset, 0x3061, [], .encByte 0x61, by decide⟩

theorem witness_IdleStepHoldsState : State.reset.inputs = [] := rfl

/-- One word for each of the four illegal forms, one legal word, one word in FAULT mode. -/
theorem witness_IllegalWordRaisesIllegalCmd :
    (State.reset.mode ≠ .fault ∧ rsvField 0x0100 ≠ 0 ∧ 6 ≤ (opField 0x6000).toNat ∧
      (opField 0x1001 ≠ 3 ∧ opdField 0x1001 ≠ 0) ∧ decodeWord 0x30FF = .ok (.encByte 0xFF) ∧
      State.reset.mode ∉ legalModes (.encByte 0xFF)) ∧
    (openEnc.mode ≠ .fault ∧ rsvField 0x30FF = 0 ∧ (opField 0x30FF).toNat < 6 ∧ opField 0x30FF = 3 ∧
      openEnc.mode ∈ legalModes (.encByte 0xFF)) ∧
    stopped.mode = .fault ∧ ∀ w s, (withInput (.command w) s).inputs = .command w :: [] :=
  ⟨by decide, by decide, rfl, fun _ _ => rfl⟩

theorem witness_WrongModeRaisesIllegalCmd :
    State.reset.mode ≠ .fault ∧ State.reset.mode ∉ ([.enc] : List Mode) ∧ State.reset.mode ∉ ([.dec] : List Mode) ∧
    openEnc.mode ≠ .fault ∧ openEnc.mode ∉ ([.idle] : List Mode) := by decide

theorem witness_FaultModeAnswersStatus : ∃ (s : State) (w : CmdWord) (rest : List HostInput),
    s.mode = .fault ∧ s.inputs = .command w :: rest := ⟨withInput (.command 0x6000) stopped, 0x6000, [], by decide⟩

/-- Both ends of the statement: a command and a RESET pulse in FAULT mode. -/
theorem witness_OnlyResetLeavesFault : stopped.mode = .fault ∧
    (∃ t, step (withInput (.command 0x1000) stopped) = .next t) ∧ ∃ t, step (withInput .reset stopped) = .next t :=
  ⟨rfl, ⟨_, rfl⟩, _, rfl⟩

theorem witness_ResetDefines : ∃ (s : State) (rest : List HostInput), s.inputs = .reset :: rest :=
  ⟨withInput .reset stopped, [], rfl⟩

theorem witness_SupplyGivesWholeStream : ∃ (s d : State) (stream : List Byte) (rest : List HostInput),
    s.inputs = .supply stream :: rest ∧ s.mode ≠ .dec ∧ d.inputs = .supply stream :: rest ∧ d.mode = .dec :=
  ⟨withInput (.supply [0xFE]) State.reset, withInput (.supply [0xFE]) (openDec 0 0 0 0 []), [0xFE], [], by decide⟩

theorem witness_FaultEntryWrites : ∀ f : FaultCode, ∃ (legal : List Mode) (body : State → Result Reply) (s u : State),
    s.mode ≠ .fault ∧ s.mode ∈ legal ∧ body s = .raised f u :=
  fun f => ⟨[.enc], fun s => .raised f s, openEnc, openEnc, by decide, by decide, rfl⟩

theorem witness_CounterUpdateLaw : 1 ≤ (1 : Prob).toNat ∧ 1 ≤ (4095 : Prob).toNat := by decide

theorem witness_PredictionsLegal : CountersLegal openEnc ∧ ∃ p t, predictMix openEnc = .ok p t :=
  ⟨readO_empty rfl, _, _, predictMix_eq rfl⟩

theorem witness_Order0PredictAdapt : openEnc.mem.wf = true := by decide

/-- A state with `n` bytes of history. -/
def withHistory (n : BitVec 3) : State := { openEnc with hist := ⟨0x61, 0x61616161, n⟩ }

theorem witness_Order1PredictAdapt : (withHistory 0).mem.wf = true ∧ (withHistory 0).hist.nbytes.toNat < 1 ∧
    (withHistory 1).mem.wf = true ∧ 1 ≤ (withHistory 1).hist.nbytes.toNat := by decide

theorem witness_CountsGiveProbability : (0 : BitVec 8).toNat + (0 : BitVec 8).toNat = 0 ∧
    (0 : BitVec 8).toNat + (1 : BitVec 8).toNat ≠ 0 := by decide

/-- The three clauses: no halving at 255, halving at 256, another key. -/
theorem witness_SlotAdaptLaw :
    ((254 : BitVec 8).toNat + (1 - false.toNat) ≤ 255 ∧ (255 : BitVec 8).toNat + false.toNat ≤ 255) ∧
    255 < (255 : BitVec 8).toNat + (1 - false.toNat) ∧ (0x2532 : BitVec 16) ≠ 0x9732 := by decide

theorem witness_HashedPredictAdapt : (withHistory 3).mem.wf = true ∧ (withHistory 3).hist.nbytes.toNat < 4 ∧
    4 ≤ (withHistory 4).hist.nbytes.toNat ∧
    (readHx (withHistory 4) (hxIndex 0x61616161 1)).key ≠ hxKey 0x61616161 1 ∧
    (readHx { withHistory 4 with hist := ⟨0, 0, 4⟩ } (hxIndex 0 1)).key = hxKey 0 1 := by decide

/-- "aaaa" and "nssa" collide (95_test_vectors.md section 5.1, property T5). -/
theorem witness_CollisionEvicts : (withHistory 4).mem.wf = true ∧ 4 ≤ (withHistory 4).hist.nbytes.toNat ∧
    hxIndex 0x6E737361 1 = hxIndex (withHistory 4).hist.acc (withHistory 4).node ∧
    hxKey 0x6E737361 1 ≠ hxKey (withHistory 4).hist.acc (withHistory 4).node := by decide

/-- A state with `n` mixer inputs latched. -/
def withInputs (n : BitVec 2) : State := { openEnc with mixer := { openMixer with st0 := 2048, pr := 2048, nadd := n } }

theorem witness_MixerAddLatches :
    (withInputs 0).mixer.nadd = 0 ∧ (withInputs 1).mixer.nadd = 1 ∧ (withInputs 2).mixer.nadd = 2 := by decide

theorem witness_MixerGetLaw_MixerUpdateLaw : (withInputs 3).mixer.nadd = 3 := by decide

theorem witness_MixerOutsideContractStops : (withInputs 3).mixer.nadd = 3 ∧ (withInputs 2).mixer.nadd ≠ 3 ∧
    (withInputs 1).mode = .enc ∧ (withInputs 1).mixer.nadd ≠ 0 := by decide

/-- An interval at the lower bound of I1 and the upper bound of I2. -/
def tightCoder : Coder := ⟨0xFFFF0000, 0x10000, 0⟩

theorem witness_SplitLaw : ((0 : Nat) < 1 ∧ (4096 : Nat) > 4095) ∧ ((1 : Nat) ≤ 1 ∧ (4095 : Nat) ≤ 4095) ∧
    2 ^ 16 ≤ tightCoder.range.toNat := by decide

/-- The boundary: an `r1` below `range`, equal to it, and zero; both ways to an empty interval. -/
theorem witness_NarrowLaw : tightCoder.low.toNat + tightCoder.range.toNat ≤ 2 ^ 32 ∧
    (0xFFFF : Word).toNat < tightCoder.range.toNat ∧ (0x10000 : Word).toNat ≤ tightCoder.range.toNat ∧
    (narrowed false 0x10000 tightCoder).range = 0 ∧ (narrowed true 0 tightCoder).range = 0 := by decide

theorem witness_ShiftLaw : (0xFFFF : Word).toNat < 2 ^ 16 ∧ (0 : Word) <<< 8 = 0 ∧ (1 : Nat) ≤ (1 : Word).toNat ∧
    (0xFFFF1D00 : Word).toNat + (0xE300 : Word).toNat = 2 ^ 32 ∧ (0xE300 : Word).toNat < 2 ^ 16 := by decide

/-- The worked example of R89 and R90: two turns of the loop, whichever way. -/
def workedBit (cin : List Byte) : State := { State.reset with coder := ⟨0x4003FFBF, 0x0003FF80, 0x4007FF00⟩, cin := cin }

theorem test_encodeBit : (match rcEncodeBit false 4095 (workedBit []) with
    | .ok _ t => t.coder == ⟨0xFEFF0000, 0x00400000, 0x4007FF00⟩ && t.cout == [0x40, 0x07]
    | _ => false) = true := by decide +kernel

theorem test_decodeBit : (match rcDecodeBit 4095 (workedBit [0x24, 0xF8]) with
    | .ok b t => !b && t.coder == ⟨0xFEFF0000, 0x00400000, 0xFF0024F8⟩ && t.cinPos == 2
    | _ => false) = true := by decide +kernel

/-- Intervals and probabilities at their bounds, with the worked example: no turn (from the full interval) and two; two bytes
unread, and one too few. -/
theorem witness_CodingBitKeepsInterval :
    (∀ l, IntervalOk (workedBit l).coder) ∧ IntervalOk tightCoder ∧ IntervalOk (rcInit State.reset).coder ∧
    ((1 : Nat) ≤ 1 ∧ (4095 : Nat) ≤ 4095) ∧
    rcEncodeBit true 2048 (rcInit State.reset) = .ok () { State.reset with coder := ⟨0, 0x7FFFFFFF, 0⟩ } ∧
    ∃ u, rcDecodeBit 4095 (workedBit [0x24]) = .raised .inUnderrun u :=
  ⟨fun _ => ⟨show 2 ^ 16 ≤ (0x0003FF80 : Word).toNat by decide, show (0x4003FFBF : Word).toNat + (0x0003FF80 : Word).toNat ≤ 2 ^ 32 by
    decide⟩, ⟨by decide, by decide⟩, ⟨by decide, by decide⟩, by decide, rfl, _, rfl⟩

theorem witness_InitDecReadsFour :
    ({ State.reset with cin := [1, 2, 3, 4] } : State).cin.drop State.reset.cinPos = 1 :: 2 :: 3 :: 4 :: [] ∧
    (({ State.reset with cin := [1, 2, 3] } : State).cin.drop State.reset.cinPos).length < 4 := by decide

/-- With `test_sequenceA`: the list is legal, and a decoder has the bytes it makes. -/
theorem witness_CoderRoundTrip : (∀ x ∈ sequenceA, 1 ≤ x.2 ∧ x.2 ≤ 4095) ∧
    ∃ d : State, d.cin = (match encodeBits sequenceA { rcInit State.reset with cout := [] } with
      | .ok _ t => (rcFlush t).cout
      | _ => []) ++ [0xAA] ∧ d.cinPos = 0 :=
  ⟨by decide, { State.reset with cin := [0x40, 0x07, 0xFF, 0x00, 0x24, 0xF8, 0xAA] }, by rw [test_sequenceA]; rfl, rfl⟩

theorem witness_NodeAdvanceLaw : (nextNode 127 true).toNat < 256 ∧ 256 ≤ (nextNode 128 false).toNat := by decide

theorem witness_BitStepFollowsOrder : openEnc.mixer.nadd = 0 ∧ (∃ r t, bitStep .enc true openEnc = .ok r t) ∧
    (openDec 0xFE 0xF3 0xA2 0xE1 []).mixer.nadd = 0 ∧ ∃ r t, bitStep .dec false (openDec 0xFE 0xF3 0xA2 0xE1 []) = .ok r t := by
  refine ⟨rfl, ⟨_, _, bitStep_enc_eq rfl openEnc_session.interval true⟩, rfl, ?_⟩
  have h : (spilled 2 (bitInterval (decodedBit (openDec 0xFE 0xF3 0xA2 0xE1 [])) (openDec 0xFE 0xF3 0xA2 0xE1 []))).length ≤
      (unread (openDec 0xFE 0xF3 0xA2 0xE1 [])).length := by decide +kernel
  exact ⟨_, _, bitStep_dec_ok rfl (openDec_session _ _ _ _ _).interval false h⟩

/-- A decode stream with 16 unread bytes. -/
def longDec : State := openDec 0xFE 0xF3 0xA2 0xE1 (List.replicate 16 0)

theorem witness_ByteTeachesItsNodes :
    (SessionOk openEnc ∧ openEnc.mem.wf = true ∧ ∃ r t, codeByte .enc 0x61 openEnc = .ok r t) ∧
    SessionOk longDec ∧ longDec.mem.wf = true ∧ ∃ r t, codeByte .dec 0 longDec = .ok r t := by
  refine ⟨⟨openEnc_session, by decide, ?_⟩, openDec_session _ _ _ _ _, by decide, ?_⟩
  · obtain ⟨t, -, h, -⟩ := encodeByte_cases 0x61 openEnc_session (by decide)
    exact ⟨_, t, h⟩
  · rcases decByteBody_cases (s := longDec) (openDec_session _ _ _ _ _) (by decide) with ⟨c, t, h, -⟩ | ⟨h, -⟩
    · exact ⟨c, t, h⟩
    · exact absurd h (by decide)

theorem witness_NopCompletes : State.reset.mode = .idle ∧ openEnc.mode = .enc ∧ longDec.mode = .dec := by decide

theorem witness_StartEncCompletes : State.reset.mode = .idle ∧ State.reset.fault = 0 := by decide

theorem witness_StartDecCompletes : ∃ s : State, s.mode = .idle ∧ s.fault = 0 ∧ s.cin = 0x9E :: 0xED :: 0x4D :: 0x85 :: [] :=
  ⟨{ State.reset with cin := [0x9E, 0xED, 0x4D, 0x85] }, by decide⟩

theorem witness_StartDecUnderrun : ∃ s : State, s.mode = .idle ∧ s.cin.length < 4 :=
  ⟨{ State.reset with cin := [1, 2, 3] }, by decide⟩

/-- For EncByteCompletes, EncEndCompletes and EndMarkerIsEncByteZero. -/
theorem witness_EncCompletes : openEnc.mode = .enc ∧ SessionOk openEnc ∧ openEnc.mem.wf = true ∧ openEnc.fault = 0 :=
  ⟨rfl, openEnc_session, by decide, rfl⟩

theorem witness_DecByteCompletes : longDec.mode = .dec ∧ SessionOk longDec ∧ longDec.mem.wf = true ∧ longDec.fault = 0 ∧
    16 ≤ (longDec.cin.drop longDec.cinPos).length := ⟨rfl, openDec_session _ _ _ _ _, by decide, rfl, by decide⟩

/-- A decode stream with nothing unread whose next bit needs a byte: the interval is at its least width. -/
def starvedDec : State := { openDec 0 0 0 0 [] with coder := ⟨0, 0x10000, 0⟩ }

/-- With nothing unread (`cinPos` at the end of `cin`), a stream whose byte still decodes (`test_decByte`,
`test_decByte_end`) and one whose byte underruns. -/
theorem witness_DecByteUnderrunOnlyAtEnd :
    (∀ b0 b1 b2 b3, (openDec b0 b1 b2 b3 []).mode = .dec ∧ SessionOk (openDec b0 b1 b2 b3 []) ∧
      (openDec b0 b1 b2 b3 []).mem.wf = true ∧ (openDec b0 b1 b2 b3 []).fault = 0 ∧
      (openDec b0 b1 b2 b3 []).cinPos ≤ (openDec b0 b1 b2 b3 []).cin.length) ∧
    (starvedDec.mode = .dec ∧ SessionOk starvedDec ∧ starvedDec.mem.wf = true ∧ starvedDec.fault = 0 ∧
      starvedDec.cinPos ≤ starvedDec.cin.length) ∧
    answers 0x5000 starvedDec (fun t => t.rsps == [0x4C00] && t.mode == .fault && t.cinPos == 4) = true :=
  ⟨fun b0 b1 b2 b3 => ⟨rfl, openDec_session b0 b1 b2 b3 [], show (⟨[], [], []⟩ : Memory).wf = true by decide, rfl, by
      simp [openDec]⟩,
    ⟨rfl, ⟨rfl, rfl, ⟨by decide, by decide⟩, ⟨by decide, rfl⟩, readO_empty rfl⟩, by decide, rfl, by decide⟩, by decide +kernel⟩

theorem witness_ModeTransitions_malformed : decodeWord 0x0100 = .error .reservedField ∧ openEnc.mode ≠ .fault ∧
    stopped.mode = .fault := by decide

/-- For ModeTransitions and EosChangesOnlyAtStreamEnds: every command in each of the four modes. The three ends of DEC_BYTE are
in `test_decByte`, `test_decByte_end` and `witness_DecByteUnderrunOnlyAtEnd`. -/
theorem witness_ModeTransitions (i : Instr) :
    (StateInv stopped ∧ stopped.mode = .fault ∧ Runs (exec i stopped)) ∧
    (StateInv State.reset ∧ State.reset.mode = .idle ∧ Runs (exec i State.reset)) ∧
    (StateInv openEnc ∧ openEnc.mode = .enc ∧ Runs (exec i openEnc)) ∧
    StateInv longDec ∧ longDec.mode = .dec ∧ Runs (exec i longDec) := by
  have ill : ∀ (s : State), s.mode ≠ .fault → s.mode ∉ legalModes i → Runs (exec i s) := fun s h hl =>
    ⟨_, by rw [exec_eq]; exact runCommand_illegal h hl⟩
  have ok : ∀ (s : State) (r : Reply) (t : State), s.mode ≠ .fault → s.mode ∈ legalModes i → commandBody i s = .ok r t →
      Runs (exec i s) := fun s r t h hl hb => ⟨_, by rw [exec_eq]; exact runCommand_ok h hl hb⟩
  refine ⟨⟨stopped_inv, rfl, _, by rw [exec_eq]; exact runCommand_fault rfl⟩, ⟨reset_inv_witness, rfl, ?_⟩,
    ⟨openEnc_inv, rfl, ?_⟩, openDec_inv _ _ _ _ _, rfl, ?_⟩
  · cases i
    case nop => exact ok _ _ _ (by decide) (by decide) rfl
    case startEnc => exact ok _ _ _ (by decide) (by decide) rfl
    case startDec => exact ⟨_, by rw [exec_eq]; exact runCommand_raised (by decide) (by decide) rfl⟩
    all_goals exact ill _ (by decide) (by simp [legalModes, State.reset])
  · cases i
    case nop => exact ok _ _ _ (by decide) (by decide) rfl
    case encByte c =>
      obtain ⟨t, h, -⟩ := encodeByte_cases c openEnc_session (by decide)
      exact ok _ _ _ (by decide) (by simp [legalModes, openEnc]) (by rw [commandBody, encByteBody, h, bind_ok])
    case encEnd =>
      obtain ⟨t, h, -⟩ := encodeByte_cases 0 openEnc_session (by decide)
      refine ok _ Reply.none { rcFlush (updateContext 0 t) with eos := true, mode := .idle } (by decide) (by decide) ?_
      show encEndBody openEnc = _
      rw [encEndBody]
      show (encodeByte 0 openEnc).bind _ = _
      rw [h, bind_ok]
    all_goals exact ill _ (by decide) (by simp [legalModes, State.reset, openEnc])
  · cases i
    case nop => exact ok _ _ _ (by decide) (by decide) rfl
    case decByte =>
      rcases decByteBody_cases (s := longDec) (openDec_session _ _ _ _ _) (by decide) with ⟨c, t, -, h, -⟩ | ⟨h, -⟩
      · rw [finishByte_eq] at h
        by_cases hc : c = 0
        · rw [if_pos hc] at h; exact ok _ _ _ (by decide) (by decide) h
        · rw [if_neg hc] at h; exact ok _ _ _ (by decide) (by decide) h
      · exact absurd h (by decide)
    all_goals exact ill _ (by decide) (by simp [legalModes, State.reset, longDec, openDec])

/-- For OutputOnlyGrows and StepKeepsInvariant: a step with a command, a RESET pulse, and a START_ENC over old output. -/
theorem witness_StepKeepsInvariant :
    (StateInv (withInput (.command 0x0000) openEnc) ∧ ∃ t, step (withInput (.command 0x0000) openEnc) = .next t) ∧
    (StateInv (withInput .reset stopped) ∧ ∃ t, step (withInput .reset stopped) = .next t) ∧
    StateInv (withInput (.command 0x1000) { State.reset with cout := [0xFE] }) ∧
    ∃ t, step (withInput (.command 0x1000) { State.reset with cout := [0xFE] }) = .next t :=
  ⟨⟨⟨by decide, by decide, by decide, by decide, fun _ => ⟨rfl, rfl, ⟨by decide, by decide⟩, ⟨by decide, by decide⟩,
      readO_empty rfl⟩⟩, _, rfl⟩,
    ⟨⟨by decide, by decide, by decide, by decide, fun h => by simp [StreamOpen, withInput, stopped] at h⟩, _, rfl⟩,
    ⟨by decide, by decide, by decide, by decide, fun h => by simp [StreamOpen, withInput, State.reset] at h⟩, _, rfl⟩

/-- Both ends of the last clause: a state whose step runs, and the one input that a step refuses. -/
theorem witness_EveryCommandIsAnswered : StateInv openEnc ∧ Runs (step openEnc) ∧ StateInv longDec ∧ longDec.mode = .dec ∧
    (withInput (.supply []) longDec).inputs = .supply [] :: [] :=
  ⟨openEnc_inv, ⟨_, rfl⟩, openDec_inv _ _ _ _ _, rfl, rfl⟩

/-- An encoder and a decoder just opened are in lockstep, and the decoder answers a byte. -/
theorem witness_DecByteMirrorsEncByte : openEnc.mode = .enc ∧ (openDec 0x9E 0xED 0x4D 0x85 []).mode = .dec ∧
    SessionOk openEnc ∧ openEnc.mem.wf = true ∧ InLockstep openEnc (openDec 0x9E 0xED 0x4D 0x85 []) ∧
    (openDec 0x9E 0xED 0x4D 0x85 []).fault = 0 ∧
    ∃ t, exec .decByte (openDec 0x9E 0xED 0x4D 0x85 []) = .next t ∧ t.fault = 0 := by
  refine ⟨rfl, rfl, openEnc_session, by decide, ⟨rfl, rfl, rfl, rfl, rfl, rfl, rfl, rfl, rfl, rfl⟩, rfl, ?_⟩
  have h : nextIs (fun t => t.fault == 0) (exec .decByte (openDec 0x9E 0xED 0x4D 0x85 [])) = true := by decide +kernel
  obtain ⟨t, ht, hf⟩ := nextIs_elim h
  exact ⟨t, ht, by simpa using hf⟩

theorem witness_CompressIsDeterministic : ∃ s s' : State, s.mode = .idle ∧ s'.mode = .idle ∧ s.fault = 0 ∧ s'.fault = 0 ∧
    s.mem ≠ s'.mem ∧ s.mixer ≠ s'.mixer :=
  ⟨State.reset, { State.reset with mem := ⟨[(1, 1920)], [], []⟩, mixer := openMixer }, by decide⟩

/-- Property T6: the empty input; a decoder holds the encoder's output, with a byte after it. -/
theorem witness_RoundTrip : State.reset.mode = .idle ∧ State.reset.fault = 0 ∧
    ∃ e d : State, compress [] State.reset = .next e ∧ d.mode = .idle ∧ d.fault = 0 ∧ d.cin = e.cout ++ [0xAA] ∧
      ([] : List Byte).length + 1 ≤ 1 ∧ ∀ b ∈ ([] : List Byte), b ≠ 0 := by
  have h : nextIs (fun t => t.cout == [0xFE, 0xF3, 0xA2, 0xE1]) (compress [] State.reset) = true := by decide +kernel
  obtain ⟨e, he, hc⟩ := nextIs_elim h
  have hc : e.cout = [0xFE, 0xF3, 0xA2, 0xE1] := by simpa using hc
  exact ⟨rfl, rfl, e, { State.reset with cin := [0xFE, 0xF3, 0xA2, 0xE1, 0xAA] }, he, rfl, rfl, by rw [hc]; rfl, le_rfl, by simp⟩

theorem witness_DecoderAlwaysEnds : State.reset.mode = .idle ∧ State.reset.fault = 0 := by decide

end Sys2Proof.Tests
end

section
/-! PROOFS. What a command can do to a state that meets the invariant, said once (`exec_ends`), and from it the statements on
the state between commands: the invariant (R11 to R25), `eos` (R26), `cout` (R28). -/

namespace Sys2Proof

/-- The decoder accepts only the command's own word (R50). -/
theorem encodeWord_of_decodeWord {w : CmdWord} {i : Instr} (h : decodeWord w = .ok i) : encodeWord i = w := by
  have hop : (opField w).toNat = w.toNat / 4096 := by
    have := w.isLt
    rw [opField, BitVec.extractLsb'_toNat, Nat.shiftRight_eq_div_pow]; omega
  have hopd : (opdField w).toNat = w.toNat % 256 := by
    rw [opdField, BitVec.extractLsb'_toNat, Nat.shiftRight_zero]
  unfold decodeWord at h
  split at h
  · cases h
  rename_i hrsv
  have hrsv : w.toNat / 256 % 16 = 0 := by
    have := congrArg BitVec.toNat (not_not.1 hrsv)
    rwa [rsvField, BitVec.extractLsb'_toNat, Nat.shiftRight_eq_div_pow] at this
  have noOp : ∀ {j : Instr}, noOperand j (opdField w) = .ok i → i = j ∧ w.toNat % 256 = 0 := fun {j} hj => by
    unfold noOperand at hj
    split at hj
    · rename_i h0
      rw [h0] at hopd
      cases hj
      exact ⟨rfl, hopd.symm⟩
    · cases hj
  apply BitVec.eq_of_toNat_eq
  split at h
  case h_4 =>
    cases h
    rw [encodeWord_encByte_toNat]; omega
  case h_7 => cases h
  all_goals
    obtain ⟨rfl, h0⟩ := noOp h
    simp only [encodeWord, BitVec.reduceToNat]
    omega

end Sys2Proof

namespace Sys2Proof.Machine

/-! ### How a command ends -/

/-- A byte has been coded from a byte boundary, its roll into the history still to come (R132). -/
structure ByteRan (dir : Dir) (s t : State) : Prop where
  /-- The bit-level conditions hold again. -/
  ok : BitOk t
  /-- What no byte changes. -/
  kept : Kept s t
  /-- What the byte did to the streams. -/
  streamed : Streamed dir 8 s t
  /-- R15: back at the byte boundary. -/
  node : t.node = 1

/-- Every way a command ends with a next state (R134 to R140), from a state that meets the invariant. -/
inductive Ends (s : State) : Instr → State → Prop
  /-- R154: FAULT mode answers only. -/
  | held {i : Instr} (hm : s.mode = .fault) : Ends s i (respond Reply.none s)
  /-- R53 (d): a command not legal in the mode. -/
  | illegal {i : Instr} (hf : s.mode ≠ .fault) (hl : s.mode ∉ legalModes i) : Ends s i (takeFault .illegalCmd s)
  /-- R135. -/
  | nop (hf : s.mode ≠ .fault) : Ends s .nop (respond Reply.none s)
  /-- R136. -/
  | startEnc (hm : s.mode = .idle) : Ends s .startEnc (respond Reply.none { streamInit .enc s with mode := .enc })
  /-- R137, with four bytes in `cin`. -/
  | startDec (hm : s.mode = .idle) (v : Word) (hl : 4 ≤ s.cin.length) :
      Ends s .startDec (respond Reply.none
        { streamInit .dec s with mode := .dec, coder := { (streamInit .dec s).coder with code := v }, cinPos := 4 })
  /-- R137, with fewer. -/
  | startDecUnderrun (hm : s.mode = .idle) (v : Word) (hl : s.cin.length < 4) :
      Ends s .startDec (takeFault .inUnderrun
        { streamInit .dec s with
          mode := .dec, coder := { (streamInit .dec s).coder with code := v }, cinPos := s.cin.length })
  /-- R138. -/
  | encByte (c : Byte) (hm : s.mode = .enc) (u : State) (hu : ByteRan .enc s u) :
      Ends s (.encByte c) (respond Reply.none (updateContext c u))
  /-- R139. -/
  | encEnd (hm : s.mode = .enc) (u : State) (hu : ByteRan .enc s u) :
      Ends s .encEnd (respond Reply.none { rcFlush (updateContext 0 u) with eos := true, mode := .idle })
  /-- R140: a byte delivered. -/
  | decByte (hm : s.mode = .dec) (c : Byte) (hc : c ≠ 0) (u : State) (hu : ByteRan .dec s u) :
      Ends s .decByte (respond ⟨true, c⟩ (updateContext c u))
  /-- R140: the terminator. -/
  | decEnd (hm : s.mode = .dec) (u : State) (hu : ByteRan .dec s u) :
      Ends s .decByte (respond Reply.none { updateContext 0 u with eos := true, mode := .idle })
  /-- R140, R36: `cin` ended inside the byte. -/
  | decUnderrun (hm : s.mode = .dec) (u : State) (hk : Kept s u) (hw : u.mem.wf = true) (ho : u.cout = s.cout)
      (hp : u.cinPos = s.cinPos + (unread s).length) : Ends s .decByte (takeFault .inUnderrun u)

/-- The procedure of a command that is legal in its mode completes or raises, as `Ends` lists. -/
theorem commandBody_ends {s : State} (hi : StateInv s) {i : Instr} (hf : s.mode ≠ .fault)
    (hl : s.mode ∈ legalModes i) :
    (∃ r u, commandBody i s = .ok r u ∧ Ends s i (respond r u)) ∨
    ∃ f u, commandBody i s = .raised f u ∧ Ends s i (takeFault f u) := by
  cases i with
  | nop => exact .inl ⟨_, _, rfl, .nop hf⟩
  | startEnc => exact .inl ⟨_, _, rfl, .startEnc (List.mem_singleton.1 hl)⟩
  | startDec =>
    have hm : s.mode = .idle := List.mem_singleton.1 hl
    have hu : (unread { streamInit .dec s with mode := .dec }).length = s.cin.length := by simp [unread_length]
    rcases Nat.lt_or_ge s.cin.length 4 with h4 | h4
    · obtain ⟨v, hv⟩ := rcInitDec_underrun (hu.trans_lt h4)
      rw [hu] at hv
      refine .inr ⟨_, _, by rw [commandBody, startDecBody, hv, bind_raised], ?_⟩
      simpa using Ends.startDecUnderrun hm v h4
    · obtain ⟨v, hv⟩ := rcInitDec_ok (h4.trans_eq hu.symm)
      refine .inl ⟨_, _, by rw [commandBody, startDecBody, hv, bind_ok], ?_⟩
      simpa using Ends.startDec hm v h4
  | encByte c =>
    have hm : s.mode = .enc := List.mem_singleton.1 hl
    obtain ⟨u, hu, -, hok, hk, hs, hn⟩ := encodeByte_cases c (hi.session (.inl hm)) hi.tables
    exact .inl ⟨_, _, by rw [commandBody, encByteBody, hu, bind_ok], .encByte c hm u ⟨hok, hk, hs, hn⟩⟩
  | encEnd =>
    have hm : s.mode = .enc := List.mem_singleton.1 hl
    obtain ⟨u, hu, -, hok, hk, hs, hn⟩ := encodeByte_cases (BitVec.ofNat 8 Config.eosByte) (hi.session (.inl hm)) hi.tables
    exact .inl ⟨_, _, by rw [commandBody, encEndBody, hu, bind_ok]; rfl, .encEnd hm u ⟨hok, hk, hs, hn⟩⟩
  | decByte =>
    have hm : s.mode = .dec := List.mem_singleton.1 hl
    rcases decByteBody_cases (hi.session (.inr hm)) hi.tables with
      ⟨c, u, -, hu, hok, hk, hs, hn⟩ | ⟨-, u, hu, hk, hw, ho, hp⟩
    · rw [finishByte_eq] at hu
      by_cases hc : c = 0
      · subst hc
        exact .inl ⟨_, _, hu.trans (if_pos rfl), .decEnd hm u ⟨hok, hk, hs, hn⟩⟩
      · exact .inl ⟨_, _, hu.trans (if_neg hc), .decByte hm c hc u ⟨hok, hk, hs, hn⟩⟩
    · exact .inr ⟨_, _, hu, .decUnderrun hm u hk hw ho hp⟩

/-- A command always ends with a next state, one that `Ends` lists. -/
theorem exec_runs {s : State} (hi : StateInv s) (i : Instr) : ∃ t, exec i s = .next t ∧ Ends s i t := by
  rw [exec_eq]
  by_cases hf : s.mode = .fault
  · exact ⟨_, runCommand_fault hf, .held hf⟩
  by_cases hl : s.mode ∈ legalModes i
  · rcases commandBody_ends hi hf hl with ⟨r, u, hb, he⟩ | ⟨f, u, hb, he⟩
    · exact ⟨_, runCommand_ok hf hl hb, he⟩
    · exact ⟨_, runCommand_raised hf hl hb, he⟩
  · exact ⟨_, runCommand_illegal hf hl, .illegal hf hl⟩

/-- Every next state of a command is one that `Ends` lists. -/
theorem exec_ends {s t : State} {i : Instr} (hi : StateInv s) (h : exec i s = .next t) : Ends s i t := by
  obtain ⟨u, hu, he⟩ := exec_runs hi i
  cases h.symm.trans hu
  exact he

/-! ### The invariant -/

/-- What holds in an open stream speaks of the registers and tables only. -/
theorem SessionOk.congr {s t : State} (h : SessionOk s) (hn : t.node = s.node) (hx : t.mixer = s.mixer)
    (hc : t.coder = s.coder) (hh : t.hist = s.hist) (hm : t.mem = s.mem) : SessionOk t := by
  refine ⟨hn.trans h.node_start, by rw [hx]; exact h.no_inputs, by rw [hc]; exact h.interval,
    by rw [hh]; exact h.history, fun i => ?_⟩
  rw [readO0, readO1, hm]
  exact h.counters i

/-- The invariant does not see the responses (R52). -/
theorem StateInv.respond {s : State} (h : StateInv s) (r : Reply) : StateInv (respond r s) :=
  ⟨h.tables, h.fault_mode, h.fault_code, h.read_pos, fun ho => (h.session ho).congr rfl rfl rfl rfl rfl⟩

/-- The invariant does not see what the host does next (R10). -/
theorem StateInv.inputs {s : State} (h : StateInv s) (rest : List HostInput) : StateInv { s with inputs := rest } :=
  ⟨h.tables, h.fault_mode, h.fault_code, h.read_pos, fun ho => (h.session ho).congr rfl rfl rfl rfl rfl⟩

/-- Fault entry by either fault that is ever raised (R151, R153) leaves no open stream. -/
theorem stateInv_takeFault {f : FaultCode} (hf : f = .illegalCmd ∨ f = .inUnderrun) {s : State} (hm : s.mem.wf = true)
    (hp : s.cinPos ≤ s.cin.length) : StateInv (takeFault f s) where
  tables := hm
  fault_mode := by rcases hf with rfl | rfl <;> simp [FaultCode.code]
  fault_code := by rcases hf with rfl | rfl <;> simp [FaultCode.code]
  read_pos := hp
  session := by simp [StreamOpen]

/-- A state of no stream and no fault. -/
theorem stateInv_idle {s : State} (hi : s.mode = .idle) (hf : s.fault = 0) (hm : s.mem.wf = true)
    (hp : s.cinPos ≤ s.cin.length) : StateInv s where
  tables := hm
  fault_mode := by simp [hi, hf]
  fault_code := .inl hf
  read_pos := hp
  session := by simp [StreamOpen, hi]

/-- A state of an open, well kept stream. -/
theorem stateInv_open {s : State} (ho : StreamOpen s) (hf : s.fault = 0) (hm : s.mem.wf = true)
    (hp : s.cinPos ≤ s.cin.length) (hs : SessionOk s) : StateInv s where
  tables := hm
  fault_mode := by rcases ho with ho | ho <;> simp [ho, hf]
  fault_code := .inl hf
  read_pos := hp
  session := fun _ => hs

/-- R25: outside FAULT mode there is no fault code. -/
theorem StateInv.fault_eq_zero {s : State} (h : StateInv s) (hm : s.mode ≠ .fault) : s.fault = 0 :=
  not_not.1 fun hf => hm (h.fault_mode.1 hf)

/-- Coding a byte keeps the read position within `cin` (R36). -/
theorem ByteRan.read_pos {dir : Dir} {s t : State} (h : ByteRan dir s t) (hp : s.cinPos ≤ s.cin.length) :
    t.cinPos ≤ t.cin.length := by
  rw [h.kept.cin]
  cases dir with
  | enc =>
    obtain ⟨-, he, -⟩ := h.streamed.enc rfl
    rwa [he]
  | dec =>
    obtain ⟨-, k, -, hk, he⟩ := h.streamed.dec rfl
    rw [unread_length] at hk
    omega

/-- A byte coded and rolled into the history keeps an open stream's invariant (R138, R140). -/
theorem ByteRan.stateInv {dir : Dir} {s t : State} (h : ByteRan dir s t) (hi : StateInv s) (ho : StreamOpen s) (c : Byte) :
    StateInv (updateContext c t) := by
  have hm : s.mode ≠ .fault := by rcases ho with ho | ho <;> simp [ho]
  refine stateInv_open ?_ (h.kept.fault.trans (hi.fault_eq_zero hm)) h.ok.tables (h.read_pos hi.read_pos)
    (sessionOk_of_byte c h.ok h.node)
  rwa [StreamOpen, updateContext_mode, h.kept.mode]

/-- START opens a well kept stream (R133). -/
theorem sessionOk_streamInit (dir : Dir) (s : State) : SessionOk (streamInit dir s) :=
  have h := streamInit_bitOk dir s
  ⟨streamInit_node dir s, h.no_inputs, h.interval, h.history, h.counters⟩

/-- However a command ends, it keeps the invariant. -/
theorem Ends.stateInv {s t : State} {i : Instr} (h : Ends s i t) (hi : StateInv s) : StateInv t := by
  have hp := hi.read_pos
  cases h with
  | held | nop => exact hi.respond _
  | illegal => exact stateInv_takeFault (.inl rfl) hi.tables hp
  | startEnc hm =>
    apply StateInv.respond
    refine stateInv_open (.inl rfl) ?_ (streamInit_memory_wf .enc s) hp ?_
    · exact hi.fault_eq_zero (by simp [hm])
    · exact (sessionOk_streamInit .enc s).congr rfl rfl rfl rfl rfl
  | startDec hm v hl =>
    apply StateInv.respond
    refine stateInv_open (.inr rfl) ?_ (streamInit_memory_wf .dec s) hl ?_
    · exact hi.fault_eq_zero (by simp [hm])
    · have h := sessionOk_streamInit .dec s
      exact ⟨h.node_start, h.no_inputs, ⟨h.interval.range_min, h.interval.in_space⟩, h.history, h.counters⟩
  | startDecUnderrun => exact stateInv_takeFault (.inr rfl) (streamInit_memory_wf .dec s) le_rfl
  | encByte c hm u hu => exact (hu.stateInv hi (.inl hm) c).respond _
  | encEnd hm u hu =>
    have h := hu.stateInv hi (.inl hm) 0
    rw [rcFlush_eq]
    apply StateInv.respond
    exact stateInv_idle rfl (h.fault_eq_zero (by simp [hu.kept.mode, hm])) h.tables h.read_pos
  | decByte hm c hc u hu => exact (hu.stateInv hi (.inr hm) c).respond _
  | decEnd hm u hu =>
    have h := hu.stateInv hi (.inr hm) 0
    apply StateInv.respond
    exact stateInv_idle rfl (h.fault_eq_zero (by simp [hu.kept.mode, hm])) h.tables h.read_pos
  | decUnderrun hm u hk hw ho hu =>
    refine stateInv_takeFault (.inr rfl) hw ?_
    rw [hu, hk.cin, unread_length]
    omega

/-- A command word, legal or not, keeps the invariant (R134). -/
theorem commandWord_stateInv {w : CmdWord} {s t : State} (hi : StateInv s) (h : commandWord w s = .next t) : StateInv t := by
  unfold commandWord at h
  split at h
  · exact (exec_ends hi h).stateInv hi
  · cases h
    unfold illegalWord
    split
    · exact hi.respond _
    · exact stateInv_takeFault (.inl rfl) hi.tables hi.read_pos

/-- A supply that is answered writes `cin` and the read position only (R28). -/
theorem supplyStream_next {l : List Byte} {s t : State} (h : supplyStream l s = .next t) :
    t = { s with cin := l, cinPos := 0 } := by
  unfold supplyStream at h
  split at h <;> cases h
  rfl

/-- The host's supply keeps the invariant: the read position is at the start of the new stream (R28). -/
theorem supplyStream_stateInv {l : List Byte} {s t : State} (hi : StateInv s) (h : supplyStream l s = .next t) :
    StateInv t := by
  rw [supplyStream_next h]
  exact ⟨hi.tables, hi.fault_mode, hi.fault_code, Nat.zero_le _, fun ho => (hi.session ho).congr rfl rfl rfl rfl rfl⟩

/-- Each of the three things the host can do keeps the invariant (R10). -/
theorem acceptInput_stateInv {i : HostInput} {s t : State} (hi : StateInv s) (h : acceptInput i s = .next t) :
    StateInv t := by
  cases i with
  | reset => cases h; exact stateInv_idle rfl rfl (applyReset_memory_wf s) (Nat.zero_le _)
  | command w => exact commandWord_stateInv hi h
  | supply l => exact supplyStream_stateInv hi h

/-- Settles O55: a step holds the state or answers one input of the host, and every way a command ends keeps the invariant. -/
theorem stepKeepsInvariant : Obligations.StepKeepsInvariant := by
  intro s t hi h
  rcases step_cases s with ⟨-, hs⟩ | ⟨i, rest, -, hs⟩
  · cases hs.symm.trans h; exact hi
  · exact acceptInput_stateInv (hi.inputs rest) (hs.symm.trans h)

/-! ### `eos` (R26) -/

/-- Settles O52: `eos` and the two registers the statement tests, read off each way a command ends. -/
theorem eosChangesOnlyAtStreamEnds : Obligations.EosChangesOnlyAtStreamEnds := by
  intro i s t hi h
  cases exec_ends hi h with
  | held hm => simp [hm]
  | illegal hf hl =>
    have hidle : ¬ (s.mode = .idle ∧ (i = .startEnc ∨ i = .startDec)) := by
      rintro ⟨hm, rfl | rfl⟩ <;> simp [legalModes, hm] at hl
    have hend : ¬ (s.mode = .enc ∧ i = .encEnd) := by
      rintro ⟨hm, rfl⟩
      simp [legalModes, hm] at hl
    simp [hidle, hend, FaultCode.code]
  | nop => simp
  | startEnc hm | startDec hm | startDecUnderrun hm => simp [hm]
  | encByte c hm u hu => simp [hm, hu.kept.eos]
  | encEnd hm u hu => simp [hm]
  | decByte hm c hc u hu => simpa [hm, hu.kept.eos] using fun _ h0 => absurd h0 hc
  | decEnd hm u hu => simp [hm, hu.kept.fault, hi.fault_eq_zero (by simp [hm])]
  | decUnderrun hm u hk hw ho hp => simp [hm, hk.eos, FaultCode.code]

/-! ### `cout` (R28) -/

/-- Coding a byte appends to `cout` or leaves it. -/
theorem ByteRan.cout_grows {dir : Dir} {s t : State} (h : ByteRan dir s t) : s.cout <+: t.cout := by
  cases dir with
  | enc =>
    obtain ⟨⟨bs, -, he⟩, -⟩ := h.streamed.enc rfl
    exact ⟨bs, he.symm⟩
  | dec => rw [(h.streamed.dec rfl).1]

/-- However a command but START_ENC ends, `cout` keeps its bytes; START_ENC empties it. -/
theorem Ends.cout_grows {s t : State} {i : Instr} (h : Ends s i t) :
    s.cout <+: t.cout ∨ (t.cout = [] ∧ s.mode = .idle ∧ i = .startEnc) := by
  cases h with
  | startEnc hm => exact .inr ⟨rfl, hm, rfl⟩
  | held | illegal | nop | startDec | startDecUnderrun => exact .inl List.prefix_rfl
  | encByte _ _ u hu | decByte _ _ _ u hu | decEnd _ u hu => exact .inl hu.cout_grows
  | encEnd hm u hu =>
    rw [rcFlush_eq]
    exact .inl (hu.cout_grows.trans (List.prefix_append _ _))
  | decUnderrun hm u hk hw ho hp =>
    left
    rw [takeFault_cout, ho]

/-- A command word keeps the bytes of `cout`, but for the word of START_ENC in IDLE (R136). -/
theorem commandWord_cout_grows {w : CmdWord} {s t : State} (hi : StateInv s) (h : commandWord w s = .next t) :
    s.cout <+: t.cout ∨ (t.cout = [] ∧ s.mode = .idle ∧ w = 0x1000) := by
  unfold commandWord at h
  split at h
  · rename_i i hw
    rcases (exec_ends hi h).cout_grows with hc | ⟨hc, hm, rfl⟩
    · exact .inl hc
    · exact .inr ⟨hc, hm, (encodeWord_of_decodeWord hw).symm⟩
  · cases h
    left
    unfold illegalWord
    split <;> exact List.prefix_rfl

/-- Settles O53: of the three things the host can do only a RESET pulse and the word START_ENC touch bytes of `cout`. -/
theorem outputOnlyGrows : Obligations.OutputOnlyGrows := by
  intro s t hi h
  rcases step_cases s with ⟨-, hs⟩ | ⟨i, rest, hin, hs⟩
  · cases hs.symm.trans h
    exact .inl List.prefix_rfl
  rw [hs] at h
  cases i with
  | reset => cases h; exact .inr ⟨rfl, rest, .inl hin⟩
  | command w =>
    rcases commandWord_cout_grows (hi.inputs rest) h with hc | ⟨hc, hm, rfl⟩
    · exact .inl hc
    · exact .inr ⟨hc, rest, .inr ⟨hm, hin⟩⟩
  | supply l =>
    rw [supplyStream_next h]
    exact .inl List.prefix_rfl

end Sys2Proof.Machine
end

section
/-! PROOFS. The words of the ports: the fields of a command word, what the decoder accepts and refuses (R50, R53), its
agreement with the encoder and with the opcode map (R50, R55), and the fields of the response word (R52). -/

namespace Sys2Proof

variable {w : CmdWord} {i : Instr}

/-! ### Decode and encode (R50, R51, R55) -/

/-- The operand field of a word put together from two bytes is the lower one (R51). -/
theorem opdField_append (hi c : Byte) : opdField (hi ++ c) = c :=
  BitVec.extractLsb'_append_eq_right

theorem rsvField_append (hi c : Byte) : rsvField (hi ++ c) = hi.extractLsb' 0 4 :=
  BitVec.extractLsb'_append_eq_of_le (by decide)

theorem opField_append (hi c : Byte) : opField (hi ++ c) = hi.extractLsb' 4 4 :=
  BitVec.extractLsb'_append_eq_of_le (by decide)

/-- The decoder reads every command back from its word. -/
theorem decodeWord_encodeWord (i : Instr) : decodeWord (encodeWord i) = .ok i := by
  cases i with
  | encByte c =>
    rw [encodeWord, decodeWord, rsvField_append, opField_append, opdField_append]
    rfl
  | nop | startEnc | startDec | encEnd | decByte => decide

/-- One word per command, one command per word. -/
theorem decodeWord_eq_ok_iff : decodeWord w = .ok i ↔ w = encodeWord i :=
  ⟨fun h => (encodeWord_of_decodeWord h).symm, fun h => h ▸ decodeWord_encodeWord i⟩

/-- Two commands never share a word. -/
theorem encodeWord_injective : Function.Injective encodeWord := fun i _ h =>
  Except.ok.inj ((decodeWord_encodeWord i).symm.trans (decodeWord_eq_ok_iff.2 h))

/-- The table-word decoder is the decoder of the word with these bits. -/
theorem decodeTableWord_eq_some_iff : decodeTableWord 16 w.toNat = some i ↔ decodeWord w = .ok i := by
  have hw : BitVec.ofNat 16 (w.toNat % 2 ^ 16) = w := by
    rw [Nat.mod_eq_of_lt w.isLt, BitVec.ofNat_toNat, BitVec.setWidth_eq]
  rw [decodeTableWord, hw]
  cases decodeWord w with
  | ok j => simp
  | error e => simp

/-- Settles O2: the decoder accepts a command's own word and no other. -/
theorem decodeEncodeAgree : Obligations.DecodeEncodeAgree := fun _ _ =>
  ⟨decodeWord_eq_ok_iff, decodeTableWord_eq_some_iff.trans decodeWord_eq_ok_iff⟩

/-- Settles O3: each word written out is the encoding of its command. -/
theorem writtenWordsDecode : Obligations.WrittenWordsDecode :=
  ⟨decodeWord_encodeWord .nop, decodeWord_encodeWord .startEnc, decodeWord_encodeWord .startDec,
    decodeWord_encodeWord (.encByte 0x61), decodeWord_encodeWord .encEnd, decodeWord_encodeWord .decByte⟩

/-! ### The opcode map (R50) -/

/-- The row of the opcode map that a command stands in. -/
def opcodeRow : Instr → OpcodeRow
  | .nop => ⟨"NOP", 0x0000, 0xFFFF⟩
  | .startEnc => ⟨"START_ENC", 0x1000, 0xFFFF⟩
  | .startDec => ⟨"START_DEC", 0x2000, 0xFFFF⟩
  | .encByte _ => ⟨"ENC_BYTE", 0x3000, 0xFF00⟩
  | .encEnd => ⟨"ENC_END", 0x4000, 0xFFFF⟩
  | .decByte => ⟨"DEC_BYTE", 0x5000, 0xFFFF⟩

theorem opcodeRow_mem (i : Instr) : opcodeRow i ∈ opcodeRows := by
  cases i <;> simp [opcodeRow, opcodeRows]

theorem opcodeRow_mnemonic (i : Instr) : (opcodeRow i).mnemonic = mnemonicOf i := by
  cases i <;> rfl

/-- A row with the full mask holds its one word. -/
theorem holds_fullMask {n : String} {b : CmdWord} : (OpcodeRow.mk n b 0xFFFF).holds w = true ↔ w = b := by
  have hw : w &&& 0xFFFF = w := BitVec.and_allOnes
  rw [OpcodeRow.holds, hw, beq_iff_eq]

/-- The mask of ENC_BYTE clears the operand and keeps the upper byte. -/
theorem append_and_operandMask (hi c : Byte) : ((hi ++ c) &&& 0xFF00 : CmdWord) = hi ++ (0 : Byte) := by
  have hmask : (0xFF00 : CmdWord) = BitVec.allOnes 8 ++ (0 : Byte) := by decide
  rw [hmask, BitVec.and_append, BitVec.and_allOnes, BitVec.ofNat_eq_ofNat, BitVec.and_zero]

/-- The row of ENC_BYTE holds the words with upper byte 0x30, whatever the operand. -/
theorem holds_operandMask {n : String} :
    (OpcodeRow.mk n 0x3000 0xFF00).holds w = true ↔ ∃ c, w = encodeWord (.encByte c) := by
  have hw : w = w.extractLsb' 8 8 ++ opdField w :=
    ((BitVec.extractLsb'_append_extractLsb'_eq_extractLsb' (start₁ := 0) (len₁ := 8) rfl).trans
      BitVec.extractLsb'_eq_self).symm
  have hbits : (0x3000 : CmdWord) = (0x30 : Byte) ++ (0 : Byte) := by decide
  have hholds (hi c : Byte) : (OpcodeRow.mk n 0x3000 0xFF00).holds (hi ++ c) = true ↔ hi = 0x30 := by
    rw [OpcodeRow.holds, beq_iff_eq, append_and_operandMask, hbits, BitVec.append_left_inj]
  constructor
  · intro h
    rw [hw, hholds] at h
    rw [h] at hw
    exact ⟨opdField w, hw⟩
  · rintro ⟨c, rfl⟩
    exact (hholds _ c).2 rfl

/-- A row of the opcode map holds exactly the words of the commands that stand in it. -/
theorem holds_iff {r : OpcodeRow} (hr : r ∈ opcodeRows) :
    r.holds w = true ↔ ∃ i, opcodeRow i = r ∧ w = encodeWord i := by
  constructor
  · intro h
    simp only [opcodeRows, List.mem_cons, List.not_mem_nil, or_false] at hr
    rcases hr with rfl | rfl | rfl | rfl | rfl | rfl
    · exact ⟨.nop, rfl, holds_fullMask.1 h⟩
    · exact ⟨.startEnc, rfl, holds_fullMask.1 h⟩
    · exact ⟨.startDec, rfl, holds_fullMask.1 h⟩
    · obtain ⟨c, hc⟩ := holds_operandMask.1 h
      exact ⟨.encByte c, rfl, hc⟩
    · exact ⟨.encEnd, rfl, holds_fullMask.1 h⟩
    · exact ⟨.decByte, rfl, holds_fullMask.1 h⟩
  · rintro ⟨i, rfl, rfl⟩
    cases i with
    | encByte c => exact holds_operandMask.2 ⟨c, rfl⟩
    | nop | startEnc | startDec | encEnd | decByte => exact holds_fullMask.2 rfl

/-- Only the row of a command holds its word. -/
theorem holds_encodeWord_iff {r : OpcodeRow} (hr : r ∈ opcodeRows) : r.holds (encodeWord i) = true ↔ r = opcodeRow i := by
  rw [holds_iff hr]
  constructor
  · rintro ⟨j, rfl, hj⟩
    rw [encodeWord_injective hj]
  · rintro rfl
    exact ⟨i, rfl, rfl⟩

/-- A word is refused when it is the word of no command. -/
theorem decodeWord_refuses_iff : (∃ e, decodeWord w = .error e) ↔ ∀ i, w ≠ encodeWord i := by
  simp only [ne_eq, ← decodeWord_eq_ok_iff]
  cases decodeWord w with
  | ok j => simp
  | error e => simp

/-- Settles O1: a row holds the words of its own commands, so the word of a command lies in that command's row only. -/
theorem decodeFollowsOpcodeMap : Obligations.DecodeFollowsOpcodeMap := by
  intro w
  constructor
  · intro i h
    rw [decodeWord_eq_ok_iff.1 h]
    exact ⟨opcodeRow i, opcodeRow_mem i, opcodeRow_mnemonic i, fun r hr => holds_encodeWord_iff hr⟩
  · rw [decodeWord_refuses_iff]
    constructor
    · intro h r hr
      rw [← Bool.not_eq_true, holds_iff hr]
      rintro ⟨i, -, hw⟩
      exact h i hw
    · intro h i hw
      have hrow : (opcodeRow i).holds w = true := by rw [hw, holds_encodeWord_iff (opcodeRow_mem i)]
      rw [h _ (opcodeRow_mem i)] at hrow
      cases hrow

/-! ### What the decoder refuses (R53) -/

/-- The tests (a), (b), (c) of R53 are all the ways a word is no command. -/
theorem decodeWord_refuses_iff_fields : (∃ e, decodeWord w = .error e) ↔
    rsvField w ≠ 0 ∨ 6 ≤ (opField w).toNat ∨ (opField w ≠ 3 ∧ opdField w ≠ 0) := by
  have op3 : opField w = 3 ↔ (opField w).toNat = 3 := BitVec.toNat_inj.symm
  have noOp (j : Instr) : (∃ e, noOperand j (opdField w) = .error e) ↔ opdField w ≠ 0 := by
    rw [noOperand]; split <;> simp_all
  rw [decodeWord, ne_eq (opField w), op3]
  by_cases hrsv : rsvField w = 0
  · rw [if_neg (not_not.2 hrsv)]
    split
    case h_4 hop => simp [hop, hrsv]
    case h_7 =>
      have hop : 6 ≤ (opField w).toNat := by grind
      simp [hop]
    all_goals
      rename_i hop
      simp [noOp, hop, hrsv]
  · rw [if_pos hrsv]
    exact iff_of_true ⟨_, rfl⟩ (.inl hrsv)

end Sys2Proof

namespace Sys2Proof.Machine

/-! ### What a command word does (R134) -/

section
variable {w : CmdWord} {s : State}

theorem commandWord_ok {i : Instr} (h : decodeWord w = .ok i) : commandWord w s = exec i s := by
  rw [commandWord, h]

theorem commandWord_error {e : DecodeError} (h : decodeWord w = .error e) : commandWord w s = .next (illegalWord s) := by
  rw [commandWord, h]

theorem illegalWord_fault (h : s.mode = .fault) : illegalWord s = respond Reply.none s := if_pos h

theorem illegalWord_of_ne_fault (h : s.mode ≠ .fault) : illegalWord s = takeFault .illegalCmd s := if_neg h

/-- In FAULT mode every word is only answered (R154). -/
theorem commandWord_fault (h : s.mode = .fault) : commandWord w s = .next (respond Reply.none s) := by
  cases hw : decodeWord w with
  | ok i => rw [commandWord_ok hw, exec_eq, runCommand_fault h]
  | error e => rw [commandWord_error hw, illegalWord_fault h]

/-- Outside FAULT mode a word that no command legal in the mode has raises ILLEGAL_CMD (R53). -/
theorem commandWord_illegal (hf : s.mode ≠ .fault) (h : ∀ i, decodeWord w = .ok i → s.mode ∉ legalModes i) :
    commandWord w s = .next (takeFault .illegalCmd s) := by
  cases hw : decodeWord w with
  | ok i => rw [commandWord_ok hw, exec_eq, runCommand_illegal hf (h i hw)]
  | error e => rw [commandWord_error hw, illegalWord_of_ne_fault hf]

/-- The step at a command word is that word's, taken from the port. -/
theorem step_command {rest : List HostInput} (h : s.inputs = .command w :: rest) :
    step s = commandWord w { s with inputs := rest } := by
  rw [step, takeInput, h]; rfl

end

/-- The four ways a word is illegal in a mode (R53 (a) to (d)): no command that is legal there has it. -/
theorem illegal_iff {w : CmdWord} {m : Mode} :
    (rsvField w ≠ 0 ∨ 6 ≤ (opField w).toNat ∨ (opField w ≠ 3 ∧ opdField w ≠ 0) ∨
      ∃ i, decodeWord w = .ok i ∧ m ∉ legalModes i) ↔
    ∀ i, decodeWord w = .ok i → m ∉ legalModes i := by
  have hform := decodeWord_refuses_iff_fields (w := w)
  rw [← or_assoc, ← or_assoc, or_assoc (a := rsvField w ≠ 0), ← hform]
  cases decodeWord w with
  | ok j => simp
  | error e => simp

/-- Settles O6: an illegal word is one that no command legal in the mode has, and such a word only raises ILLEGAL_CMD. -/
theorem illegalWordRaisesIllegalCmd : Obligations.IllegalWordRaisesIllegalCmd := by
  intro s w rest hin
  rw [step_command hin, illegal_iff]
  refine ⟨fun hf h => ?_, fun _ h => ?_, fun hm => commandWord_fault hm⟩
  · rw [commandWord_illegal (s := { s with inputs := rest }) hf h, takeFault_illegalCmd]
  · push Not at h
    exact h

/-! ### The response word (R52) -/

/-- The response word as a number: its five fields in place. -/
theorem responseWord_toNat (r : Reply) (s : State) :
    (responseWord r s).toNat =
      s.fault.toNat * 4096 + s.mode.code.toNat * 1024 + s.eos.toNat * 512 + r.dv.toNat * 256 + r.data.toNat := by
  have happ {m n : Nat} (x : BitVec m) (y : BitVec n) : (x ++ y).toNat = x.toNat * 2 ^ n + y.toNat := by
    rw [BitVec.toNat_append, ← Nat.shiftLeft_add_eq_or_of_lt y.isLt, Nat.shiftLeft_eq]
  simp only [responseWord, happ, BitVec.toNat_ofBool]
  omega

section
variable (r : Reply) (s : State)

@[simp] theorem rspFault_responseWord : rspFault (responseWord r s) = s.fault :=
  BitVec.extractLsb'_append_eq_left

@[simp] theorem rspMode_responseWord : rspMode (responseWord r s) = s.mode.code := by
  rw [rspMode, responseWord, BitVec.extractLsb'_append_eq_of_add_le (by decide)]
  exact BitVec.extractLsb'_append_eq_left

@[simp] theorem rspEos_responseWord : rspEos (responseWord r s) = s.eos := by
  rw [rspEos, responseWord, BitVec.getLsbD_append, BitVec.getLsbD_append, BitVec.getLsbD_append]
  simp

@[simp] theorem rspDv_responseWord : rspDv (responseWord r s) = r.dv := by
  rw [rspDv, responseWord, BitVec.getLsbD_append, BitVec.getLsbD_append, BitVec.getLsbD_append, BitVec.getLsbD_append]
  simp

@[simp] theorem rspData_responseWord : rspData (responseWord r s) = r.data := by
  rw [rspData, responseWord]
  repeat rw [BitVec.extractLsb'_append_eq_of_add_le (by decide)]
  exact BitVec.extractLsb'_eq_self

end

/-- STATUS is the response word with `dv` and `data` cleared (R27). -/
theorem statusWord_toNat (s : State) :
    (statusWord s).toNat = s.fault.toNat * 4096 + s.mode.code.toNat * 1024 + s.eos.toNat * 512 := by
  simp [statusWord, responseWord_toNat, Reply.none]

/-- Settles O12: the fields of the word one by one, and STATUS by the numbers the two words are. -/
theorem responseWordFields : Obligations.ResponseWordFields := by
  intro r s
  have hdv : r.dv.toNat ≤ 1 := r.dv.toNat_le
  have hdata : r.data.toNat < 256 := r.data.isLt
  refine ⟨rspFault_responseWord r s, ?_, rspEos_responseWord r s, rspDv_responseWord r s, rspData_responseWord r s, ?_, ?_⟩
  · rw [rspMode_responseWord]
    cases s.mode <;> rfl
  · rw [statusWord_toNat]; omega
  · rw [statusWord_toNat, responseWord_toNat]; omega

/-! ### The mode (R59) -/

/-- Settles O51: the mode, read off each way a command ends. -/
theorem modeTransitions : Obligations.ModeTransitions := by
  refine ⟨fun w e s hw => ⟨_, commandWord_error hw, ?_⟩, fun i s t hi h => ?_⟩
  · by_cases hf : s.mode = .fault
    · simp [illegalWord_fault hf, hf]
    · simp [illegalWord_of_ne_fault hf, hf, FaultCode.code]
  cases exec_ends hi h with
  | held hm => simp [hm]
  | illegal hf hl =>
    have hfault : (takeFault .illegalCmd s).mode = .fault ∧ (takeFault .illegalCmd s).fault = 1 := ⟨rfl, rfl⟩
    refine ⟨fun hm => absurd hm hf, ?_, ?_, ?_⟩ <;> intro hm
    all_goals
      rw [hm] at hl
      cases i with
      | nop => exact absurd hl (by decide)
      | startEnc | startDec | encByte | encEnd | decByte => simp_all [legalModes]
  | nop hf => simp [hf]
  | startEnc hm | startDec hm => simp [hm]
  | startDecUnderrun hm => simp [hm, FaultCode.code]
  | encByte c hm u hu => simp [hm, hu.kept.mode]
  | encEnd hm u hu => simp [hm]
  | decByte hm c hc u hu => simpa [hm, hu.kept.mode] using hc
  | decEnd hm u hu => simp [hm]
  | decUnderrun hm u hk hw ho hp => simp [hm, FaultCode.code]

end Sys2Proof.Machine
end

section
/-! PROOFS. The arithmetic: the floor shift (R71), the adaptive-counter law (R78), and the legality of every prediction
(R79). -/

namespace Sys2Proof.Machine

/-! ### The floor shift (R71) -/

/-- Settles O14: integer division by a positive power of two is the floor of the rational quotient. -/
theorem floorShiftIsFloor : Obligations.FloorShiftIsFloor := by
  intro a n
  have hfloor : ⌊(a : ℚ) / ((2 ^ n : ℕ) : ℚ)⌋ = a / ((2 ^ n : ℕ) : ℤ) := Rat.floor_intCast_div_natCast a (2 ^ n)
  rw [floorShift, ← hfloor, Nat.cast_pow, Nat.cast_ofNat]

/-! ### The adaptive-counter law (R78) -/

section
variable (c : Prob) (bit : Bool)

/-- The counter law as a number, with the shift by `RATE` as a division. -/
theorem ctrUpdate_toNat :
    ((ctrUpdate c bit).toNat : Int) = clamp ((c.toNat : Int) + ((if bit then 4096 else 0) - (c.toNat : Int)) / 16) 1 4095 :=
  legalProb_toNat _

/-- A 1 moves the counter up by a sixteenth of its distance to 4096, floored: the clamp never acts. -/
theorem ctrUpdate_true_toNat : (ctrUpdate c true).toNat = c.toNat + (4096 - c.toNat) / 16 := by
  have hc : c.toNat < 4096 := c.isLt
  have h := ctrUpdate_toNat c true
  rw [if_pos rfl, clamp_inside (by omega) (by omega)] at h
  omega

/-- A 0 moves the counter down by a sixteenth of itself, rounded up, and not below 1. -/
theorem ctrUpdate_false_toNat : (ctrUpdate c false).toNat = max 1 (c.toNat - (c.toNat + 15) / 16) := by
  have hc : c.toNat < 4096 := c.isLt
  have h := ctrUpdate_toNat c false
  rw [if_neg Bool.false_ne_true] at h
  by_cases hone : c.toNat ≤ 1
  · rw [clamp, if_pos (by omega)] at h
    omega
  · rw [clamp_inside (by omega) (by omega)] at h
    omega

/-- Fed 1s, a counter rests exactly from 4081 on: there the sixteenth floors to 0. -/
theorem ctrUpdate_true_eq_self_iff : ctrUpdate c true = c ↔ 4081 ≤ c.toNat := by
  have hc : c.toNat < 4096 := c.isLt
  rw [← BitVec.toNat_inj, ctrUpdate_true_toNat]
  omega

/-- Fed 0s, a counter rests at 1 only: the sixteenth rounded up is never 0. -/
theorem ctrUpdate_false_eq_self_iff : ctrUpdate c false = c ↔ c.toNat = 1 := by
  rw [← BitVec.toNat_inj, ctrUpdate_false_toNat]
  omega

end

/-- From the neutral 2048, the 85th 1 brings a counter to the rest point 4081, and the 84th does not yet. -/
theorem ctrUpdate_true_iterate_neutral :
    (fun c => ctrUpdate c true)^[85] 2048 = 4081 ∧ ((fun c => ctrUpdate c true)^[84] 2048).toNat < 4081 := by
  decide +kernel

/-- From the neutral 2048, the 84th 0 brings a counter to the rest point 1, and the 83rd does not yet. -/
theorem ctrUpdate_false_iterate_neutral :
    (fun c => ctrUpdate c false)^[84] 2048 = 1 ∧ 1 < ((fun c => ctrUpdate c false)^[83] 2048).toNat := by
  decide +kernel

/-- Settles O15: the law is the clamp with its shift read as a floor (O14), and the rest follows in each direction. -/
theorem counterUpdateLaw : Obligations.CounterUpdateLaw := by
  obtain ⟨hrise, hbefore⟩ := ctrUpdate_true_iterate_neutral
  refine ⟨fun c bit _ => ?_, fun c _ => ?_, hrise, hbefore, ctrUpdate_false_iterate_neutral⟩
  · have hfloor (a : Int) : a / 16 = ⌊(a : ℚ) / 16⌋ := by
      rw [show (16 : ℚ) = 2 ^ 4 by norm_num, ← floorShiftIsFloor a 4]
      rfl
    rw [ctrUpdate_toNat, hfloor]
  · exact ⟨ctrUpdate_true_toNat c, ctrUpdate_false_toNat c, ctrUpdate_true_eq_self_iff c, ctrUpdate_false_eq_self_iff c⟩

/-! ### The predictions are legal (R79) -/

/-- A nonzero probability register is a legal probability: 12 bits hold no more than 4095. -/
theorem prob_legal_of_pos {p : Prob} (h : 1 ≤ p.toNat) : 1 ≤ p.toNat ∧ p.toNat ≤ 4095 :=
  ⟨h, Nat.le_of_lt_succ p.isLt⟩

theorem neutral_legal : 1 ≤ neutral.toNat ∧ neutral.toNat ≤ 4095 := by decide

theorem hxProb_legal (n0 n1 : BitVec 8) : 1 ≤ (hxProb n0 n1).toNat ∧ (hxProb n0 n1).toNat ≤ 4095 := by
  unfold hxProb
  split
  · exact neutral_legal
  · exact legalProb_legal _

theorem slotPredict_legal (e : HxEntry) (key : BitVec 16) :
    1 ≤ (slotPredict e key).toNat ∧ (slotPredict e key).toNat ≤ 4095 := by
  unfold slotPredict
  split
  · exact hxProb_legal _ _
  · exact neutral_legal

theorem hxPredict_legal (s : State) : 1 ≤ (hxPredict s).toNat ∧ (hxPredict s).toNat ≤ 4095 := by
  unfold hxPredict
  split
  · exact slotPredict_legal _ _
  · exact neutral_legal

section
variable {s : State}

theorem o0Predict_legal (h : CountersLegal s) : 1 ≤ (o0Predict s).toNat ∧ (o0Predict s).toNat ≤ 4095 :=
  prob_legal_of_pos (h _).1

theorem o1Predict_legal (h : CountersLegal s) : 1 ≤ (o1Predict s).toNat ∧ (o1Predict s).toNat ≤ 4095 := by
  unfold o1Predict
  split
  · exact prob_legal_of_pos (h _).2
  · exact neutral_legal

/-- What an answered `MX.GET` did (R123): it had three inputs, and returned and latched the mixer's output. -/
theorem mxGet_eq_ok {p : Prob} {t : State} (h : mxGet s = .ok p t) :
    s.mixer.nadd = 3 ∧ p = mxOutput s.mixer ∧ t = { s with mixer := { s.mixer with pr := p } } := by
  unfold mxGet at h
  split at h
  next hn =>
    cases h
    exact ⟨hn, rfl, rfl⟩
  next => cases h

/-- What predict-all and mix returns is a mixer's output (R130), whatever was latched before. -/
theorem predictMix_eq_ok {p : Prob} {t : State} (h : predictMix s = .ok p t) : ∃ m, p = mxOutput m := by
  obtain ⟨-, s1, -, h⟩ := bind_eq_ok _ h
  obtain ⟨-, s2, -, h⟩ := bind_eq_ok _ h
  obtain ⟨-, s3, -, hget⟩ := bind_eq_ok _ h
  obtain ⟨-, hp, -⟩ := mxGet_eq_ok hget
  exact ⟨s3.mixer, hp⟩

end

/-- Settles O16: each prediction is a legal counter, the neutral value or a clamped one, and the mixer clamps. -/
theorem predictionsLegal : Obligations.PredictionsLegal := by
  intro s h
  refine ⟨o0Predict_legal h, o1Predict_legal h, hxPredict_legal s, fun p t hp => ?_⟩
  obtain ⟨m, rfl⟩ := predictMix_eq_ok hp
  exact mxOutput_legal m

end Sys2Proof.Machine
end

section
/-! PROOFS. The entropy coder: its procedures one by one (R86 to R92), the coding of a bit (R93, R94), and the round trip of
the coder alone (R95). -/

namespace Sys2Proof.Machine

/-! ### The procedures of the interval (R86, R87, R88) -/

/-- Settles O30: the split of a legal probability is the floored product, and its bounds are those of `splitWidth`. -/
theorem splitLaw : Obligations.SplitLaw := by
  intro p s
  exact ⟨fun h => if_pos h, fun h1 h2 => ⟨splitWidth s.coder.range p, rcSplit_legal h1 h2 s, splitWidth_toNat _ h2,
    fun hr => splitWidth_bounds hr h1 h2⟩⟩

/-- `RC.NARROW`, whole (R87): the registers are written, then an empty interval raises. -/
theorem rcNarrow_eq (bit : Bool) (r1 : Word) (s : State) :
    rcNarrow bit r1 s =
      if (narrowed bit r1 s.coder).range = 0 then .raised .rangeUnderflow { s with coder := narrowed bit r1 s.coder }
      else .ok () { s with coder := narrowed bit r1 s.coder } := rfl

/-- A narrowing writes `low` and `range` only. -/
theorem narrowed_eq (bit : Bool) (r1 : Word) (c : Coder) :
    narrowed bit r1 c = { c with low := (narrowed bit r1 c).low, range := (narrowed bit r1 c).range } := by
  cases bit <;> rfl

/-- The width after a narrowing, the empty parts included (R87). -/
theorem narrowed_range_toNat {c : Coder} {r1 : Word} (h : r1.toNat ≤ c.range.toNat) (bit : Bool) :
    (narrowed bit r1 c).range.toNat = if bit then r1.toNat else c.range.toNat - r1.toNat := by
  cases bit with
  | false => exact BitVec.toNat_sub_of_le h
  | true => rfl

/-- The low end after a narrowing, reduced as the register is (R72, R87). -/
theorem narrowed_low_toNat (bit : Bool) (r1 : Word) (c : Coder) :
    (narrowed bit r1 c).low.toNat = if bit then c.low.toNat else (c.low.toNat + r1.toNat) % 2 ^ 32 := by
  cases bit with
  | false => exact BitVec.toNat_add c.low r1
  | true => rfl

/-- Settles O31: the registers after the narrowing as numbers; an empty interval is the only fault. -/
theorem narrowLaw : Obligations.NarrowLaw := by
  intro b r1 s hr hs
  have hcoder := narrowed_eq b r1 s.coder
  refine ⟨(narrowed b r1 s.coder).low, (narrowed b r1 s.coder).range, narrowed_low_toNat b r1 s.coder, fun hlt => ?_,
    narrowed_range_toNat hr b, fun hne => ?_, fun h0 => ?_⟩
  · obtain ⟨hlow, -⟩ := narrowed_toNat hs hlt b
    cases b <;> simpa using hlow
  · rw [rcNarrow_eq, if_neg hne, ← hcoder]
  · rw [rcNarrow_eq, if_pos h0, ← hcoder]

/-- Settles O32: the registers after a shift as numbers; the clauses are the two sides of the clamp. -/
theorem shiftLaw : Obligations.ShiftLaw := by
  intro s hr
  have hl := s.coder.low.isLt
  have hrange := shifted_range_toNat hr
  rw [← shiftLeft_byte_toNat] at hrange
  have hlow := shiftLeft_byte_toNat s.coder.low
  refine ⟨s.coder.low <<< 8, (shifted s.coder).range, rfl, hlow, hrange, shifted_in_space hr, ?_, ?_, ?_⟩ <;> omega

/-! ### Coding a bit (R89, R90, R93, R94) -/

/-- The part of an interval that a bit of probability `p` takes (R86, R87). -/
def takenPart (bit : Bool) (p : Nat) (c : Coder) : Coder := narrowed bit (splitWidth c.range p) c

section
variable {c : Coder} {p : Nat} (hc : IntervalOk c) (h1 : 1 ≤ p) (h2 : p ≤ 4095) (bit : Bool)
include hc h1 h2

theorem takenPart_toNat :
    (takenPart bit p c).low.toNat = (if bit then c.low.toNat else c.low.toNat + (splitWidth c.range p).toNat) ∧
    (takenPart bit p c).range.toNat =
      (if bit then (splitWidth c.range p).toNat else c.range.toNat - (splitWidth c.range p).toNat) := by
  obtain ⟨-, hlt⟩ := splitWidth_bounds hc.range_min h1 h2
  exact narrowed_toNat hc.in_space (by omega) bit

theorem takenPart_range_ne_zero : (takenPart bit p c).range ≠ 0 := by
  obtain ⟨h16, -⟩ := narrowed_split hc h1 h2 bit
  intro h0
  rw [← takenPart, h0] at h16
  exact absurd h16 (by decide)

/-- After the bit's turns the interval is well kept again (R93). -/
theorem renormed_takenPart_ok : IntervalOk (renormed 2 (takenPart bit p c)) := by
  obtain ⟨h16, -, hs⟩ := narrowed_split hc h1 h2 bit
  exact renormed_ok (by rw [takenPart]; omega) hs

end

/-- The decoder's decision, on the exact difference of the registers (R90). -/
theorem decidedBit_eq (c : Coder) (r1 : Word) :
    decidedBit c r1 = decide ((c.code.toNat + 2 ^ 32 - c.low.toNat) % 2 ^ 32 < r1.toNat) := by
  have hl := c.low.isLt
  have hsub : (c.code - c.low).toNat = (c.code.toNat + 2 ^ 32 - c.low.toNat) % 2 ^ 32 := by
    rw [BitVec.toNat_sub]
    congr 1
    omega
  rw [decidedBit, hsub]

/-- `RC.DECODE_BIT` is the decision, then the loop from the part that the decided bit takes (R90). -/
theorem rcDecodeBit_eq_renormDec {s : State} (hc : IntervalOk s.coder) {p : Nat} (h1 : 1 ≤ p) (h2 : p ≤ 4095) {bit : Bool}
    (hb : decidedBit s.coder (splitWidth s.coder.range p) = bit) :
    rcDecodeBit p s = (renormDec 2 { s with coder := takenPart bit p s.coder }).bind fun _ t => .ok bit t := by
  have hne := takenPart_range_ne_zero hc h1 h2 bit
  rw [rcDecodeBit, rcSplit_legal h1 h2, bind_ok]
  simp only [hb]
  rw [rcNarrow_of_ne hne, bind_ok]
  rfl

/-- Settles O33: the encoder's loop is its turns (`renormEnc_iterate`), and so is the decoder's where the bytes are there
(`renormDec_iterate`). -/
theorem codingBitKeepsInterval : Obligations.CodingBitKeepsInterval := by
  intro s p h1 h2 hc
  refine ⟨fun b => ?_, ?_⟩
  · obtain ⟨hturns, hnarrow⟩ := renormEnc_iterate 2 { s with coder := takenPart b p s.coder }
    rw [renormEnc_eq] at hturns
    have henc := rcEncodeBit_eq hc h1 h2 b
    refine ⟨takenPart b p s.coder, _, _, spilled 2 (takenPart b p s.coder), takesPart_narrowed hc h1 h2 b,
      spilled_length 2 _, hturns, hnarrow, renormed_takenPart_ok hc h1 h2 b, henc, ?_, ?_, rfl, rfl, rfl⟩
    · rw [codeBit, henc, bind_ok]
      rfl
    · rw [renormed_code, takenPart, narrowed_code]
  · obtain ⟨b, hb⟩ : ∃ b, decidedBit s.coder (splitWidth s.coder.range p) = b := ⟨_, rfl⟩
    have hok := renormed_takenPart_ok hc h1 h2 b
    have hloop := renormDec_iterate 2 { s with coder := takenPart b p s.coder }
    have hframe := decTurn_iterate_frame (spilled 2 (takenPart b p s.coder)).length
      { s with coder := takenPart b p s.coder }
    obtain ⟨hlow, hrange, hnarrow⟩ := decTurn_iterate_interval 2 { s with coder := takenPart b p s.coder }
    obtain ⟨t, ht⟩ : ∃ t, decTurn^[(spilled 2 (takenPart b p s.coder)).length]
        { s with coder := takenPart b p s.coder } = t := ⟨_, rfl⟩
    rw [ht] at hloop hframe hlow hrange
    have hpos : t.cinPos = s.cinPos + (spilled 2 (takenPart b p s.coder)).length := congrArg State.cinPos hframe
    refine ⟨b, takenPart b p s.coder, (spilled 2 (takenPart b p s.coder)).length, t, ?_, takesPart_narrowed hc h1 h2 b,
      spilled_length 2 _, ht.symm, hnarrow, ?_, hpos, ?_, fun _ => rfl, fun hl => ?_, fun hl => ?_⟩
    · rw [← hb, decidedBit_eq, splitWidth_toNat _ h2]
    · exact ⟨by rw [hrange]; exact hok.range_min, by rw [hlow, hrange]; exact hok.in_space⟩
    · rw [hpos]
      exact hframe
    · rw [rcDecodeBit_eq_renormDec hc h1 h2 hb, hloop hl, bind_ok]
    · obtain ⟨d, hd⟩ := rcDecodeBit_underrun hc h1 h2 hb hl
      exact ⟨_, hd, rfl, rfl⟩

/-! ### The first four bytes of a stream, and the last (R91, R92) -/

/-- Four bytes as a word are the number they write, the first byte on top. -/
theorem fourBytes_toNat (b0 b1 b2 b3 : Byte) : (b0 ++ (b1 ++ (b2 ++ b3)) : Word).toNat =
    b0.toNat * 2 ^ 24 + b1.toNat * 2 ^ 16 + b2.toNat * 2 ^ 8 + b3.toNat := by
  have happ {m n : Nat} (x : BitVec m) (y : BitVec n) : (x ++ y).toNat = x.toNat * 2 ^ n + y.toNat := by
    rw [BitVec.toNat_append, ← Nat.shiftLeft_add_eq_or_of_lt y.isLt, Nat.shiftLeft_eq]
  rw [happ, happ, happ]
  omega

/-- A byte shifted into four pushes the first of them out (R72). -/
theorem shiftInByte_fourBytes (b0 b1 b2 b3 b : Byte) :
    shiftInByte (b0 ++ (b1 ++ (b2 ++ b3))) b = b1 ++ (b2 ++ (b3 ++ b)) := by
  apply BitVec.eq_of_toNat_eq
  rw [shiftInByte_toNat, fourBytes_toNat, fourBytes_toNat]
  have := b1.isLt; have := b2.isLt; have := b3.isLt
  omega

/-- Four bytes shifted in replace a register's whole content. -/
theorem foldl_shiftInByte_four (v : Word) (b0 b1 b2 b3 : Byte) :
    [b0, b1, b2, b3].foldl shiftInByte v = b0 ++ (b1 ++ (b2 ++ b3)) := by
  apply BitVec.eq_of_toNat_eq
  simp only [List.foldl_cons, List.foldl_nil, shiftInByte_toNat, fourBytes_toNat]
  have := b0.isLt; have := b1.isLt; have := b2.isLt; have := b3.isLt
  omega

/-- `RC.INIT_DEC`'s loop, where the stream has its `n` bytes (R91). -/
theorem rcInitDecLoop_ok (n : Nat) (s : State) (h : n ≤ (unread s).length) :
    rcInitDecLoop n s = .ok ()
      { s with
        coder := { s.coder with code := ((unread s).take n).foldl shiftInByte s.coder.code }
        cinPos := s.cinPos + n } := by
  induction n generalizing s with
  | zero => rfl
  | succ n ih =>
    obtain ⟨b, l, hl⟩ := List.exists_cons_of_length_pos (Nat.lt_of_lt_of_le n.succ_pos h)
    have hu := unread_advance s 1 { s.coder with code := shiftInByte s.coder.code b }
    rw [hl] at h hu
    rw [rcInitDecLoop, inByte_cons hl, bind_ok]
    refine (ih _ (by rw [hu]; exact Nat.le_of_succ_le_succ h)).trans ?_
    rw [hu, hl]
    simp [Nat.add_assoc, Nat.add_comm 1]

/-- Settles O34: four bytes shifted into `code` are all of it; on a shorter stream the loop stops at the first missing byte. -/
theorem initDecReadsFour : Obligations.InitDecReadsFour := by
  intro s
  refine ⟨fun b0 b1 b2 b3 l hl => ?_, fun h => rcInitDec_underrun h⟩
  have hu : unread s = b0 :: b1 :: b2 :: b3 :: l := hl
  have hloop := rcInitDecLoop_ok 4 s (by simp [hu])
  rw [hu] at hloop
  exact hloop.trans (by rw [← foldl_shiftInByte_four s.coder.code]; rfl)

/-- The bytes of a word in the order the flush emits them (R92). -/
def wordBytes (v : Word) : List Byte :=
  [topByte v, topByte (v <<< 8), topByte (v <<< 8 <<< 8), topByte (v <<< 8 <<< 8 <<< 8)]

theorem rcFlush_appends (s : State) : (rcFlush s).cout = s.cout ++ wordBytes s.coder.low := by
  rw [rcFlush_eq, wordBytes]

theorem topByte_toNat (v : Word) : (topByte v).toNat = v.toNat / 2 ^ 24 := by
  have hv := v.isLt
  rw [topByte, BitVec.extractLsb'_toNat, Nat.shiftRight_eq_div_pow]
  omega

/-- The bytes emitted are the word. -/
theorem fourBytes_topBytes (v : Word) :
    topByte v ++ (topByte (v <<< 8) ++ (topByte (v <<< 8 <<< 8) ++ topByte (v <<< 8 <<< 8 <<< 8))) = v := by
  apply BitVec.eq_of_toNat_eq
  simp only [fourBytes_toNat, topByte_toNat, shiftLeft_byte_toNat]
  have hv := v.isLt
  omega

/-- Settles O35: `rcFlush_eq` names the four bytes, and together they are `low`. -/
theorem flushEmitsLow : Obligations.FlushEmitsLow :=
  fun s => ⟨_, _, _, _, fourBytes_topBytes s.coder.low, rcFlush_eq s⟩

/-! ### The decoder's window of a stream (R14, R95) -/

/-- What `code` holds when the stream `T` lies ahead: its first four bytes, the first on top (R91). -/
def window (T : List Byte) : Word := (T.take 4).foldl shiftInByte 0

theorem window_four (b0 b1 b2 b3 : Byte) (T : List Byte) :
    window (b0 :: b1 :: b2 :: b3 :: T) = b0 ++ (b1 ++ (b2 ++ b3)) :=
  foldl_shiftInByte_four 0 b0 b1 b2 b3

theorem window_wordBytes (v : Word) : window (wordBytes v) = v :=
  (window_four ..).trans (fourBytes_topBytes v)

theorem exists_four_of_length {T : List Byte} (h : 4 ≤ T.length) :
    ∃ b0 b1 b2 b3 T', T = b0 :: b1 :: b2 :: b3 :: T' := by
  match T, h with
  | b0 :: b1 :: b2 :: b3 :: T', _ => exact ⟨b0, b1, b2, b3, T', rfl⟩

/-- A byte put before a stream moves its window down by one byte. -/
theorem window_cons_toNat (b : Byte) {T : List Byte} (h : 4 ≤ T.length) :
    (window (b :: T)).toNat = b.toNat * 2 ^ 24 + (window T).toNat / 256 := by
  obtain ⟨b0, b1, b2, b3, T', rfl⟩ := exists_four_of_length h
  rw [window_four, window_four, fourBytes_toNat, fourBytes_toNat]
  have := b3.isLt
  omega

/-- Shifting the next bytes in moves the window along the stream (R90). -/
theorem foldl_window_append (A : List Byte) {T : List Byte} (h : 4 ≤ T.length) :
    (((A ++ T).drop 4).take A.length).foldl shiftInByte (window (A ++ T)) = window T := by
  induction A with
  | nil => rfl
  | cons a A ih =>
    obtain ⟨b0, b1, b2, b3, U, hU⟩ := exists_four_of_length (T := A ++ T) (by rw [List.length_append]; omega)
    rw [hU, window_four] at ih
    rw [List.cons_append, hU, window_four]
    simp only [List.drop_succ_cons, List.drop_zero] at ih ⊢
    rw [List.length_cons, List.take_succ_cons, List.foldl_cons, shiftInByte_fourBytes, ih]

/-- I3 (R93): the value lies in the interval. -/
def InInterval (v : Word) (c : Coder) : Prop := c.low.toNat ≤ v.toNat ∧ v.toNat < c.low.toNat + c.range.toNat

/-- I3 against a shift: a value in the interval after it, with the byte that left `low` put back, was in the interval before
it. The clamp only makes the interval after it smaller. -/
theorem inInterval_of_shifted {c : Coder} (hr : c.range.toNat < 2 ^ 16) {T : List Byte} (h : 4 ≤ T.length)
    (hin : InInterval (window T) (shifted c)) : InInterval (window (topByte c.low :: T)) c := by
  obtain ⟨hlow, hhigh⟩ := hin
  rw [shifted_range_toNat hr] at hhigh
  rw [shifted_low, shiftLeft_byte_toNat] at hlow hhigh
  rw [InInterval, window_cons_toNat _ h, topByte_toNat]
  omega

/-- I3 against a whole renormalisation: the bytes that left `low`, put back before the stream. -/
theorem inInterval_of_renormed (n : Nat) {c : Coder} {T : List Byte} (h : 4 ≤ T.length)
    (hin : InInterval (window T) (renormed n c)) : InInterval (window (spilled n c ++ T)) c := by
  induction n generalizing c with
  | zero => exact hin
  | succ n ih =>
    rw [renormed] at hin
    rw [spilled]
    split at hin
    next hr =>
      rw [if_pos hr, List.cons_append]
      exact inInterval_of_shifted hr (by rw [List.length_append]; omega) (ih hin)
    next hr =>
      rw [if_neg hr]
      exact hin

section
variable {c : Coder} {p : Nat} (hc : IntervalOk c) (h1 : 1 ≤ p) (h2 : p ≤ 4095) {bit : Bool}
include hc h1 h2

/-- The part of a bit lies in the interval (R87). -/
theorem inInterval_of_takenPart {v : Word} (h : InInterval v (takenPart bit p c)) : InInterval v c := by
  obtain ⟨hlow, hrange⟩ := takenPart_toNat hc h1 h2 bit
  obtain ⟨-, hlt⟩ := splitWidth_bounds hc.range_min h1 h2
  rw [InInterval, hlow, hrange] at h
  rw [InInterval]
  cases bit <;> simp only [Bool.false_eq_true, if_true, if_false] at h <;> omega

/-- With `code` in the part of a bit, that bit is decided (R90). -/
theorem decidedBit_of_takenPart (h : InInterval c.code (takenPart bit p c)) :
    decidedBit c (splitWidth c.range p) = bit := by
  obtain ⟨hlow, hrange⟩ := takenPart_toNat hc h1 h2 bit
  have hs := hc.in_space
  rw [InInterval, hlow, hrange] at h
  rw [decidedBit_eq]
  cases bit with
  | false =>
    simp only [Bool.false_eq_true, if_false] at h
    rw [decide_eq_false_iff_not]
    omega
  | true =>
    simp only [if_true] at h
    rw [decide_eq_true_iff]
    omega

end

/-- The decoder stands before the stream `T`, with other bytes behind it: `code` is `T`'s window and the rest of `T` is
unread. -/
structure Follows (T extra : List Byte) (s : State) : Prop where
  /-- Four bytes are always ahead: those in `code`. -/
  four : 4 ≤ T.length
  /-- R14. -/
  code : s.coder.code = window T
  /-- R36. -/
  rest : unread s = T.drop 4 ++ extra

/-- `RC.INIT_DEC` brings the decoder before the whole stream (R91). -/
theorem rcInitDec_follows {T extra : List Byte} {s : State} (h : 4 ≤ T.length) (hu : unread s = T ++ extra) :
    ∃ t, rcInitDec s = .ok () t ∧ Follows T extra t ∧
      t = { s with coder := { s.coder with code := window T }, cinPos := s.cinPos + 4 } := by
  refine ⟨_, ?_, ⟨h, rfl, ?_⟩, rfl⟩
  · obtain ⟨b0, b1, b2, b3, T', rfl⟩ := exists_four_of_length h
    rw [window_four]
    exact (initDecReadsFour s).1 b0 b1 b2 b3 (T' ++ extra) hu
  · rw [unread_advance, hu, List.drop_append_of_le_length h]

/-- One bit decoded from what the encoder made of it: from before the bytes of the bit and a stream `T` whose window lies in
the interval after the bit, the decoder returns the bit, takes the encoder's interval, and stands before `T` (R90, R95). -/
theorem rcDecodeBit_follows {s : State} (hc : IntervalOk s.coder) {p : Nat} (h1 : 1 ≤ p) (h2 : p ≤ 4095) {bit : Bool}
    {T extra : List Byte} (hT : 4 ≤ T.length) (hin : InInterval (window T) (renormed 2 (takenPart bit p s.coder)))
    (hs : Follows (spilled 2 (takenPart bit p s.coder) ++ T) extra s) :
    ∃ t, rcDecodeBit p s = .ok bit t ∧ Follows T extra t ∧
      t = { s with
        coder := { renormed 2 (takenPart bit p s.coder) with code := window T }
        cinPos := s.cinPos + (spilled 2 (takenPart bit p s.coder)).length } := by
  have hpart := inInterval_of_renormed 2 hT hin
  rw [← hs.code] at hpart
  have hb := decidedBit_of_takenPart hc h1 h2 hpart
  have hlen : (spilled 2 (takenPart bit p s.coder)).length ≤
      ((spilled 2 (takenPart bit p s.coder) ++ T).drop 4).length := by
    rw [List.length_drop, List.length_append]; omega
  have hdecode := rcDecodeBit_ok hc h1 h2 hb (by rw [hs.rest, List.length_append]; exact Nat.le_add_right_of_le hlen)
  rw [← takenPart, hs.rest, List.take_append_of_le_length hlen, hs.code, foldl_window_append _ hT] at hdecode
  refine ⟨_, hdecode, ⟨hT, rfl, ?_⟩, rfl⟩
  rw [unread_advance, hs.rest, List.drop_append_of_le_length hlen, List.drop_drop, Nat.add_comm, ← List.drop_drop,
    List.drop_left]

/-! ### A list of bits (R95) -/

/-- The interval after coding a list of bits. -/
def codedInterval : List (Bool × Nat) → Coder → Coder
  | [], c => c
  | x :: l, c => codedInterval l (renormed 2 (takenPart x.1 x.2 c))

/-- The bytes that coding a list of bits emits, the flush apart. -/
def emitted : List (Bool × Nat) → Coder → List Byte
  | [], _ => []
  | x :: l, c => spilled 2 (takenPart x.1 x.2 c) ++ emitted l (renormed 2 (takenPart x.1 x.2 c))

/-- The whole stream of a list of bits, the flush included. -/
def streamOf (l : List (Bool × Nat)) (c : Coder) : List Byte := emitted l c ++ wordBytes (codedInterval l c).low

theorem streamOf_cons (x : Bool × Nat) (l : List (Bool × Nat)) (c : Coder) :
    streamOf (x :: l) c =
      spilled 2 (takenPart x.1 x.2 c) ++ streamOf l (renormed 2 (takenPart x.1 x.2 c)) :=
  List.append_assoc ..

theorem streamOf_length (l : List (Bool × Nat)) (c : Coder) : (streamOf l c).length = (emitted l c).length + 4 :=
  List.length_append

/-! The encoder reads `low` and `range` only. -/

theorem takenPart_set_code (bit : Bool) (p : Nat) (c : Coder) (v : Word) :
    takenPart bit p { c with code := v } = { takenPart bit p c with code := v } := by
  cases bit <;> rfl

theorem renormed_takenPart_set_code (bit : Bool) (p : Nat) (c : Coder) (v : Word) :
    renormed 2 (takenPart bit p { c with code := v }) = { renormed 2 (takenPart bit p c) with code := v } := by
  rw [takenPart_set_code, renormed_set_code]

theorem codedInterval_set_code (l : List (Bool × Nat)) (c : Coder) (v : Word) :
    codedInterval l { c with code := v } = { codedInterval l c with code := v } := by
  induction l generalizing c with
  | nil => rfl
  | cons x l ih => rw [codedInterval, codedInterval, renormed_takenPart_set_code, ih]

theorem emitted_set_code (l : List (Bool × Nat)) (c : Coder) (v : Word) : emitted l { c with code := v } = emitted l c := by
  induction l generalizing c with
  | nil => rfl
  | cons x l ih =>
    rw [emitted, emitted, renormed_takenPart_set_code, ih, takenPart_set_code, spilled_set_code]

theorem streamOf_set_code (l : List (Bool × Nat)) (c : Coder) (v : Word) :
    streamOf l { c with code := v } = streamOf l c := by
  rw [streamOf, streamOf, emitted_set_code, codedInterval_set_code]

/-- Every bit of the list has a legal probability. -/
abbrev ProbsLegal (l : List (Bool × Nat)) : Prop := ∀ x ∈ l, 1 ≤ x.2 ∧ x.2 ≤ 4095

/-- The encoder over a list of bits, whole: it never faults (R89, R95). -/
theorem encodeBits_eq {l : List (Bool × Nat)} (hp : ProbsLegal l) {s : State} (hc : IntervalOk s.coder) :
    encodeBits l s = .ok () { s with coder := codedInterval l s.coder, cout := s.cout ++ emitted l s.coder } := by
  induction l generalizing s with
  | nil => simp [encodeBits, codedInterval, emitted]
  | cons x l ih =>
    obtain ⟨⟨h1, h2⟩, hl⟩ := List.forall_mem_cons.1 hp
    have hok := renormed_takenPart_ok hc h1 h2 x.1
    rw [encodeBits, rcEncodeBit_eq hc h1 h2, bind_ok, ← takenPart]
    refine (ih hl hok).trans ?_
    simp [codedInterval, emitted]

/-- I3 (R93): the window of the stream to come lies in the interval it is coded from. -/
theorem streamOf_inInterval {l : List (Bool × Nat)} (hp : ProbsLegal l) {c : Coder} (hc : IntervalOk c) :
    InInterval (window (streamOf l c)) c := by
  induction l generalizing c with
  | nil =>
    have hr := hc.range_min
    rw [show streamOf [] c = wordBytes c.low from rfl, window_wordBytes, InInterval]
    omega
  | cons x l ih =>
    obtain ⟨⟨h1, h2⟩, hl⟩ := List.forall_mem_cons.1 hp
    have hlen : 4 ≤ (streamOf l (renormed 2 (takenPart x.1 x.2 c))).length := by rw [streamOf_length]; omega
    rw [streamOf_cons]
    exact inInterval_of_takenPart hc h1 h2 (inInterval_of_renormed 2 hlen (ih hl (renormed_takenPart_ok hc h1 h2 x.1)))

/-- Decoding what was encoded: the bits come back, the encoder's bytes and no others are read, and the registers end as the
encoder's, `code` at `low` (R95). -/
theorem decodeBits_follows {l : List (Bool × Nat)} (hp : ProbsLegal l) {extra : List Byte} {s : State}
    (hc : IntervalOk s.coder) (hs : Follows (streamOf l s.coder) extra s) :
    ∃ t, decodeBits (l.map Prod.snd) s = .ok (l.map Prod.fst) t ∧
      t.coder = { codedInterval l s.coder with code := (codedInterval l s.coder).low } ∧
      t.cinPos = s.cinPos + (emitted l s.coder).length := by
  induction l generalizing s with
  | nil =>
    have hcode : s.coder.code = s.coder.low := hs.code.trans (window_wordBytes s.coder.low)
    exact ⟨s, rfl, congrArg (fun v => { s.coder with code := v }) hcode, rfl⟩
  | cons x l ih =>
    obtain ⟨⟨h1, h2⟩, hl⟩ := List.forall_mem_cons.1 hp
    have hok := renormed_takenPart_ok hc h1 h2 x.1
    have hlen : 4 ≤ (streamOf l (renormed 2 (takenPart x.1 x.2 s.coder))).length := by rw [streamOf_length]; omega
    rw [streamOf_cons] at hs
    obtain ⟨t, hbit, hfollows, ht⟩ := rcDecodeBit_follows hc h1 h2 hlen (streamOf_inInterval hl hok) hs
    have hcoder : t.coder = _ := congrArg State.coder ht
    obtain ⟨u, hbits, hcoder', hpos⟩ := ih hl (s := t) (by rw [hcoder]; exact ⟨hok.range_min, hok.in_space⟩)
      (by rw [hcoder, streamOf_set_code]; exact hfollows)
    rw [hcoder, codedInterval_set_code] at hcoder'
    rw [hcoder, emitted_set_code, congrArg State.cinPos ht] at hpos
    refine ⟨u, ?_, hcoder', ?_⟩
    · rw [List.map_cons, decodeBits, hbit, bind_ok, hbits, bind_ok, List.map_cons]
    · rw [hpos, emitted, List.length_append, Nat.add_assoc]

theorem rcInit_intervalOk (s : State) : IntervalOk (rcInit s).coder := ⟨by simp, by simp⟩

/-- Settles O36: encoder and decoder start from one interval, the encoder's bytes with the flush are `streamOf`, and the decoder
stands before them once `RC.INIT_DEC` has run. -/
theorem coderRoundTrip : Obligations.CoderRoundTrip := by
  intro l s hp
  have henc := encodeBits_eq hp (s := { rcInit s with cout := [] }) (rcInit_intervalOk s)
  refine ⟨_, henc, fun d extra hcin hpos => ?_⟩
  have hflush : (rcFlush { rcInit s with
      coder := codedInterval l (rcInit s).coder, cout := [] ++ emitted l (rcInit s).coder }).cout =
        streamOf l (rcInit d).coder := rcFlush_appends _
  have hunread : unread (rcInit d) = streamOf l (rcInit d).coder ++ extra := by
    rw [unread, rcInit_cin, rcInit_cinPos, hpos, List.drop_zero, hcin]
    exact congrArg (· ++ extra) hflush
  obtain ⟨v, hinit, hfollows, hv⟩ := rcInitDec_follows (by rw [streamOf_length]; omega) hunread
  have hcoder : v.coder = { (rcInit d).coder with code := window (streamOf l (rcInit d).coder) } := congrArg State.coder hv
  have hvpos : v.cinPos = 4 := (congrArg State.cinPos hv).trans (congrArg (· + 4) hpos)
  have hok := rcInit_intervalOk d
  obtain ⟨u, hdec, hu, hupos⟩ := decodeBits_follows hp (s := v) (by rw [hcoder]; exact ⟨hok.range_min, hok.in_space⟩)
    (by rw [hcoder, streamOf_set_code]; exact hfollows)
  rw [hcoder, codedInterval_set_code] at hu
  rw [hcoder, emitted_set_code, hvpos] at hupos
  refine ⟨v, u, hinit, hdec, ?_, ?_, ?_, ?_⟩
  · refine Eq.trans ?_ (congrArg List.length hflush).symm
    rw [hupos, streamOf_length, Nat.add_comm]
  all_goals
    rw [hu]
    rfl

end Sys2Proof.Machine
end

section
/-! PROOFS. The context models of 42_models.md: the two counter models behind their gates (R102 to R105), the hash and its split
into slot and key (R106, R107), the slot (R108, R109, R111), the hashed model (R110, R114), the history roll (R112). -/

namespace Sys2Proof.Machine

/-! ### Table reads after a write (R33) -/

section
variable {s : State} (i : Nat)

theorem readO0_writeO0_same (h : s.mem.wf = true) (v : Prob) : readO0 (writeO0 i v s) i = v :=
  tabRead_tabWrite_same counterInit ((memory_wf_iff _).1 h).1 i v

theorem readO1_writeO1_same (h : s.mem.wf = true) (v : Prob) : readO1 (writeO1 i v s) i = v :=
  tabRead_tabWrite_same counterInit ((memory_wf_iff _).1 h).2.1 i v

theorem readHx_writeHx_same (h : s.mem.wf = true) (v : HxEntry) : readHx (writeHx i v s) i = v :=
  tabRead_tabWrite_same slotInit ((memory_wf_iff _).1 h).2.2 i v

variable {i} {a : Nat}

theorem readO0_writeO0_other (h : a ≠ i) (v : Prob) : readO0 (writeO0 i v s) a = readO0 s a :=
  tabRead_tabWrite_other counterInit s.mem.o0 v h

theorem readO1_writeO1_other (h : a ≠ i) (v : Prob) : readO1 (writeO1 i v s) a = readO1 s a :=
  tabRead_tabWrite_other counterInit s.mem.o1 v h

theorem readHx_writeHx_other (h : a ≠ i) (v : HxEntry) : readHx (writeHx i v s) a = readHx s a :=
  tabRead_tabWrite_other slotInit s.mem.hx v h

end

/-! ### The gates (R113): what a model does with too little history, and with enough -/

section
variable (b : Bool) {s : State}

theorem o1Predict_of_lt (h : s.hist.nbytes.toNat < 1) : o1Predict s = 2048 :=
  if_neg (by simpa [o1Active] using h)

theorem o1Predict_of_le (h : 1 ≤ s.hist.nbytes.toNat) : o1Predict s = readO1 s (o1Index s.hist.c1 s.node) :=
  if_pos (decide_eq_true h)

theorem o1Adapt_of_lt (h : s.hist.nbytes.toNat < 1) : o1Adapt b s = s :=
  if_neg (by simpa [o1Active] using h)

theorem o1Adapt_of_le (h : 1 ≤ s.hist.nbytes.toNat) : o1Adapt b s =
    writeO1 (o1Index s.hist.c1 s.node) (ctrUpdate (readO1 s (o1Index s.hist.c1 s.node)) b) s :=
  if_pos (decide_eq_true h)

theorem hxPredict_of_lt (h : s.hist.nbytes.toNat < 4) : hxPredict s = 2048 :=
  if_neg (by simpa [hxActive] using h)

theorem hxPredict_of_le (h : 4 ≤ s.hist.nbytes.toNat) : hxPredict s =
    slotPredict (readHx s (hxIndex s.hist.acc s.node)) (hxKey s.hist.acc s.node) :=
  if_pos (decide_eq_true h)

theorem hxAdapt_of_lt (h : s.hist.nbytes.toNat < 4) : hxAdapt b s = s :=
  if_neg (by simpa [hxActive] using h)

theorem hxAdapt_of_le (h : 4 ≤ s.hist.nbytes.toNat) : hxAdapt b s = writeHx (hxIndex s.hist.acc s.node)
    (slotAdapt (readHx s (hxIndex s.hist.acc s.node)) (hxKey s.hist.acc s.node) b) s :=
  if_pos (decide_eq_true h)

end

/-! ### The order-0 and order-1 models (R102 to R105) -/

/-- Settles O17: `O0.ADAPT` is one write of the order-0 table, at the node. -/
theorem order0PredictAdapt : Obligations.Order0PredictAdapt := fun s b hw =>
  ⟨rfl, readO0_writeO0_same s.node.toNat hw (ctrUpdate (readO0 s s.node.toNat) b),
    fun _ ha => readO0_writeO0_other ha (ctrUpdate (readO0 s s.node.toNat) b), rfl⟩

/-- Settles O18: behind its gate, `O1.ADAPT` is one write of the order-1 table, at `{c1, node}`. -/
theorem order1PredictAdapt : Obligations.Order1PredictAdapt := by
  intro s b hw
  refine ⟨fun hn => ⟨o1Predict_of_lt hn, o1Adapt_of_lt b hn⟩, fun hn => ?_⟩
  rw [o1Adapt_of_le b hn, ← o1Index_eq]
  exact ⟨o1Predict_of_le hn, readO1_writeO1_same _ hw _, fun _ ha => readO1_writeO1_other ha _, rfl⟩

/-! ### The hash (R106) -/

/-- The second step of the hash: XOR with the upper half. -/
def xorUpperHalf (m : Word) : Word := m ^^^ (m >>> 16)

/-- The hash is its two steps, one after the other. -/
theorem hxHash_eq_comp : hxHash = xorUpperHalf ∘ (· * 0x9E3779B1) := rfl

/-- Shifting by half the width twice leaves nothing, so the second step undoes itself. -/
theorem xorUpperHalf_involutive : Function.Involutive xorUpperHalf := fun m => by
  have htwice : m >>> 16 >>> 16 = 0 := by
    rw [← BitVec.shiftRight_add]
    exact BitVec.ushiftRight_eq_zero le_rfl
  simp [xorUpperHalf, BitVec.ushiftRight_xor_distrib, htwice]

/-- The multiplier is odd, so it has an inverse mod 2^32. -/
theorem hashMul_mul_inverse : (0x9E3779B1 : Word) * 0x0E8B2F51 = 1 := by decide

theorem mul_hashMul_bijective : Function.Bijective (fun acc : Word => acc * 0x9E3779B1) :=
  IsUnit.isUnit_iff_mulRight_bijective.1 (IsUnit.of_mul_eq_one _ hashMul_mul_inverse)

theorem hxHash_bijective : Function.Bijective hxHash :=
  xorUpperHalf_involutive.bijective.comp mul_hashMul_bijective

/-- The low bit of each byte of `acc`, set alone, already moves the low half of the hash. -/
theorem hxHash_low_depends_on_byte :
    ∀ k < 4, (hxHash 0).setWidth 16 ≠ (hxHash (BitVec.twoPow 32 (8 * k))).setWidth 16 := by decide

/-- Settles O19: both steps are bijections, and for byte `k` the values 0 and 2^(8k) differ in that byte only. -/
theorem hashIsBijective : Obligations.HashIsBijective := by
  refine ⟨fun _ => rfl, hxHash_bijective, fun k hk =>
    ⟨0, BitVec.twoPow 32 (8 * k), fun j _ hjk => ?_, hxHash_low_depends_on_byte k hk⟩⟩
  have hj : 8 * k ≠ j := by omega
  simp [BitVec.getLsbD_twoPow, hj]

/-! ### The lookup (R107) -/

section
variable (acc : Word) (node : BitVec 8)

/-- The node is below 2^16, so the key is the upper half of the hash itself. -/
theorem hxKey_eq : hxKey acc node = (hxHash acc).extractLsb' 16 16 := by
  have hnode : (node.setWidth 32).extractLsb' 16 16 = 0 := by
    have := node.isLt
    apply BitVec.eq_of_toNat_eq
    rw [BitVec.extractLsb'_toNat, BitVec.toNat_setWidth_of_le (by omega), Nat.shiftRight_eq_div_pow,
      Nat.div_eq_of_lt (by omega)]
    rfl
  rw [hxKey, hxContext, BitVec.extractLsb'_xor, hnode]
  exact BitVec.xor_zero

/-- The index is the lower half of the hash XOR the node. -/
theorem hxIndex_eq : hxIndex acc node = ((hxHash acc).extractLsb' 0 16 ^^^ node.setWidth 16).toNat := by
  rw [hxIndex, hxContext, BitVec.extractLsb'_xor, ← BitVec.setWidth_eq_extractLsb' (x := node.setWidth 32) (by omega),
    BitVec.setWidth_setWidth_of_le _ (by omega)]

/-- Key and index are the two halves of the context. -/
theorem hxKey_hxIndex_toNat : (hxKey acc node).toNat * 2 ^ 16 + hxIndex acc node = (hxContext acc node).toNat := by
  have := (hxContext acc node).isLt
  rw [hxKey, hxIndex, BitVec.extractLsb'_toNat, BitVec.extractLsb'_toNat, Nat.shiftRight_eq_div_pow, Nat.shiftRight_zero]
  omega

variable {node} {node' : BitVec 8}

/-- Under one hash, different nodes have different slots. -/
theorem hxIndex_inj : hxIndex acc node = hxIndex acc node' ↔ node = node' := by
  rw [hxIndex_eq, hxIndex_eq, BitVec.toNat_inj, BitVec.xor_right_inj, ← BitVec.toNat_inj, ← BitVec.toNat_inj,
    BitVec.toNat_setWidth_of_le (by omega), BitVec.toNat_setWidth_of_le (by omega)]

end

/-- Settles O20: the node reaches the index only, and reaches it by an XOR. -/
theorem lookupSplitsContext : Obligations.LookupSplitsContext := fun acc node node' =>
  ⟨hxKey_hxIndex_toNat acc node, hxIndex_lt acc node, (hxKey_eq acc node).trans (hxKey_eq acc node').symm, hxIndex_inj acc⟩

/-! ### The slot (R108, R109, R111) -/

/-- On a natural number the clamp to the legal probabilities is a minimum and a maximum. -/
theorem legalProb_natCast_toNat (n : Nat) : (legalProb (n : Int)).toNat = max 1 (min 4095 n) := by
  have h := legalProb_toNat n
  unfold clamp at h
  split at h
  · omega
  · split at h <;> omega

/-- Settles O21: the two branches of `HX.PROB`. -/
theorem countsGiveProbability : Obligations.CountsGiveProbability := by
  refine fun n0 n1 => ⟨fun hz => if_pos hz, fun hnz => ?_⟩
  rw [hxProb, if_neg hnz, legalProb_natCast_toNat]

section
variable {e : HxEntry} {key : BitVec 16} (b : Bool)

theorem hxMatch_iff {stored new : BitVec 16} : hxMatch stored new = true ↔ stored = new := beq_iff_eq

theorem slotAdapt_of_match (h : e.key = key) : slotAdapt e key b = countUp e b := if_pos (hxMatch_iff.2 h)

theorem slotAdapt_of_mismatch (h : e.key ≠ key) : slotAdapt e key b = freshSlot key b := if_neg (mt hxMatch_iff.1 h)

theorem slotPredict_of_match (h : e.key = key) : slotPredict e key = hxProb e.count0 e.count1 :=
  if_pos (hxMatch_iff.2 h)

theorem slotPredict_of_mismatch (h : e.key ≠ key) : slotPredict e key = 2048 := if_neg (mt hxMatch_iff.1 h)

variable (e)

/-- The counts after one more bit, with the increments as numbers. -/
theorem countUp_eq : countUp e b =
    if 255 < e.count0.toNat + (1 - b.toNat) ∨ 255 < e.count1.toNat + b.toNat then
      { e with count0 := BitVec.ofNat 8 ((e.count0.toNat + (1 - b.toNat)) / 2)
               count1 := BitVec.ofNat 8 ((e.count1.toNat + b.toNat) / 2) }
    else { e with count0 := BitVec.ofNat 8 (e.count0.toNat + (1 - b.toNat))
                  count1 := BitVec.ofNat 8 (e.count1.toNat + b.toNat) } := by
  cases b <;> rfl

theorem countUp_key : (countUp e b).key = e.key := by
  rw [countUp_eq]
  split <;> rfl

variable {e b}

/-- While both counts fit, the bit's count goes up by 1. -/
theorem countUp_counts (h : e.count0.toNat + (1 - b.toNat) ≤ 255 ∧ e.count1.toNat + b.toNat ≤ 255) :
    (countUp e b).count0.toNat = e.count0.toNat + (1 - b.toNat) ∧ (countUp e b).count1.toNat = e.count1.toNat + b.toNat := by
  obtain ⟨h0, h1⟩ := h
  rw [countUp_eq, if_neg (by omega)]
  exact ⟨Nat.mod_eq_of_lt (by omega), Nat.mod_eq_of_lt (by omega)⟩

/-- When a count would pass 255 both are halved; the halves fit again. -/
theorem countUp_halved (h : 255 < e.count0.toNat + (1 - b.toNat) ∨ 255 < e.count1.toNat + b.toNat) :
    (countUp e b).count0.toNat = (e.count0.toNat + (1 - b.toNat)) / 2 ∧
    (countUp e b).count1.toNat = (e.count1.toNat + b.toNat) / 2 := by
  have h0 := e.count0.isLt
  have h1 := e.count1.isLt
  have hb := b.toNat_le
  rw [countUp_eq, if_pos h]
  exact ⟨Nat.mod_eq_of_lt (by omega), Nat.mod_eq_of_lt (by omega)⟩

variable (e key b)

theorem freshSlot_key : (freshSlot key b).key = key := by
  cases b <;> rfl

/-- Counted up or claimed, a slot belongs to the key that adapted it. -/
theorem slotAdapt_key : (slotAdapt e key b).key = key := by
  by_cases h : e.key = key
  · rw [slotAdapt_of_match b h, countUp_key, h]
  · rw [slotAdapt_of_mismatch b h, freshSlot_key]

end

/-- Settles O22: under a matching key the slot counts up, under another it is claimed. -/
theorem slotAdaptLaw : Obligations.SlotAdaptLaw := by
  refine fun e key b => ⟨hxMatch_iff, fun hkey => ⟨slotAdapt_key e key b, ?_⟩, slotAdapt_of_mismatch b⟩
  rw [slotAdapt_of_match b hkey]
  exact ⟨countUp_counts, countUp_halved⟩

/-! ### The hashed model (R110, R111, R114) -/

/-- Settles O23: behind its gate, `HX.PREDICT` reads the slot of the lookup and `HX.ADAPT` is one write to it. -/
theorem hashedPredictAdapt : Obligations.HashedPredictAdapt := by
  intro s b hw
  refine ⟨fun hn => ⟨hxPredict_of_lt hn, hxAdapt_of_lt b hn⟩, ?_⟩
  rintro hn a key e rfl rfl rfl
  rw [hxPredict_of_le hn, hxAdapt_of_le b hn]
  exact ⟨slotPredict_of_match, slotPredict_of_mismatch, readHx_writeHx_same _ hw _,
    fun _ ha => readHx_writeHx_other ha _, rfl⟩

/-- After an adapt the slot carries the adapting context's key. -/
theorem readHx_hxAdapt_key {s : State} (hw : s.mem.wf = true) (hn : 4 ≤ s.hist.nbytes.toNat) (b : Bool) :
    (readHx (hxAdapt b s) (hxIndex s.hist.acc s.node)).key = hxKey s.hist.acc s.node := by
  rw [hxAdapt_of_le b hn, readHx_writeHx_same _ hw, slotAdapt_key]

/-- Once the context of `s` has adapted, a context `t` with the same slot and another key is unseen: its history was evicted. -/
theorem hxPredict_of_evicted {s t : State} {b : Bool} (hw : s.mem.wf = true) (hn : 4 ≤ s.hist.nbytes.toNat)
    (hmem : t.mem = (hxAdapt b s).mem) (hindex : hxIndex t.hist.acc t.node = hxIndex s.hist.acc s.node)
    (hkey : hxKey t.hist.acc t.node ≠ hxKey s.hist.acc s.node) : hxPredict t = 2048 := by
  by_cases ht : 4 ≤ t.hist.nbytes.toNat
  · have hread : readHx t (hxIndex t.hist.acc t.node) = readHx (hxAdapt b s) (hxIndex s.hist.acc s.node) := by
      rw [hindex, readHx, hmem, readHx]
    rw [hxPredict_of_le ht, hread]
    refine slotPredict_of_mismatch ?_
    rw [readHx_hxAdapt_key hw hn]
    exact hkey.symm
  · exact hxPredict_of_lt (by omega)

/-- Settles O24: an eviction each way, the second from the state in which the other context adapts. -/
theorem collisionEvicts : Obligations.CollisionEvicts := by
  intro s acc' node' b b' hw hn hindex hkey other
  have hother : 4 ≤ (other (hxAdapt b s)).hist.nbytes.toNat := by
    simpa only [other, hxAdapt_hist] using hn
  exact ⟨hxPredict_of_evicted hw hn rfl hindex hkey,
    hxPredict_of_evicted (s := other (hxAdapt b s)) (b := b') (hxAdapt_memory_wf hw b) hother rfl hindex.symm hkey.symm⟩

/-! ### The history roll (R112) -/

/-- Settles O25: the byte is shifted into `acc`, and the count stops at 4. -/
theorem updateContextRolls : Obligations.UpdateContextRolls := fun c s =>
  ⟨{ c1 := rfl
     acc := shiftInByte_toNat s.hist.acc c
     nbytes := Nat.mod_eq_of_lt (by simp only [Config.histBytes]; omega) }, rfl⟩

end Sys2Proof.Machine
end

section
/-! PROOFS. The mixer of 43_mixer.md: its inputs (R122), the combined probability (R123), the learning step (R124), and where it
stops outside its contract (R125). -/

namespace Sys2Proof.Machine

/-! ### The inputs (R122) -/

/-- The four values of `nadd` (R23). -/
theorem nadd_cases (n : BitVec 2) : n = 0 ∨ n = 1 ∨ n = 2 ∨ n = 3 := by
  revert n
  decide

section
variable {s : State} (x : Prob)

theorem mxAdd_first (h : s.mixer.nadd = 0) :
    mxAdd x s = .ok () { s with mixer := { s.mixer with st0 := x, nadd := 1 } } := by
  simp [mxAdd, h]

theorem mxAdd_second (h : s.mixer.nadd = 1) :
    mxAdd x s = .ok () { s with mixer := { s.mixer with st1 := x, nadd := 2 } } := by
  simp [mxAdd, h]

theorem mxAdd_third (h : s.mixer.nadd = 2) :
    mxAdd x s = .ok () { s with mixer := { s.mixer with st2 := x, nadd := 3 } } := by
  simp [mxAdd, h]

theorem mxAdd_fourth (h : s.mixer.nadd = 3) : mxAdd x s = .stuck .mixerSequence := by
  simp [mxAdd, h]

end

/-- Settles O26: the first three calls, one by one. -/
theorem mixerAddLatches : Obligations.MixerAddLatches := fun x _ => ⟨mxAdd_first x, mxAdd_second x, mxAdd_third x⟩

/-! ### The combined probability (R123) -/

/-- A weight's share of the sum, its input being at most `n`. -/
theorem abs_weight_mul_le (w : Word) {x n : Nat} (h : x ≤ n) : |w.toInt * (x : Int)| ≤ 2 ^ 31 * n := by
  have hw : |w.toInt| ≤ 2 ^ 31 := abs_le.2 ⟨w.le_toInt, w.toInt_lt.le⟩
  rw [abs_mul, Nat.abs_cast]
  exact mul_le_mul hw (by exact_mod_cast h) (Int.natCast_nonneg x) (by norm_num)

/-- Three latches below 4096 and the bias input 4096: four shares of at most 2^43 each. -/
theorem abs_mxSum_lt (m : Mixer) : |mxSum m| < 2 ^ 47 := by
  have h0 := abs_le.1 (abs_weight_mul_le m.w0 m.st0.isLt.le)
  have h1 := abs_le.1 (abs_weight_mul_le m.w1 m.st1.isLt.le)
  have h2 := abs_le.1 (abs_weight_mul_le m.w2 m.st2.isLt.le)
  have h3 := abs_le.1 (abs_weight_mul_le m.w3 (le_refl Config.biasIn))
  rw [abs_lt, mxSum]
  simp only [Config.biasIn] at h3 ⊢
  omega

/-- The mixer's output as a number: half a step is added before the floor, so that it rounds to nearest (R80). -/
theorem mxOutput_toNat (m : Mixer) :
    ((mxOutput m).toNat : Int) = clamp ⌊((mxSum m + 8388608 : Int) : ℚ) / 2 ^ 24⌋ 1 4095 := by
  rw [← floorShiftIsFloor]
  exact legalProb_toNat _

/-- `MX.GET` on three inputs, whole (R123). -/
theorem mxGet_eq {s : State} (h : s.mixer.nadd = 3) :
    mxGet s = .ok (mxOutput s.mixer) { s with mixer := { s.mixer with pr := mxOutput s.mixer } } := if_pos h

/-- Settles O27: the sum is `mxSum`, the probability `mxOutput`. -/
theorem mixerGetLaw : Obligations.MixerGetLaw := fun s h =>
  ⟨mxOutput s.mixer, mxSum s.mixer, rfl, abs_mxSum_lt s.mixer, mxOutput_toNat s.mixer, mxGet_eq h⟩

/-! ### The learning step (R124) -/

/-- Saturation as a maximum and a minimum (R75). -/
theorem sat32_eq (v : Int) : sat32 v = max (-2147483648) (min 2147483647 v) := by
  simp only [sat32, clamp, Config.wMin, Config.wMax]
  split
  · omega
  · split <;> omega

/-- A weight's step moves it by the floored increment (R71, R124). -/
theorem weightStep_toInt_floor (w : Word) (e : Int) (x : Nat) : (weightStep w e x).toInt =
    max (-2147483648) (min 2147483647 (w.toInt + ⌊((e * x : Int) : ℚ) / 1024⌋)) := by
  rw [weightStep_toInt, sat32_eq, floorShiftIsFloor, show (2 : ℚ) ^ Config.lrShift = 1024 by norm_num]

/-- The bias input is 4 times the divisor, so the bias moves by exactly 4 times the error (R124). -/
theorem weightStep_bias_toInt (w : Word) (e : Int) :
    (weightStep w e Config.biasIn).toInt = max (-2147483648) (min 2147483647 (w.toInt + 4 * e)) := by
  have hshift : floorShift (e * (Config.biasIn : Int)) Config.lrShift = 4 * e := by
    simp only [floorShift, Config.biasIn, Config.lrShift]
    omega
  rw [weightStep_toInt, sat32_eq, hshift]

theorem mxError_eq (bit : Bool) (pr : Prob) : mxError bit pr = (if bit then 4096 else 0) - (pr.toNat : Int) := rfl

/-- Settles O28: the four weights of `mxLearned`, each by its step. -/
theorem mixerUpdateLaw : Obligations.MixerUpdateLaw := by
  refine fun b s h => ⟨_, mxUpdate_eq b h, fun E hE => ?_⟩
  rw [← mxError_eq] at hE
  subst hE
  exact ⟨weightStep_toInt_floor _ _ _, weightStep_toInt_floor _ _ _, weightStep_toInt_floor _ _ _,
    weightStep_bias_toInt _ _, rfl⟩

/-! ### Outside the contract (R125) -/

section
variable {s : State}

theorem mxGet_stuck (h : s.mixer.nadd ≠ 3) : mxGet s = .stuck .mixerSequence := if_neg h

theorem mxUpdate_stuck (b : Bool) (h : s.mixer.nadd ≠ 3) : mxUpdate b s = .stuck .mixerSequence := if_neg h

/-- With an input latched already, one of the three `MX.ADD` of a bit is the fourth. -/
theorem predictMix_stuck (h : s.mixer.nadd ≠ 0) : predictMix s = .stuck .mixerSequence := by
  rcases nadd_cases s.mixer.nadd with h0 | h1 | h2 | h3
  · exact absurd h0 h
  · rw [predictMix, mxAdd_second _ h1, bind_ok, mxAdd_third _ rfl, bind_ok, mxAdd_fourth _ rfl, bind_stuck]
  · rw [predictMix, mxAdd_third _ h2, bind_ok, mxAdd_fourth _ rfl, bind_stuck]
  · rw [predictMix, mxAdd_fourth _ h3, bind_stuck]

theorem bitStep_stuck (h : s.mixer.nadd ≠ 0) (dir : Dir) (bIn : Bool) : bitStep dir bIn s = .stuck .mixerSequence := by
  rw [bitStep, predictMix_stuck h, bind_stuck]

/-- A byte stops in its first bit. -/
theorem codeByte_stuck (h : s.mixer.nadd ≠ 0) (dir : Dir) (c : Byte) : codeByte dir c s = .stuck .mixerSequence := by
  rw [codeByte, codeBits, bitStep_stuck h, bind_stuck, bind_stuck]

theorem encByteBody_stuck (h : s.mixer.nadd ≠ 0) (c : Byte) : encByteBody c s = .stuck .mixerSequence := by
  rw [encByteBody, encodeByte, codeByte_stuck h, bind_stuck, bind_stuck]

end

/-- Settles O29: each procedure by its guard, and ENC_BYTE, legal in the mode, by its first bit. -/
theorem mixerOutsideContractStops : Obligations.MixerOutsideContractStops := by
  refine fun x b s => ⟨mxAdd_fourth x, fun h => ⟨mxGet_stuck h, mxUpdate_stuck b h⟩, fun hm h c => ?_⟩
  rw [exec_eq]
  exact runCommand_stuck (by simp [hm]) (by simp [hm, legalModes]) (encByteBody_stuck h c)

end Sys2Proof.Machine
end

section
/-! PROOFS. The bit step and the byte of 44_driving_loop.md section 1: the node (R131), the order of the bit step (R130), the
byte as eight bit steps (R132) and what it teaches the tables (R44). What a byte does to the part of the state that encoder and
decoder share is `codedBits`, one function for both directions. -/

namespace Sys2Proof.Machine

/-! ### The node (R131) -/

/-- Settles O37: the two branches of the advance, on the 9-bit value as a number. -/
theorem nodeAdvanceLaw : Obligations.NodeAdvanceLaw := by
  intro b s
  have hnext : (nextNode s.node b).toNat = s.node.toNat * 2 + b.toNat := by
    rw [nextNode_toNat, Nat.mul_comm]
  refine ⟨hnext, rfl, fun hlt => ?_, fun hge => ?_⟩
  · rw [nodeAdvance_node, advanced, if_pos hlt, BitVec.toNat_setWidth, hnext]
    omega
  · rw [nodeAdvance_node, advanced, if_neg (by omega)]

/-! ### The order of the bit step (R130) -/

/-- A completed decoder's loop has written the coder's registers and the read position only (R90). -/
theorem renormDec_frame {n : Nat} {s t : State} (h : renormDec n s = .ok () t) :
    t = { s with coder := t.coder, cinPos := t.cinPos } := by
  rcases Nat.lt_or_ge (unread s).length (spilled n s.coder).length with hlt | hge
  · obtain ⟨c, hc⟩ := renormDec_underrun n s hlt
    cases hc.symm.trans h
  · cases (renormDec_ok n s hge).symm.trans h
    rfl

/-- A completed split has changed nothing (R86). -/
theorem rcSplit_eq_ok {p : Nat} {r1 : Word} {s t : State} (h : rcSplit p s = .ok r1 t) : t = s := by
  rw [rcSplit] at h
  split at h <;> cases h
  rfl

/-- A completed narrowing has written the interval only (R87). -/
theorem rcNarrow_eq_ok {b : Bool} {r1 : Word} {s t : State} (h : rcNarrow b r1 s = .ok () t) :
    t = { s with coder := narrowed b r1 s.coder } := by
  rw [rcNarrow_eq] at h
  split at h <;> cases h
  rfl

/-- Code-bit, where it completes, has written the coder's registers and the streams only; the encoder's bit is the one given
(R89, R90, R130). -/
theorem codeBit_frame {dir : Dir} {bIn b : Bool} {p : Nat} {s t : State} (h : codeBit dir bIn p s = .ok b t) :
    (dir = .enc → b = bIn) ∧ t = { s with coder := t.coder, cout := t.cout, cinPos := t.cinPos } := by
  cases dir with
  | enc =>
    obtain ⟨_, u, henc, hend⟩ := bind_eq_ok _ h
    obtain ⟨r1, v, hsplit, hrest⟩ := bind_eq_ok _ henc
    obtain ⟨_, w, hnarrow, hloop⟩ := bind_eq_ok _ hrest
    cases rcSplit_eq_ok hsplit
    cases rcNarrow_eq_ok hnarrow
    rw [renormEnc_eq] at hloop
    cases hloop
    cases hend
    exact ⟨fun _ => rfl, rfl⟩
  | dec =>
    obtain ⟨r1, v, hsplit, hrest⟩ := bind_eq_ok _ h
    obtain ⟨_, w, hnarrow, hloops⟩ := bind_eq_ok _ hrest
    obtain ⟨_, x, hloop, hend⟩ := bind_eq_ok _ hloops
    cases rcSplit_eq_ok hsplit
    cases rcNarrow_eq_ok hnarrow
    cases hend
    exact ⟨(nomatch ·), by rw [renormDec_frame hloop]⟩

/-- A bit step from between bit steps, once its bit is coded: adapt-all, the mixer's step and the node's advance (R130). -/
theorem bitStep_of_codeBit {dir : Dir} {bIn b : Bool} {s u : State} (hn : s.mixer.nadd = 0)
    (hcode : codeBit dir bIn (bitProb s).toNat (mixed s) = .ok b u) :
    bitStep dir bIn s = .ok (b, nextNode s.node b) (bitEnd b u) := by
  obtain ⟨-, hu⟩ := codeBit_frame hcode
  have hnadd : (adaptModels b u).mixer.nadd = 3 := by rw [hu, adaptModels_mixer]; rfl
  have hnode : nextNode (adaptModels b u).node b = nextNode s.node b := by rw [hu, adaptModels_node]; rfl
  rw [bitStep, predictMix_eq hn, bind_ok, hcode, bind_ok, mxUpdate_eq b hnadd, bind_ok, adaptModels_mixer, ← hnode]
  rfl

/-- A completed bit step from between bit steps, taken apart: predict-all and mix, code-bit, then the rest of the step (R130). -/
theorem bitStep_eq_ok {dir : Dir} {bIn : Bool} {s t : State} {r : Bool × BitVec 9} (hn : s.mixer.nadd = 0)
    (h : bitStep dir bIn s = .ok r t) :
    ∃ b u, codeBit dir bIn (bitProb s).toNat (mixed s) = .ok b u ∧ r = (b, nextNode s.node b) ∧ t = bitEnd b u := by
  have hstep := h
  rw [bitStep, predictMix_eq hn, bind_ok] at hstep
  obtain ⟨b, u, hcode, -⟩ := bind_eq_ok _ hstep
  cases (bitStep_of_codeBit hn hcode).symm.trans h
  exact ⟨b, u, hcode, rfl, rfl⟩

/-- Settles O38: `bitStep_eq_ok`, with the adapts and the mixer's step read on the state before the coder ran. -/
theorem bitStepFollowsOrder : Obligations.BitStepFollowsOrder := by
  intro dir bIn s t r hn h
  obtain ⟨b, u, hcode, hr, rfl⟩ := bitStep_eq_ok hn h
  obtain ⟨hbit, hu⟩ := codeBit_frame hcode
  have hmem : (adaptModels b u).mem = (adaptModels b s).mem := by
    rw [hu]; exact adaptModels_mem_congr b rfl rfl rfl
  have hmixer : u.mixer = (mixed s).mixer := by rw [hu]
  have hnode : u.node = s.node := by rw [hu]; rfl
  refine ⟨latched s, bitProb s, mixed s, rfl, mxGet_eq rfl, rfl, b, u, hcode, hbit, hr, bitEnd_coder b u, bitEnd_cout b u,
    bitEnd_cinPos b u, hmem, ?_, ?_, ?_⟩
  · rw [bitEnd_mixer, hmixer]
    exact mxUpdate_eq b rfl
  · rw [bitEnd_node, nodeAdvance_node, hnode]
  · rw [hu]
    apply State.ext <;> simp [mixed]

/-! ### The byte as eight bit steps (R132) -/

/-- Running procedures in sequence is associative (R6). -/
theorem bind_assoc {α β γ : Type} (x : Result α) (f : α → State → Result β) (g : β → State → Result γ) :
    (x.bind f).bind g = x.bind fun a s => (f a s).bind g := by
  cases x <;> rfl

/-- Settles O39: the loop of `CODE_BYTE` unrolled. -/
theorem byteIsEightBitSteps : Obligations.ByteIsEightBitSteps := by
  intro dir c s
  simp only [codeByte, codeBits, bind_assoc, bind_ok]
  rfl

/-! ### Lockstep (R145): the part of the state that both directions share -/

theorem InLockstep.refl (s : State) : InLockstep s s := ⟨rfl, rfl, rfl, rfl, rfl, rfl, rfl, rfl, rfl, rfl⟩

theorem InLockstep.symm {s t : State} (h : InLockstep s t) : InLockstep t s :=
  ⟨h.node.symm, h.hist.symm, h.mem.symm, h.w0.symm, h.w1.symm, h.w2.symm, h.w3.symm, h.nadd.symm, h.low.symm, h.range.symm⟩

theorem InLockstep.trans {s t u : State} (h : InLockstep s t) (g : InLockstep t u) : InLockstep s u :=
  ⟨h.node.trans g.node, h.hist.trans g.hist, h.mem.trans g.mem, h.w0.trans g.w0, h.w1.trans g.w1, h.w2.trans g.w2,
    h.w3.trans g.w3, h.nadd.trans g.nadd, h.low.trans g.low, h.range.trans g.range⟩

/-- The three predictions are of the node, the history and the tables (R102, R104, R110). -/
theorem predict_congr {s t : State} (hn : s.node = t.node) (hh : s.hist = t.hist) (hm : s.mem = t.mem) :
    o0Predict s = o0Predict t ∧ o1Predict s = o1Predict t ∧ hxPredict s = hxPredict t := by
  have h1 : o1Active s = o1Active t := by rw [o1Active, o1Active, hh]
  have h2 : hxActive s = hxActive t := by rw [hxActive, hxActive, hh]
  simp only [o0Predict, o1Predict, hxPredict, readO0, readO1, readHx, h1, h2, hn, hh, hm, and_self]

/-- In lockstep the next bit has one probability (R115, R123). -/
theorem InLockstep.bitProb {e d : State} (h : InLockstep e d) : bitProb e = bitProb d := by
  obtain ⟨h0, h1, h2⟩ := predict_congr h.node h.hist h.mem
  simp only [Machine.bitProb, mxOutput, mxSum, latched, h.w0, h.w1, h.w2, h.w3, h0, h1, h2]

/-- In lockstep the mixer holds the same after predict-all and mix: every latch is written before it is read (R23). -/
theorem InLockstep.mixed_mixer {e d : State} (h : InLockstep e d) : (mixed e).mixer = (mixed d).mixer := by
  obtain ⟨h0, h1, h2⟩ := predict_congr h.node h.hist h.mem
  simp only [mixed, latched, h.w0, h.w1, h.w2, h.w3, h0, h1, h2, h.bitProb]

/-- In lockstep the coders differ in `code` only. -/
theorem InLockstep.coder {e d : State} (h : InLockstep e d) : e.coder = { d.coder with code := e.coder.code } :=
  Coder.ext h.low h.range rfl

/-- Adapt-all and the node's advance keep the lockstep. -/
theorem inLockstep_bitEnd (b : Bool) {u v : State} (hn : u.node = v.node) (hh : u.hist = v.hist) (hm : u.mem = v.mem)
    (hx : u.mixer = v.mixer) (hl : u.coder.low = v.coder.low) (hr : u.coder.range = v.coder.range) :
    InLockstep (bitEnd b u) (bitEnd b v) := by
  refine ⟨?_, ?_, adaptModels_mem_congr b hn hh hm, ?_, ?_, ?_, ?_, rfl, ?_, ?_⟩ <;> simp [hn, hh, hx, hl, hr]

/-- One bit coded, the streams and `code` aside (R130). -/
def codedBit (b : Bool) (s : State) : State := bitEnd b { mixed s with coder := renormed 2 (bitInterval b s) }

/-- The bits `n - 1` down to 0 of the byte `c` coded, the streams and `code` aside (R132). -/
def codedBits (c : Byte) : Nat → State → State
  | 0, s => s
  | n + 1, s => codedBits c n (codedBit (operandBit c n) s)

/-- The bits `n - 1` down to 0 of the byte `c`, each with the probability it is coded with. -/
def bitPairs (c : Byte) : Nat → State → List (Bool × Nat)
  | 0, _ => []
  | n + 1, s => (operandBit c n, (bitProb s).toNat) :: bitPairs c n (codedBit (operandBit c n) s)

theorem codedBit_coder (b : Bool) (s : State) : (codedBit b s).coder = renormed 2 (takenPart b (bitProb s).toNat s.coder) :=
  bitEnd_coder ..

theorem codedBits_coder (c : Byte) (n : Nat) (s : State) :
    (codedBits c n s).coder = codedInterval (bitPairs c n s) s.coder := by
  induction n generalizing s with
  | zero => rfl
  | succ n ih => rw [codedBits, ih, codedBit_coder]; rfl

/-- The models and the mixer hand over legal probabilities only (R79). -/
theorem bitPairs_legal (c : Byte) (n : Nat) (s : State) : ProbsLegal (bitPairs c n s) := by
  induction n generalizing s with
  | zero => exact fun x hx => absurd hx List.not_mem_nil
  | succ n ih => exact List.forall_mem_cons.2 ⟨bitProb_legal s, ih _⟩

theorem InLockstep.codedBit {e d : State} (h : InLockstep e d) (b : Bool) : InLockstep (codedBit b e) (codedBit b d) := by
  have hpart : bitInterval b e = { bitInterval b d with code := e.coder.code } := by
    show takenPart b (Machine.bitProb e).toNat e.coder =
      { takenPart b (Machine.bitProb d).toNat d.coder with code := e.coder.code }
    rw [h.bitProb, ← takenPart_set_code, ← h.coder]
  have hcoder : renormed 2 (bitInterval b e) = { renormed 2 (bitInterval b d) with code := e.coder.code } := by
    rw [hpart, renormed_set_code]
  refine inLockstep_bitEnd b h.node h.hist h.mem h.mixed_mixer ?_ ?_
  · show (renormed 2 (bitInterval b e)).low = (renormed 2 (bitInterval b d)).low
    rw [hcoder]
  · show (renormed 2 (bitInterval b e)).range = (renormed 2 (bitInterval b d)).range
    rw [hcoder]

theorem InLockstep.codedBits {e d : State} (h : InLockstep e d) (c : Byte) (n : Nat) :
    InLockstep (codedBits c n e) (codedBits c n d) := by
  induction n generalizing e d with
  | zero => exact h
  | succ n ih => exact ih (h.codedBit _)

theorem InLockstep.bitPairs {e d : State} (h : InLockstep e d) (c : Byte) (n : Nat) : bitPairs c n e = bitPairs c n d := by
  induction n generalizing e d with
  | zero => rfl
  | succ n ih => rw [Machine.bitPairs, Machine.bitPairs, h.bitProb, ih (h.codedBit _)]

/-- Every completed bit step codes its bit, in either direction; the encoder emits what leaves `low` (R130). -/
theorem bitStep_codes {dir : Dir} {bIn : Bool} {s t : State} {r : Bool × BitVec 9} (h : BitOk s)
    (hr : bitStep dir bIn s = .ok r t) :
    InLockstep (codedBit r.1 s) t ∧ (dir = .enc → t.cout = s.cout ++ spilled 2 (bitInterval r.1 s)) := by
  cases dir with
  | enc =>
    cases (bitStep_enc_eq h.no_inputs h.interval bIn).symm.trans hr
    exact ⟨inLockstep_bitEnd bIn rfl rfl rfl rfl rfl rfl, fun _ => bitEnd_cout ..⟩
  | dec =>
    refine ⟨?_, fun hd => nomatch hd⟩
    rcases Nat.lt_or_ge (unread s).length (spilled 2 (bitInterval (decodedBit s) s)).length with hlt | hge
    · obtain ⟨c, hc⟩ := bitStep_dec_underrun h.no_inputs h.interval bIn hlt
      cases hc.symm.trans hr
    · cases (bitStep_dec_ok h.no_inputs h.interval bIn hge).symm.trans hr
      exact inLockstep_bitEnd (decodedBit s) rfl rfl rfl rfl rfl rfl

/-! ### The bits of a completed byte (R132) -/

/-- The 9-bit value, the node and the bit-level conditions after a completed bit step (R131). -/
theorem bitStep_next {dir : Dir} {bIn b : Bool} {n9 : BitVec 9} {s t : State} (h : BitOk s)
    (hr : bitStep dir bIn s = .ok (b, n9) t) : n9 = nextNode s.node b ∧ BitOk t ∧ t.node = advanced s.node b := by
  rcases bitStep_cases dir bIn h with ⟨b', u, hstep, hok, -, -, hnode, -⟩ | ⟨-, -, u, hstep, -⟩
  · cases hstep.symm.trans hr
    exact ⟨rfl, hok, hnode⟩
  · cases hstep.symm.trans hr

/-- The value returned by the last bit steps of a byte begins with the bits in the node before them. -/
theorem codeBits_quotient {dir : Dir} {c : Byte} {n : Nat} {n9 r : BitVec 9} {s t : State} (h : BitOk s) (h1 : 1 ≤ n)
    (h8 : n ≤ 8) (hn : NodeAt n s.node) (hr : codeBits dir c n n9 s = .ok r t) : r.toNat / 2 ^ n = s.node.toNat := by
  induction n generalizing s n9 with
  | zero => omega
  | succ n ih =>
    obtain ⟨⟨b, m9⟩, u, hstep, hrest⟩ := bind_eq_ok _ hr
    obtain ⟨rfl, hok, hnode⟩ := bitStep_next h hstep
    have hb := b.toNat_le
    rcases Nat.eq_zero_or_pos n with rfl | hpos
    · cases hrest
      rw [nextNode_toNat]
      omega
    · obtain ⟨hat, hval⟩ := nodeAt_advance hpos (by omega) hn b
      rw [← hnode] at hat hval
      rw [Nat.pow_succ, ← Nat.div_div_eq_div_mul, ih hok hpos (by omega) hat hrest, hval]
      omega

/-- The first of the bit steps that make up a completed run of `n + 1`: it codes bit `n` of the byte returned. -/
theorem codeBits_succ_eq_ok {dir : Dir} {c : Byte} {n : Nat} {n9 r : BitVec 9} {s t : State} (h : BitOk s) (h8 : n < 8)
    (hn : NodeAt (n + 1) s.node) (hr : codeBits dir c (n + 1) n9 s = .ok r t) :
    ∃ b u, bitStep dir (operandBit c n) s = .ok (b, nextNode s.node b) u ∧
      codeBits dir c n (nextNode s.node b) u = .ok r t ∧ BitOk u ∧ (0 < n → NodeAt n u.node) ∧
      operandBit (r.setWidth 8) n = b := by
  obtain ⟨⟨b, m9⟩, u, hstep, hrest⟩ := bind_eq_ok _ hr
  obtain ⟨rfl, hok, hnode⟩ := bitStep_next h hstep
  have hat (hpos : 0 < n) : NodeAt n u.node ∧ u.node.toNat = 2 * s.node.toNat + b.toNat := by
    rw [hnode]; exact nodeAt_advance hpos h8 hn b
  have hquot : r.toNat / 2 ^ n = 2 * s.node.toNat + b.toNat := by
    rcases Nat.eq_zero_or_pos n with rfl | hpos
    · cases hrest
      rw [nextNode_toNat, Nat.pow_zero, Nat.div_one]
    · rw [codeBits_quotient hok hpos (by omega) (hat hpos).1 hrest, (hat hpos).2]
  refine ⟨b, u, hstep, hrest, hok, fun hpos => (hat hpos).1, ?_⟩
  rw [operandBit, BitVec.getLsbD_setWidth, BitVec.getLsbD, Nat.testBit_eq_decide_div_mod_eq, hquot]
  cases b <;> simp [h8]

/-- The bytes that a list of bits emits are of `low` and `range`. -/
theorem InLockstep.emitted {e d : State} (h : InLockstep e d) (l : List (Bool × Nat)) :
    emitted l e.coder = emitted l d.coder := by
  rw [h.coder, emitted_set_code]

/-- Every completed run of bit steps codes the bits of the byte it returns, in either direction (R132). -/
theorem codeBits_codes {dir : Dir} {c : Byte} {n : Nat} {n9 r : BitVec 9} {s t : State} (h : BitOk s) (h8 : n ≤ 8)
    (hn : 0 < n → NodeAt n s.node) (hr : codeBits dir c n n9 s = .ok r t) :
    InLockstep (codedBits (r.setWidth 8) n s) t ∧
    (dir = .enc → t.cout = s.cout ++ emitted (bitPairs (r.setWidth 8) n s) s.coder) := by
  induction n generalizing s n9 with
  | zero => cases hr; exact ⟨.refl _, fun _ => (List.append_nil _).symm⟩
  | succ n ih =>
    obtain ⟨b, u, hstep, hrest, hok, hat, hbit⟩ := codeBits_succ_eq_ok h h8 (hn n.succ_pos) hr
    obtain ⟨hlock, hout⟩ := bitStep_codes h hstep
    obtain ⟨hlock', hout'⟩ := ih hok (by omega) hat hrest
    refine ⟨?_, fun hd => ?_⟩
    · rw [codedBits, hbit]
      exact (hlock.codedBits _ n).trans hlock'
    · rw [hout' hd, hout hd, bitPairs, hbit, ← hlock.bitPairs, ← hlock.emitted, codedBit_coder, List.append_assoc]
      rfl

/-- Every completed byte is coded, in either direction, as the byte it returns (R132). -/
theorem codeByte_codes {dir : Dir} {c r : Byte} {s t : State} (h : BitOk s) (hn : s.node = 1)
    (hr : codeByte dir c s = .ok r t) :
    InLockstep (codedBits r 8 s) t ∧ (dir = .enc → t.cout = s.cout ++ emitted (bitPairs r 8 s) s.coder) := by
  obtain ⟨n9, u, hbits, hend⟩ := bind_eq_ok _ hr
  cases hend
  exact codeBits_codes h le_rfl (fun _ => by rw [hn]; exact ⟨by decide, by decide⟩) hbits

/-! ### What a byte teaches (R44, R113) -/

/-- The first `k` bits of the byte `c` coded. -/
def afterBits (c : Byte) : Nat → State → State
  | 0, s => s
  | k + 1, s => codedBit (operandBit c (7 - k)) (afterBits c k s)

theorem codedBits_eq_afterBits (c : Byte) (s : State) : codedBits c 8 s = afterBits c 8 s := rfl

/-- Coding a bit teaches the tables what adapt-all teaches them (R103, R105, R111). -/
theorem codedBit_mem (b : Bool) (s : State) : (codedBit b s).mem = (adaptModels b s).mem :=
  adaptModels_mem_congr b rfl rfl rfl

theorem codedBit_hist (b : Bool) (s : State) : (codedBit b s).hist = s.hist := bitEnd_hist ..

theorem codedBit_node (b : Bool) (s : State) : (codedBit b s).node = advanced s.node b := bitEnd_node ..

theorem afterBits_hist (c : Byte) (k : Nat) (s : State) : (afterBits c k s).hist = s.hist := by
  induction k with
  | zero => rfl
  | succ k ih => rw [afterBits, codedBit_hist, ih]

theorem afterBits_memory_wf (c : Byte) (k : Nat) {s : State} (h : s.mem.wf = true) : (afterBits c k s).mem.wf = true := by
  induction k with
  | zero => exact h
  | succ k ih => rw [afterBits, codedBit_mem]; exact adaptModels_memory_wf ih _

/-- The node of bit `7 - k`, as a number: a leading 1 and the `k` bits before it (R15). -/
theorem nodeOf_toNat (c : Byte) {k : Nat} (hk : k < 8) :
    (nodeOf c k).toNat = 2 ^ k + c.toNat / 2 ^ (8 - k) ∧ c.toNat / 2 ^ (8 - k) < 2 ^ k := by
  have hlt : c.toNat / 2 ^ (8 - k) < 2 ^ k := by
    rw [Nat.div_lt_iff_lt_mul (Nat.two_pow_pos _), ← Nat.pow_add, Nat.add_sub_cancel' hk.le]
    exact c.isLt
  have hpow : 2 ^ (k + 1) ≤ 2 ^ 8 := Nat.pow_le_pow_right (by norm_num) hk
  rw [Nat.pow_succ] at hpow
  refine ⟨?_, hlt⟩
  rw [nodeOf, BitVec.toNat_ofNat, Nat.mod_eq_of_lt (by omega)]

theorem nodeOf_bounds (c : Byte) {k : Nat} (hk : k < 8) : 2 ^ k ≤ (nodeOf c k).toNat ∧ (nodeOf c k).toNat < 2 ^ (k + 1) := by
  obtain ⟨hval, hlt⟩ := nodeOf_toNat c hk
  rw [hval, Nat.pow_succ]
  exact ⟨Nat.le_add_right .., by omega⟩

theorem nodeOf_nodeAt (c : Byte) {k : Nat} (hk : k < 8) : NodeAt (8 - k) (nodeOf c k) := by
  rw [NodeAt, show 8 - (8 - k) = k by omega, show 9 - (8 - k) = k + 1 by omega]
  exact nodeOf_bounds c hk

/-- A bit moves from one node of a byte to the next (R131). -/
theorem advanced_nodeOf (c : Byte) {k : Nat} (hk : k < 7) : advanced (nodeOf c k) (operandBit c (7 - k)) = nodeOf c (k + 1) := by
  obtain ⟨hval, -⟩ := nodeOf_toNat c (show k < 8 by omega)
  obtain ⟨hval', -⟩ := nodeOf_toNat c (show k + 1 < 8 by omega)
  have hat := nodeOf_nodeAt c (show k < 8 by omega)
  rw [show 8 - k = (7 - k) + 1 by omega] at hat
  obtain ⟨-, hadv⟩ := nodeAt_advance (by omega) (by omega) hat (operandBit c (7 - k))
  apply BitVec.eq_of_toNat_eq
  rw [hadv, hval, hval', operandBit, BitVec.getLsbD, Nat.toNat_testBit, show 8 - k = (7 - k) + 1 by omega,
    show 8 - (k + 1) = 7 - k by omega, Nat.pow_succ 2 k, Nat.pow_succ 2 (7 - k), ← Nat.div_div_eq_div_mul]
  omega

theorem afterBits_node (c : Byte) {k : Nat} (hk : k < 8) {s : State} (h : s.node = 1) : (afterBits c k s).node = nodeOf c k := by
  induction k with
  | zero =>
    apply BitVec.eq_of_toNat_eq
    have hc := c.isLt
    rw [(nodeOf_toNat c hk).1, afterBits, h, Nat.div_eq_of_lt hc]
    rfl
  | succ k ih => rw [afterBits, codedBit_node, ih (by omega), advanced_nodeOf c (by omega)]

/-- The eight nodes of a byte are different (R15): the leading 1 stands at a different place in each. -/
theorem nodeOf_injective (c : Byte) {j k : Nat} (hj : j < 8) (hk : k < 8) (h : nodeOf c j = nodeOf c k) : j = k := by
  have hlog {m : Nat} (hm : m < 8) : Nat.log 2 (nodeOf c m).toNat = m :=
    Nat.log_eq_of_pow_le_of_lt_pow (nodeOf_bounds c hm).1 (nodeOf_bounds c hm).2
  rw [← hlog hj, h, hlog hk]

/-- Steps that each change one entry while `on`, at different places, and none while `off`, change each of those entries once and
no other. -/
theorem changes_once {α : Type} {read : Nat → Nat → α} {place : Nat → Nat} {change : Nat → α → α} {on off : Prop} {n : Nat}
    (hplace : ∀ j < n, ∀ k < n, place j = place k → j = k)
    (hnew : ∀ k < n, on → read (k + 1) (place k) = change k (read k (place k)))
    (hold : ∀ k < n, ∀ a, (off ∨ a ≠ place k) → read (k + 1) a = read k a) :
    (on → ∀ k < n, read n (place k) = change k (read 0 (place k))) ∧
    ∀ a, (off ∨ ∀ k < n, a ≠ place k) → read n a = read 0 a := by
  induction n with
  | zero => exact ⟨fun _ k hk => absurd hk k.not_lt_zero, fun _ _ => rfl⟩
  | succ n ih =>
    obtain ⟨inew, iold⟩ := ih (fun j hj k hk => hplace j (by omega) k (by omega)) (fun k hk => hnew k (by omega))
      (fun k hk => hold k (by omega))
    refine ⟨fun hon k hk => ?_, fun a ha => ?_⟩
    · rcases Nat.lt_succ_iff_lt_or_eq.1 hk with hlt | rfl
      · have hne : place k ≠ place n := fun he => hlt.ne (hplace k hk n n.lt_succ_self he)
        rw [hold n n.lt_succ_self _ (.inr hne), inew hon k hlt]
      · rw [hnew k hk hon, iold _ (.inr fun j hj he => hj.ne (hplace j (by omega) k hk he.symm))]
    · rw [hold n n.lt_succ_self a (ha.imp_right fun h => h n n.lt_succ_self), iold a (ha.imp_right fun h k hk => h k (by omega))]

/-- What coding a byte does to the reads of a table, from what adapt-all does to them: a table is `on` or `off` by the history,
which stands still during the byte (R44, R113). -/
theorem codedBits_read {α : Type} {read : State → Nat → α} {index : BitVec 8 → Nat} {change : BitVec 8 → Bool → α → α}
    {on off : Prop} (c : Byte) {s : State} (hn : s.node = 1) (hw : s.mem.wf = true)
    (hread : ∀ {t u : State}, t.mem = u.mem → ∀ a, read t a = read u a)
    (hindex : ∀ {m n : BitVec 8}, index m = index n → m = n)
    (hadapt : ∀ (b : Bool) {u : State}, u.mem.wf = true → u.hist = s.hist →
      (on → read (adaptModels b u) (index u.node) = change u.node b (read u (index u.node))) ∧
      ∀ a, (off ∨ a ≠ index u.node) → read (adaptModels b u) a = read u a) :
    (on → ∀ k < 8, read (codedBits c 8 s) (index (nodeOf c k)) =
      change (nodeOf c k) (operandBit c (7 - k)) (read s (index (nodeOf c k)))) ∧
    ∀ a, (off ∨ ∀ k < 8, a ≠ index (nodeOf c k)) → read (codedBits c 8 s) a = read s a := by
  have hstep (k : Nat) (hk : k < 8) := hadapt (operandBit c (7 - k)) (afterBits_memory_wf c k hw) (afterBits_hist c k s)
  have hmem (k : Nat) (a : Nat) : read (afterBits c (k + 1) s) a =
      read (adaptModels (operandBit c (7 - k)) (afterBits c k s)) a := hread (codedBit_mem ..) a
  rw [codedBits_eq_afterBits]
  refine changes_once (read := fun k => read (afterBits c k s)) (place := fun k => index (nodeOf c k))
    (change := fun k => change (nodeOf c k) (operandBit c (7 - k))) (fun j hj k hk he => nodeOf_injective c hj hk (hindex he))
    (fun k hk hon => ?_) (fun k hk a ha => ?_)
  · rw [hmem, ← afterBits_node c hk hn]
    exact (hstep k hk).1 hon
  · rw [hmem]
    rw [← afterBits_node c hk hn] at ha
    exact (hstep k hk).2 a ha

section
variable {s t : State} (h : s.mem = t.mem) (a : Nat)
include h

theorem readO0_congr : readO0 s a = readO0 t a := by rw [readO0, readO0, h]

theorem readO1_congr : readO1 s a = readO1 t a := by rw [readO1, readO1, h]

theorem readHx_congr : readHx s a = readHx t a := by rw [readHx, readHx, h]

end

theorem o1Index_inj {c1 : Byte} {m n : BitVec 8} (h : o1Index c1 m = o1Index c1 n) : m = n := by
  rw [o1Index_eq, o1Index_eq] at h
  exact BitVec.eq_of_toNat_eq (Nat.add_left_cancel h)

/-- Coding the bits of a byte teaches the tables its eight nodes (R44). -/
theorem tablesLearn_codedBits (c : Byte) {s : State} (hn : s.node = 1) (hw : s.mem.wf = true) :
    TablesLearn c s (codedBits c 8 s) := by
  obtain ⟨h0new, h0old⟩ := codedBits_read (read := readO0) (index := o0Index) (change := fun _ b v => ctrUpdate v b)
    (on := True) (off := False) c hn hw readO0_congr BitVec.eq_of_toNat_eq fun b u hu _ => by
      obtain ⟨hnew, hold⟩ := adaptModels_readO0 hu b
      exact ⟨fun _ => hnew, fun a ha => hold a (ha.resolve_left id)⟩
  obtain ⟨h1new, h1old⟩ := codedBits_read (read := readO1) (index := o1Index s.hist.c1) (change := fun _ b v => ctrUpdate v b)
    c hn hw readO1_congr o1Index_inj fun b u hu hh => hh ▸ adaptModels_readO1 hu b
  obtain ⟨hxnew, hxold⟩ := codedBits_read (read := readHx) (index := hxIndex s.hist.acc)
    (change := fun n b e => slotAdapt e (hxKey s.hist.acc n) b) c hn hw readHx_congr (hxIndex_inj s.hist.acc).1
    fun b u hu hh => hh ▸ adaptModels_readHx hu b
  exact ⟨h0new trivial, fun a ha => h0old a (.inr ha), h1new, h1old, hxnew, hxold⟩

/-- What a byte teaches is of the tables and the history. -/
theorem TablesLearn.congr {c : Byte} {s t u : State} (h : TablesLearn c s t) (hm : u.mem = t.mem) : TablesLearn c s u where
  o0_new k hk := (readO0_congr hm _).trans (h.o0_new k hk)
  o0_old a ha := (readO0_congr hm a).trans (h.o0_old a ha)
  o1_new hb k hk := (readO1_congr hm _).trans (h.o1_new hb k hk)
  o1_old a ha := (readO1_congr hm a).trans (h.o1_old a ha)
  hx_new hb k hk := (readHx_congr hm _).trans (h.hx_new hb k hk)
  hx_old a ha := (readHx_congr hm a).trans (h.hx_old a ha)

/-- A completed byte teaches the tables its eight nodes, in either direction (R44, R132). -/
theorem codeByte_tablesLearn {dir : Dir} {c r : Byte} {s t : State} (h : BitOk s) (hn : s.node = 1)
    (hr : codeByte dir c s = .ok r t) : TablesLearn r s t := by
  obtain ⟨hlock, -⟩ := codeByte_codes h hn hr
  exact (tablesLearn_codedBits r hn h.tables).congr hlock.mem.symm

/-- Settles O40: every completed byte is `codedBits` of the byte it returns (`codeByte_codes`), and the eight nodes are
different (`nodeOf_injective`). -/
theorem byteTeachesItsNodes : Obligations.ByteTeachesItsNodes := by
  intro dir c s h hw r t hr
  have hok := h.bitOk hw
  rcases codeByte_cases dir c hok h.node_start with ⟨r', t', hr', -, -, -, hnode, hbyte⟩ | ⟨-, -, t', hr', -⟩
  · cases hr.symm.trans hr'
    exact ⟨codeByte_tablesLearn hok h.node_start hr, hnode, hbyte⟩
  · cases hr.symm.trans hr'

end Sys2Proof.Machine
end

section
/-! PROOFS. The commands of 44_driving_loop.md section 2, one by one: NOP and the two STARTs (R135 to R137), the commands of an
encode stream (R138, R139), DEC_BYTE (R140), and that every command is answered (R143). -/

namespace Sys2Proof.Machine

/-! ### The port (R134) -/

/-- Settles O4: the step at a command word is the word's, and the word is its command's. -/
theorem stepRunsDecodedCommand : Obligations.StepRunsDecodedCommand := by
  intro s w rest i hin hw _
  rw [step_command hin, commandWord_ok hw]

/-- No command is legal in FAULT mode (R154). -/
theorem ne_fault_of_legal {i : Instr} {s : State} (h : s.mode ∈ legalModes i) : s.mode ≠ .fault := by
  intro hm
  rw [hm] at h
  cases i <;> simp [legalModes] at h

/-- A command that is legal in the mode and whose procedure completes answers (R134). -/
theorem exec_ok {i : Instr} {s t : State} {r : Reply} (h : s.mode ∈ legalModes i) (hb : commandBody i s = .ok r t) :
    exec i s = .next (respond r t) := by
  rw [exec_eq, runCommand_ok (ne_fault_of_legal h) h hb]

/-- A command that is legal in the mode and whose procedure raises enters FAULT mode (R134, R153). -/
theorem exec_raised {i : Instr} {s t : State} {f : FaultCode} (h : s.mode ∈ legalModes i)
    (hb : commandBody i s = .raised f t) : exec i s = .next (takeFault f t) := by
  rw [exec_eq, runCommand_raised (ne_fault_of_legal h) h hb]

/-- The response word is of the fault code, the mode and `eos` (R52). -/
theorem responseWord_congr (r : Reply) {s t : State} (hf : t.fault = s.fault) (hm : t.mode = s.mode) (he : t.eos = s.eos) :
    responseWord r t = responseWord r s := by
  rw [responseWord, responseWord, hf, hm, he]

/-- The response that is returned, with the three registers it is built from given (R52). -/
theorem respond_rsps_of {r : Reply} {s : State} {l : List RspWord} {f : BitVec 4} {m : Mode} {e : Bool} (hl : s.rsps = l)
    (hf : s.fault = f) (hm : s.mode = m) (he : s.eos = e) :
    (respond r s).rsps = l ++ [f ++ (m.code ++ (BitVec.ofBool e ++ (BitVec.ofBool r.dv ++ r.data)))] := by
  rw [respond_rsps, responseWord, hl, hf, hm, he]

/-! ### NOP and the STARTs (R133, R135, R136, R137) -/

/-- Settles O42: NOP is the common part over a procedure that does nothing. -/
theorem nopCompletes : Obligations.NopCompletes := by
  intro s h
  exact exec_ok (by simpa [legalModes] using h) rfl

/-- Every entry of the empty tables reads as `CM.INIT` writes it (R100). -/
theorem read_of_empty {s : State} (h : s.mem = ⟨[], [], []⟩) (a : Nat) :
    readO0 s a = 2048 ∧ readO1 s a = 2048 ∧ readHx s a = ⟨0, 0, 0⟩ := by
  rw [readO0, readO1, readHx, h]
  exact ⟨rfl, rfl, rfl⟩

/-- The weights of a new stream (R121). -/
theorem streamInit_weights (dir : Dir) (s : State) :
    (streamInit dir s).mixer.w0 = 5592405 ∧ (streamInit dir s).mixer.w1 = 5592405 ∧
    (streamInit dir s).mixer.w2 = 5592405 ∧ (streamInit dir s).mixer.w3 = 0 ∧ (streamInit dir s).mixer.nadd = 0 := by
  rw [streamInit_mixer]
  exact ⟨rfl, rfl, rfl, rfl, rfl⟩

/-- Settles O41: `STREAM_INIT` field by field; the directions differ in the stream they start. -/
theorem streamInitDefines : Obligations.StreamInitDefines := by
  rintro dir s t rfl
  obtain ⟨hw0, hw1, hw2, hw3, hnadd⟩ := streamInit_weights dir s
  refine ⟨streamInit_coder dir s, streamInit_hist dir s, read_of_empty (streamInit_mem dir s), streamInit_memory_wf dir s,
    ?_, ?_, ?_, ?_, hnadd, streamInit_node dir s, streamInit_eos dir s, ?_, ?_, streamInit_mode dir s, streamInit_fault dir s,
    streamInit_cin dir s, streamInit_inputs dir s, streamInit_rsps dir s⟩
  · rw [hw0]; decide
  · rw [hw1]; decide
  · rw [hw2]; decide
  · rw [hw3]; decide
  · rintro rfl; exact ⟨rfl, rfl⟩
  · rintro rfl; exact ⟨rfl, rfl⟩

/-- Settles O43: the procedure of START_ENC is `STREAM_INIT` and the mode. -/
theorem startEncCompletes : Obligations.StartEncCompletes := by
  intro s hm hf
  refine ⟨_, exec_ok (by simp [hm, legalModes]) rfl, rfl, hf, rfl, rfl, rfl, rfl,
    read_of_empty rfl, rfl, rfl, rfl, rfl, rfl, rfl, rfl, rfl, rfl, ?_⟩
  exact respond_rsps_of (f := 0) (m := .enc) (e := false) rfl hf rfl rfl

/-- START_DEC begins to read at the start of `cin` (R133, R137). -/
theorem unread_startDec (s : State) : unread { streamInit .dec s with mode := .dec } = s.cin :=
  List.drop_zero

theorem startDec_ok {s t : State} (h : rcInitDec { streamInit .dec s with mode := .dec } = .ok () t) :
    commandBody .startDec s = .ok Reply.none t := by
  rw [commandBody, startDecBody, h, bind_ok]

theorem startDec_raised {s t : State} {f : FaultCode}
    (h : rcInitDec { streamInit .dec s with mode := .dec } = .raised f t) : commandBody .startDec s = .raised f t := by
  rw [commandBody, startDecBody, h, bind_raised]

/-- Settles O44: four bytes are there for `RC.INIT_DEC`, which reads them into `code` (O34). -/
theorem startDecCompletes : Obligations.StartDecCompletes := by
  intro s b0 b1 b2 b3 l hm hf hcin
  have hfour := (initDecReadsFour { streamInit .dec s with mode := .dec }).1 b0 b1 b2 b3 l ((unread_startDec s).trans hcin)
  refine ⟨_, exec_ok (by simp [hm, legalModes]) (startDec_ok hfour), rfl, hf, rfl, rfl, rfl, rfl,
    read_of_empty rfl, rfl, rfl, rfl, rfl, rfl, rfl, rfl, rfl, rfl, ?_⟩
  exact respond_rsps_of (f := 0) (m := .dec) (e := false) rfl hf rfl rfl

/-- Settles O45: `RC.INIT_DEC` raises IN_UNDERRUN at the first missing byte (O34), with `eos` cleared already. -/
theorem startDecUnderrun : Obligations.StartDecUnderrun := by
  intro s hm hl
  have hlen : (unread { streamInit .dec s with mode := .dec }).length = s.cin.length := by rw [unread_startDec]
  obtain ⟨v, hv⟩ := (initDecReadsFour { streamInit .dec s with mode := .dec }).2 (hlen.trans_lt hl)
  have hpos : 0 + (unread { streamInit .dec s with mode := .dec }).length = s.cin.length := by rw [hlen, Nat.zero_add]
  refine ⟨_, exec_raised (by simp [hm, legalModes]) (startDec_raised hv), rfl, rfl, rfl, rfl, hpos, rfl, rfl, ?_⟩
  rw [takeFault_inUnderrun]
  rfl

/-! ### The commands of an encode stream (R138, R139) -/

/-- The byte is rolled into the history that stood still while it was coded (R112, R132). -/
theorem historyRolls_of_kept {c : Byte} {s u t : State} (h : Kept s u) (ht : t.hist = (updateContext c u).hist) :
    HistoryRolls c s t := by
  obtain ⟨hc1, hacc, hnb⟩ := (updateContextRolls c u).1
  rw [← ht, h.hist] at hacc hnb
  rw [← ht] at hc1
  exact ⟨hc1, hacc, hnb⟩

/-- ENC_BYTE from a well kept encode session (R138). -/
theorem exec_encByte {s : State} (hm : s.mode = .enc) (h : SessionOk s) (hw : s.mem.wf = true) (c : Byte) :
    ∃ u, exec (.encByte c) s = .next (respond Reply.none (updateContext c u)) ∧ codeByte .enc c s = .ok c u ∧ ByteRan .enc s u := by
  obtain ⟨u, hu, hbyte, hok, hk, hs, hn⟩ := encodeByte_cases c h hw
  have hbody : commandBody (.encByte c) s = .ok Reply.none (updateContext c u) := by
    rw [commandBody, encByteBody, hu, bind_ok]
  exact ⟨u, exec_ok (by simp [hm, legalModes]) hbody, hbyte, hok, hk, hs, hn⟩

/-- ENC_END from a well kept encode session (R139). -/
theorem exec_encEnd {s : State} (hm : s.mode = .enc) (h : SessionOk s) (hw : s.mem.wf = true) :
    ∃ u, exec .encEnd s = .next (respond Reply.none { rcFlush (updateContext 0 u) with eos := true, mode := .idle }) ∧
      codeByte .enc 0 s = .ok 0 u ∧ ByteRan .enc s u := by
  obtain ⟨u, hu, hbyte, hok, hk, hs, hn⟩ := encodeByte_cases 0 h hw
  have hbody : commandBody .encEnd s = .ok Reply.none { rcFlush (updateContext 0 u) with eos := true, mode := .idle } := by
    rw [commandBody, encEndBody, show BitVec.ofNat 8 Config.eosByte = 0 from rfl, hu, bind_ok]
  exact ⟨u, exec_ok (by simp [hm, legalModes]) hbody, hbyte, hok, hk, hs, hn⟩

/-- A byte encoded changes `node`, the interval, the tables, the mixer and `cout` only (R132). -/
theorem ByteRan.enc_frame {s u : State} (h : ByteRan .enc s u) :
    u = { s with
      node := u.node, coder := ⟨u.coder.low, u.coder.range, s.coder.code⟩, mem := u.mem, mixer := u.mixer, cout := u.cout } := by
  obtain ⟨-, hpos, hcode⟩ := h.streamed.enc rfl
  have hk := h.kept
  exact State.ext hk.mode hk.fault hk.eos rfl (Coder.ext rfl rfl hcode) hk.hist rfl rfl rfl hk.cin hpos hk.inputs hk.rsps hk.free

/-- Settles O46: the byte runs (`exec_encByte`), is learnt (O40), and the roll and the response follow. -/
theorem encByteCompletes : Obligations.EncByteCompletes := by
  intro c s hm h hw
  obtain ⟨u, hexec, hbyte, hran⟩ := exec_encByte hm h hw c
  obtain ⟨⟨bs, hlen, hout⟩, -⟩ := hran.streamed.enc rfl
  have hk := hran.kept
  have hlearn := codeByte_tablesLearn (h.bitOk hw) h.node_start hbyte
  have hstatus : responseWord Reply.none (updateContext c u) = statusWord s := responseWord_congr _ hk.fault hk.mode hk.eos
  refine ⟨respond Reply.none (updateContext c u), bs, hexec, ?_, historyRolls_of_kept hk rfl, hlearn.congr rfl,
    (sessionOk_of_byte c hran.ok hran.node).congr rfl rfl rfl rfl rfl, hran.ok.tables, hout, hlen, ?_, ?_⟩
  · rw [hbyte, ← hk.hist, ← hk.rsps]
    rfl
  · rw [respond_rsps, updateContext_rsps, hk.rsps, hstatus]
  · rw [hran.enc_frame]
    rfl

/-- Settles O47: the marker's byte runs (`exec_encEnd`), is learnt (O40), and the flush appends the four bytes of `low` (O35). -/
theorem encEndCompletes : Obligations.EncEndCompletes := by
  intro s hm h hw hf
  obtain ⟨u, hexec, hbyte, hran⟩ := exec_encEnd hm h hw
  obtain ⟨⟨bs, hlen, hout⟩, -, hcode⟩ := hran.streamed.enc rfl
  have hk := hran.kept
  have hlearn := codeByte_tablesLearn (h.bitOk hw) h.node_start hbyte
  obtain ⟨b0, b1, b2, b3, hlow, hflush⟩ := flushEmitsLow (updateContext 0 u)
  rw [hflush] at hexec
  refine ⟨_, u, bs, b0, b1, b2, b3, hexec, hbyte, hran.node, rfl, rfl, Coder.ext rfl rfl hcode,
    historyRolls_of_kept hk rfl, hlearn.congr rfl, hran.ok.tables, hout, hlen, hlow, ?_, ?_, ?_⟩
  · exact congrArg (· ++ [b0, b1, b2, b3]) hout
  · exact respond_rsps_of (f := 0) (m := .idle) (e := true) hk.rsps (hk.fault.trans hf) rfl rfl
  · rw [hran.enc_frame]
    rfl

/-- Settles O48: ENC_BYTE 0x00 and ENC_END run the same byte from the same state. -/
theorem endMarkerIsEncByteZero : Obligations.EndMarkerIsEncByteZero := by
  intro s hm h hw
  obtain ⟨u, hexec, hbyte, -⟩ := exec_encByte hm h hw 0
  obtain ⟨v, hend, hmarker, -⟩ := exec_encEnd hm h hw
  cases hbyte.symm.trans hmarker
  refine ⟨_, _, hexec, hend, ?_⟩
  rw [rcFlush_eq, rcFlush_eq]
  rfl

/-! ### DEC_BYTE (R140) -/

/-- DEC_BYTE after its byte is decoded: the roll, then the byte delivered or the stream closed. -/
def afterDecByte (c : Byte) (u : State) : State :=
  if c = 0 then respond Reply.none { updateContext c u with eos := true, mode := .idle }
  else respond ⟨true, c⟩ (updateContext c u)

theorem afterDecByte_zero (u : State) :
    afterDecByte 0 u = respond Reply.none { updateContext 0 u with eos := true, mode := .idle } := rfl

theorem afterDecByte_of_ne {c : Byte} (hc : c ≠ 0) (u : State) : afterDecByte c u = respond ⟨true, c⟩ (updateContext c u) :=
  if_neg hc

/-! The end of DEC_BYTE writes `mode`, `eos` and the response only. -/

section
variable (c : Byte) (u : State)

@[simp] theorem afterDecByte_fault : (afterDecByte c u).fault = u.fault := by unfold afterDecByte; split <;> rfl
@[simp] theorem afterDecByte_node : (afterDecByte c u).node = u.node := by unfold afterDecByte; split <;> rfl
@[simp] theorem afterDecByte_coder : (afterDecByte c u).coder = u.coder := by unfold afterDecByte; split <;> rfl
@[simp] theorem afterDecByte_hist : (afterDecByte c u).hist = (updateContext c u).hist := by unfold afterDecByte; split <;> rfl
@[simp] theorem afterDecByte_mem : (afterDecByte c u).mem = u.mem := by unfold afterDecByte; split <;> rfl
@[simp] theorem afterDecByte_mixer : (afterDecByte c u).mixer = u.mixer := by unfold afterDecByte; split <;> rfl
@[simp] theorem afterDecByte_cout : (afterDecByte c u).cout = u.cout := by unfold afterDecByte; split <;> rfl
@[simp] theorem afterDecByte_cin : (afterDecByte c u).cin = u.cin := by unfold afterDecByte; split <;> rfl
@[simp] theorem afterDecByte_cinPos : (afterDecByte c u).cinPos = u.cinPos := by unfold afterDecByte; split <;> rfl
@[simp] theorem afterDecByte_inputs : (afterDecByte c u).inputs = u.inputs := by unfold afterDecByte; split <;> rfl
@[simp] theorem afterDecByte_free : (afterDecByte c u).free = u.free := by unfold afterDecByte; split <;> rfl

end

/-- DEC_BYTE completes where the coding of its byte does (R140). -/
theorem exec_decByte_ok {s u : State} {c : Byte} (hm : s.mode = .dec) (h : codeByte .dec 0 s = .ok c u) :
    exec .decByte s = .next (afterDecByte c u) := by
  have hbody : commandBody .decByte s = finishByte c (updateContext c u) := by rw [commandBody, decByteBody, h, bind_ok]
  rw [finishByte_eq] at hbody
  by_cases hc : c = 0
  · rw [if_pos hc] at hbody
    rw [exec_ok (by simp [hm, legalModes]) hbody, afterDecByte, if_pos hc]
  · rw [if_neg hc] at hbody
    rw [exec_ok (by simp [hm, legalModes]) hbody, afterDecByte_of_ne hc]

/-- DEC_BYTE takes the fault that the coding of its byte raises (R140). -/
theorem exec_decByte_raised {s u : State} {f : FaultCode} (hm : s.mode = .dec) (h : codeByte .dec 0 s = .raised f u) :
    exec .decByte s = .next (takeFault f u) :=
  exec_raised (by simp [hm, legalModes]) (by rw [commandBody, decByteBody, h, bind_raised])

/-- A byte decoded in a well kept decode session, or IN_UNDERRUN at the end of `cin` (R132, R140). -/
theorem codeByte_dec_cases {s : State} (h : SessionOk s) (hw : s.mem.wf = true) :
    (∃ c u, codeByte .dec 0 s = .ok c u ∧ ByteRan .dec s u ∧ TablesLearn c s u) ∨
    ((unread s).length < 16 ∧ ∃ u, codeByte .dec 0 s = .raised .inUnderrun u ∧ Kept s u ∧ u.cout = s.cout ∧
      u.cinPos = s.cinPos + (unread s).length) := by
  rcases codeByte_cases .dec 0 (h.bitOk hw) h.node_start with
    ⟨c, u, hbyte, hok, hk, hs, hn, -⟩ | ⟨-, hl, u, hbyte, hk, -, hout, hpos⟩
  · exact .inl ⟨c, u, hbyte, ⟨hok, hk, hs, hn⟩, codeByte_tablesLearn (h.bitOk hw) h.node_start hbyte⟩
  · exact .inr ⟨hl, u, hbyte, hk, hout, hpos⟩

/-- Settles O50: the two ways the coding of the byte can go (`codeByte_dec_cases`), the completed one with and without the
terminator. -/
theorem decByteUnderrunOnlyAtEnd : Obligations.DecByteUnderrunOnlyAtEnd := by
  intro s hm h hw hf hpos
  rcases codeByte_dec_cases h hw with ⟨c, u, hbyte, hran, hlearn⟩ | ⟨-, u, hbyte, hk, hout, hend⟩
  · have hk := hran.kept
    obtain ⟨hout, k, hk16, -, hkpos⟩ := hran.streamed.dec rfl
    have hread : u.cinPos ≤ s.cin.length := hk.cin ▸ hran.read_pos hpos
    refine ⟨_, exec_decByte_ok hm hbyte, .inl ⟨u, c, k, hbyte, ?_, afterDecByte_coder c u, afterDecByte_mixer c u,
      afterDecByte_mem c u, ?_, historyRolls_of_kept hk (afterDecByte_hist c u), hlearn.congr (afterDecByte_mem c u), ?_, hk16,
      ?_, ?_, fun h0 => ?_, fun hne => ?_, ?_⟩⟩
    · rw [afterDecByte_fault, hk.fault, hf]
    · rw [afterDecByte_node, hran.node]
    · rw [afterDecByte_mem, hran.ok.tables]
    · rw [afterDecByte_cinPos, hkpos]
    · rwa [afterDecByte_cinPos]
    · rw [h0, afterDecByte_zero]
      exact ⟨rfl, rfl, respond_rsps_of (f := 0) (m := .idle) (e := true) hk.rsps (hk.fault.trans hf) rfl rfl⟩
    · rw [afterDecByte_of_ne hne]
      refine ⟨hk.mode.trans hm, hk.eos, (sessionOk_of_byte c hran.ok hran.node).congr rfl rfl rfl rfl rfl, ?_⟩
      rw [respond_rsps, responseWord_congr (t := updateContext c u) _ hk.fault hk.mode hk.eos]
      exact congrArg (· ++ _) hk.rsps
    · apply State.ext <;> simp [hk.fault, hout, hk.cin, hk.inputs, hk.free]
  · refine ⟨_, exec_decByte_raised hm hbyte, .inr ⟨⟨u, hbyte⟩, rfl, rfl, hk.eos, hk.hist, hout, hk.cin, ?_, ?_⟩⟩
    · rw [takeFault_cinPos, hend, unread_length]
      omega
    · rw [takeFault_inUnderrun, hk.eos]
      exact congrArg (· ++ _) hk.rsps

/-- Settles O49: of the two ways of O50, 16 unread bytes leave the first. -/
theorem decByteCompletes : Obligations.DecByteCompletes := by
  intro s hm h hw hf h16
  have hpos : s.cinPos ≤ s.cin.length := by rw [List.length_drop] at h16; omega
  obtain ⟨t, hexec, ⟨u, c, k, hbyte, -, hcoder, hmixer, hmem, hnode, hroll, hlearn, htab, hk, hkpos, -, hend, hdeliver, hframe⟩ |
    ⟨⟨v, hv⟩, -⟩⟩ := decByteUnderrunOnlyAtEnd s hm h hw hf hpos
  · exact ⟨t, u, c, k, hexec, hbyte, hcoder, hmixer, hmem, hnode, hroll, hlearn, htab, hk, hkpos, hend, hdeliver, hframe⟩
  · rcases codeByte_dec_cases h hw with ⟨c, u, hbyte, -⟩ | ⟨hl, -⟩
    · cases hbyte.symm.trans hv
    · exact absurd h16 hl.not_ge

/-! ### Every command is answered (R143) -/

theorem commandWord_runs {s : State} (h : StateInv s) (w : CmdWord) : Runs (commandWord w s) := by
  cases hw : decodeWord w with
  | ok i =>
    obtain ⟨t, ht, -⟩ := exec_runs h i
    exact ⟨t, (commandWord_ok hw).trans ht⟩
  | error e => exact ⟨_, commandWord_error hw⟩

/-- Settles O56: of the host's three actions only a supply can be refused, and only in a decode stream. -/
theorem everyCommandIsAnswered : Obligations.EveryCommandIsAnswered := by
  intro s h
  refine ⟨commandWord_runs h, fun i => ?_, ?_⟩
  · obtain ⟨t, ht, -⟩ := exec_runs h i
    exact ⟨t, ht⟩
  · rcases step_cases s with ⟨-, hstep⟩ | ⟨i, rest, hin, hstep⟩
    · exact .inl ⟨s, hstep⟩
    · rw [hstep]
      cases i with
      | reset => exact .inl ⟨_, rfl⟩
      | command w => exact .inl (commandWord_runs (h.inputs rest) w)
      | supply stream =>
        by_cases hm : s.mode = .dec
        · exact .inr ⟨hm, stream, rest, hin⟩
        · exact .inl ⟨_, if_neg hm⟩

end Sys2Proof.Machine
end

section
/-! PROOFS. The two directions of a stream together: one byte in lockstep (R145), what COMPRESS makes of a list of bytes
(R141), and the round trip (R142). A list of bytes is, for the coder, the list of bits and probabilities `messagePairs`, to which
the coder's own round trip (`rcDecodeBit_follows`, R95) applies bit by bit. -/

namespace Sys2Proof.Machine

/-! ### Lockstep across the commands (R145) -/

theorem InLockstep.updateContext {e d : State} (h : InLockstep e d) (c : Byte) :
    InLockstep (updateContext c e) (updateContext c d) := by
  refine ⟨h.node, ?_, h.mem, h.w0, h.w1, h.w2, h.w3, h.nadd, h.low, h.range⟩
  simp only [updateContext_hist, h.hist]

/-- The lockstep does not see the responses. -/
theorem inLockstep_respond (r : Reply) (s : State) : InLockstep s (respond r s) :=
  ⟨rfl, rfl, rfl, rfl, rfl, rfl, rfl, rfl, rfl, rfl⟩

/-- The end of DEC_BYTE is, for the lockstep, the roll of its byte. -/
theorem inLockstep_afterDecByte (c : Byte) (u : State) : InLockstep (updateContext c u) (afterDecByte c u) := by
  unfold afterDecByte
  split <;> exact ⟨rfl, rfl, rfl, rfl, rfl, rfl, rfl, rfl, rfl, rfl⟩

/-- What holds in an open stream is of the part that both directions share. -/
theorem InLockstep.sessionOk {e d : State} (h : InLockstep e d) (he : SessionOk e) : SessionOk d where
  node_start := h.node.symm.trans he.node_start
  no_inputs := h.nadd.symm.trans he.no_inputs
  interval := ⟨h.range ▸ he.interval.range_min, h.low ▸ h.range ▸ he.interval.in_space⟩
  history := h.hist ▸ he.history
  counters i := by
    rw [← readO0_congr h.mem, ← readO1_congr h.mem]
    exact he.counters i

/-- Settles O57: the decoder's byte is `codedBits` of the byte it returns, and so is the encoder's of that byte
(`codeByte_codes`). -/
theorem decByteMirrorsEncByte : Obligations.DecByteMirrorsEncByte := by
  intro e d d' hme hmd he hwe hlock hf hexec hf'
  have hwd : d.mem.wf = true := hlock.mem ▸ hwe
  have hd := hlock.sessionOk he
  rcases codeByte_dec_cases hd hwd with ⟨c, u, hdec, -⟩ | ⟨-, u, hdec, -⟩
  · cases (exec_decByte_ok hmd hdec).symm.trans hexec
    have hc1 : (afterDecByte c u).hist.c1 = c := congrArg History.c1 (inLockstep_afterDecByte c u).hist.symm
    obtain ⟨v, hexec', henc, -⟩ := exec_encByte hme he hwe c
    obtain ⟨hu, -⟩ := codeByte_codes (hd.bitOk hwd) hd.node_start hdec
    obtain ⟨hv, -⟩ := codeByte_codes (he.bitOk hwe) he.node_start henc
    have huv : InLockstep v u := hv.symm.trans ((hlock.codedBits c 8).trans hu)
    refine ⟨_, by rw [hc1]; exact hexec', ?_⟩
    exact (inLockstep_respond _ _).symm.trans ((huv.updateContext c).trans (inLockstep_afterDecByte c u))
  · cases (exec_decByte_raised hmd hdec).symm.trans hexec
    exact absurd hf' (show (4 : BitVec 4) ≠ 0 by decide)

/-! ### A list of bytes as a list of bits -/

/-- A byte coded and rolled into the history, the streams and `code` aside (R138). -/
def codedByte (c : Byte) (s : State) : State := updateContext c (codedBits c 8 s)

theorem codedByte_coder (c : Byte) (s : State) : (codedByte c s).coder = codedInterval (bitPairs c 8 s) s.coder := by
  rw [codedByte, updateContext_coder, codedBits_coder]

theorem InLockstep.codedByte {e d : State} (h : InLockstep e d) (c : Byte) : InLockstep (codedByte c e) (codedByte c d) :=
  (h.codedBits c 8).updateContext c

/-- The bits of a list of bytes, each with the probability it is coded with. -/
def messagePairs : List Byte → State → List (Bool × Nat)
  | [], _ => []
  | c :: x, s => bitPairs c 8 s ++ messagePairs x (codedByte c s)

theorem messagePairs_legal (x : List Byte) (s : State) : ProbsLegal (messagePairs x s) := by
  induction x generalizing s with
  | nil => exact fun y hy => absurd hy List.not_mem_nil
  | cons c x ih => exact List.forall_mem_append.2 ⟨bitPairs_legal c 8 s, ih _⟩

/-- The bits and their probabilities depend on the part that both directions share. -/
theorem InLockstep.messagePairs {e d : State} (h : InLockstep e d) (x : List Byte) : messagePairs x e = messagePairs x d := by
  induction x generalizing e d with
  | nil => rfl
  | cons c x ih => rw [Machine.messagePairs, Machine.messagePairs, h.bitPairs, ih (h.codedByte c)]

/-- The stream of a list of bits is of `low` and `range`. -/
theorem InLockstep.streamOf {e d : State} (h : InLockstep e d) (l : List (Bool × Nat)) :
    streamOf l e.coder = streamOf l d.coder := by
  rw [h.coder, streamOf_set_code]

theorem streamOf_append (l m : List (Bool × Nat)) (c : Coder) :
    streamOf (l ++ m) c = emitted l c ++ streamOf m (codedInterval l c) := by
  induction l generalizing c with
  | nil => rfl
  | cons x l ih => rw [List.cons_append, streamOf_cons, ih, emitted, codedInterval, List.append_assoc]

/-- The stream of a list of bytes: the first byte's part, then the stream of the others from the state after it. -/
theorem streamOf_messagePairs_cons (c : Byte) (x : List Byte) {s t : State} (h : InLockstep (codedByte c s) t) :
    streamOf (messagePairs (c :: x) s) s.coder = emitted (bitPairs c 8 s) s.coder ++ streamOf (messagePairs x t) t.coder := by
  rw [messagePairs, streamOf_append, ← codedByte_coder, h.messagePairs, h.streamOf]

/-! ### COMPRESS (R141) -/

/-- The host's command reaches the block as itself (R50, R134). -/
theorem issue_eq (i : Instr) (s : State) : issue i s = exec i s := by
  rw [issue, step_pushCommand, commandWord_ok (decodeWord_encodeWord i)]

theorem andThen_assoc (x : Host.Outcome State Fault Refusal) (f g : State → Host.Outcome State Fault Refusal) :
    andThen (andThen x f) g = andThen x fun s => andThen (f s) g := by
  cases x <;> rfl

/-- An encode session, well kept and without fault. -/
structure Encoding (s : State) : Prop where
  /-- R24. -/
  mode : s.mode = .enc
  /-- R25. -/
  fault : s.fault = 0
  /-- R11, R23, R93. -/
  session : SessionOk s
  /-- The tables are in canonical form. -/
  tables : s.mem.wf = true

/-- ENC_BYTE in an encode session: the byte coded, its bytes emitted, the session open still (R138). -/
theorem Encoding.encByte {s : State} (h : Encoding s) (c : Byte) :
    ∃ t, exec (.encByte c) s = .next t ∧ Encoding t ∧ InLockstep (codedByte c s) t ∧
      t.cout = s.cout ++ emitted (bitPairs c 8 s) s.coder := by
  obtain ⟨u, hexec, hbyte, hran⟩ := exec_encByte h.mode h.session h.tables c
  obtain ⟨hlock, hout⟩ := codeByte_codes (h.session.bitOk h.tables) h.session.node_start hbyte
  have hlock' := (hlock.updateContext c).trans (inLockstep_respond Reply.none _)
  refine ⟨_, hexec, ⟨hran.kept.mode.trans h.mode, hran.kept.fault.trans h.fault, ?_, hran.ok.tables⟩, hlock', hout rfl⟩
  exact (inLockstep_respond Reply.none _).sessionOk (sessionOk_of_byte c hran.ok hran.node)

/-- ENC_END in an encode session: the marker coded, its bytes and the flush emitted, the stream closed (R139). -/
theorem Encoding.encEnd {s : State} (h : Encoding s) :
    ∃ t, exec .encEnd s = .next t ∧ t.cout = s.cout ++ streamOf (messagePairs [0] s) s.coder ∧ t.fault = 0 ∧ t.eos = true ∧
      t.mode = .idle := by
  obtain ⟨u, hexec, hbyte, hran⟩ := exec_encEnd h.mode h.session h.tables
  obtain ⟨hlock, hout⟩ := codeByte_codes (h.session.bitOk h.tables) h.session.node_start hbyte
  have hlow : u.coder.low = (codedInterval (bitPairs 0 8 s) s.coder).low := by rw [← codedBits_coder, hlock.low]
  rw [rcFlush_eq, ← wordBytes] at hexec
  refine ⟨_, hexec, ?_, hran.kept.fault.trans h.fault, rfl, rfl⟩
  show u.cout ++ wordBytes u.coder.low = _
  rw [hout rfl, hlow, messagePairs, messagePairs, List.append_nil, streamOf, List.append_assoc]

/-- The bytes of a message and the end marker, from an open encode session (R141). -/
theorem Encoding.message {s : State} (h : Encoding s) (x : List Byte) :
    ∃ t, andThen (issueBytes x s) (issue .encEnd) = .next t ∧
      t.cout = s.cout ++ streamOf (messagePairs (x ++ [0]) s) s.coder ∧ t.fault = 0 ∧ t.eos = true ∧ t.mode = .idle := by
  induction x generalizing s with
  | nil => rw [issueBytes, andThen_next, issue_eq]; exact h.encEnd
  | cons c x ih =>
    obtain ⟨u, hexec, hu, hlock, hout⟩ := h.encByte c
    obtain ⟨t, hrest, hcout, hend⟩ := ih hu
    refine ⟨t, ?_, ?_, hend⟩
    · rw [issueBytes, andThen_assoc, issue_eq, hexec, andThen_next, hrest]
    · rw [hcout, hout, List.cons_append, streamOf_messagePairs_cons c _ hlock, List.append_assoc]

/-- Every stream starts in lockstep with every other (R133). -/
theorem inLockstep_streamInit (dir dir' : Dir) (s s' : State) : InLockstep (streamInit dir s) (streamInit dir' s') := by
  obtain ⟨hw0, hw1, hw2, hw3, hn⟩ := streamInit_weights dir s
  obtain ⟨hw0', hw1', hw2', hw3', hn'⟩ := streamInit_weights dir' s'
  refine ⟨?_, ?_, ?_, hw0.trans hw0'.symm, hw1.trans hw1'.symm, hw2.trans hw2'.symm, hw3.trans hw3'.symm, hn.trans hn'.symm,
    ?_, ?_⟩ <;> simp

/-- The compressed stream of a list of bytes and the end marker, coded from the state `s` (R141). -/
def compressed (x : List Byte) (s : State) : List Byte := streamOf (messagePairs (x ++ [0]) s) s.coder

theorem compressed_congr (x : List Byte) {s t : State} (h : InLockstep s t) : compressed x s = compressed x t := by
  rw [compressed, compressed, h.messagePairs, h.streamOf]

/-- COMPRESS, whole, from any IDLE state (R141): it ends normally, and `cout` is the compressed stream. -/
theorem compress_eq (x : List Byte) {s : State} (hm : s.mode = .idle) (hf : s.fault = 0) :
    ∃ t, compress x s = .next t ∧ t.cout = compressed x (streamInit .enc s) ∧ t.fault = 0 ∧ t.eos = true ∧ t.mode = .idle := by
  have hstart : exec .startEnc s = .next (respond Reply.none { streamInit .enc s with mode := .enc }) :=
    exec_ok (by simp [hm, legalModes]) rfl
  have hlock : InLockstep (streamInit .enc s) (respond Reply.none { streamInit .enc s with mode := .enc }) :=
    ⟨rfl, rfl, rfl, rfl, rfl, rfl, rfl, rfl, rfl, rfl⟩
  have henc : Encoding (respond Reply.none { streamInit .enc s with mode := .enc }) :=
    ⟨rfl, hf, hlock.sessionOk (sessionOk_streamInit .enc s), streamInit_memory_wf .enc s⟩
  obtain ⟨t, hrest, hcout, hend⟩ := henc.message x
  refine ⟨t, ?_, hcout.trans (compressed_congr x hlock.symm), hend⟩
  rw [compress, issue_eq, hstart, andThen_next, hrest]

theorem compressed_length (x : List Byte) (s : State) : 4 ≤ (compressed x s).length := by
  rw [compressed, streamOf_length]
  omega

/-- Settles O58: `cout` is `compressed` of the state after `STREAM_INIT`, and those states are in lockstep. -/
theorem compressIsDeterministic : Obligations.CompressIsDeterministic := by
  intro x s s' hm hm' hf hf'
  obtain ⟨t, ht, hcout, hend⟩ := compress_eq x hm hf
  obtain ⟨t', ht', hcout', -⟩ := compress_eq x hm' hf'
  refine ⟨t, t', ht, ht', ?_, ?_, hend⟩
  · rw [hcout, hcout', compressed_congr x (inLockstep_streamInit .enc .enc s s')]
  · rw [hcout]
    exact compressed_length x _

end Sys2Proof.Machine
end

section
/-! PROOFS. The round trip (R142): a decoder that stands before the stream of a list of bytes (`Decoding`) decodes them one by
one, up to the first zero byte, and has then read the stream of the bytes up to there. -/

namespace Sys2Proof.Machine

/-! ### The decoder before the stream of a bit and of a byte (R95, R130, R132) -/

/-- Where the decoder stands is seen in `code`, `cin` and the read position. -/
theorem Follows.congr {T extra : List Byte} {s t : State} (h : Follows T extra s) (hc : t.coder.code = s.coder.code)
    (hi : t.cin = s.cin) (hp : t.cinPos = s.cinPos) : Follows T extra t := by
  refine ⟨h.four, hc.trans h.code, ?_⟩
  rw [unread, hi, hp]
  exact h.rest

/-- One bit step before the stream that begins with a bit: it decodes that bit, and the decoder stands before the rest. -/
theorem bitStep_follows {s : State} (h : BitOk s) (bIn : Bool) {bit : Bool} {T extra : List Byte} (hT : 4 ≤ T.length)
    (hin : InInterval (window T) (codedBit bit s).coder) (hs : Follows (spilled 2 (bitInterval bit s) ++ T) extra s) :
    ∃ t, bitStep .dec bIn s = .ok (bit, nextNode s.node bit) t ∧ Follows T extra t ∧
      t.cinPos = s.cinPos + (spilled 2 (bitInterval bit s)).length := by
  obtain ⟨hp1, hp2⟩ := bitProb_legal s
  rw [codedBit_coder] at hin
  obtain ⟨u, hdec, hu, hframe⟩ := rcDecodeBit_follows (s := mixed s) h.interval hp1 hp2 hT hin (hs.congr rfl rfl rfl)
  have hpos : u.cinPos = s.cinPos + (spilled 2 (bitInterval bit s)).length := congrArg State.cinPos hframe
  exact ⟨bitEnd bit u, bitStep_of_codeBit h.no_inputs hdec,
    hu.congr (congrArg Coder.code (bitEnd_coder bit u)) (bitEnd_cin bit u) (bitEnd_cinPos bit u),
    (bitEnd_cinPos bit u).trans hpos⟩

/-- The last `n` bit steps of a byte before the stream that begins with the bits of `c`: they decode those bits. -/
theorem codeBits_follows {c : Byte} {n : Nat} {s : State} (h : BitOk s) (h8 : n ≤ 8) (hn : 0 < n → NodeAt n s.node)
    (cIn : Byte) (n9 : BitVec 9) {l : List (Bool × Nat)} (hl : ProbsLegal l) {extra : List Byte}
    (hs : Follows (streamOf (bitPairs c n s ++ l) s.coder) extra s) :
    ∃ r t, codeBits .dec cIn n n9 s = .ok r t ∧ Follows (streamOf l t.coder) extra t ∧
      t.cinPos = s.cinPos + (emitted (bitPairs c n s) s.coder).length ∧
      ∀ k < n, operandBit (r.setWidth 8) k = operandBit c k := by
  induction n generalizing s n9 with
  | zero => exact ⟨n9, s, rfl, hs, rfl, fun k hk => absurd hk k.not_lt_zero⟩
  | succ n ih =>
    have hat := hn n.succ_pos
    obtain ⟨hp1, hp2⟩ := bitProb_legal s
    have hlegal : ProbsLegal (bitPairs c n (codedBit (operandBit c n) s) ++ l) :=
      List.forall_mem_append.2 ⟨bitPairs_legal c n _, hl⟩
    have hinterval : IntervalOk (codedBit (operandBit c n) s).coder := by
      rw [codedBit_coder]; exact renormed_takenPart_ok h.interval hp1 hp2 _
    rw [bitPairs, List.cons_append, streamOf_cons, ← codedBit_coder] at hs
    obtain ⟨u, hstep, hu, hpos⟩ := bitStep_follows h (operandBit cIn n) (by rw [streamOf_length]; omega)
      (streamOf_inInterval hlegal hinterval) hs
    obtain ⟨-, hok, hnode⟩ := bitStep_next h hstep
    obtain ⟨hlock, -⟩ := bitStep_codes h hstep
    rw [hlock.bitPairs, hlock.streamOf] at hu
    obtain ⟨r, t, hrest, ht, htpos, hbits⟩ := ih hok (by omega)
      (fun hpos => by rw [hnode]; exact (nodeAt_advance hpos h8 hat _).1) (nextNode s.node (operandBit c n)) hu
    have hrun : codeBits .dec cIn (n + 1) n9 s = .ok r t := by rw [codeBits, hstep, bind_ok, hrest]
    obtain ⟨b, u', hstep', -, -, -, hbit⟩ := codeBits_succ_eq_ok h h8 hat hrun
    cases hstep.symm.trans hstep'
    refine ⟨r, t, hrun, ht, ?_, fun k hk => ?_⟩
    · rw [htpos, hpos, bitPairs, emitted, List.length_append, ← codedBit_coder, hlock.bitPairs, hlock.emitted,
        Nat.add_assoc]
      rfl
    · rcases Nat.lt_succ_iff_lt_or_eq.1 hk with hlt | rfl
      · exact hbits k hlt
      · exact hbit

/-- A byte decoded before the stream that begins with the bits of `c` is `c` (R132). -/
theorem codeByte_follows {c : Byte} {s : State} (h : BitOk s) (hn : s.node = 1) (cIn : Byte) {l : List (Bool × Nat)}
    (hl : ProbsLegal l) {extra : List Byte} (hs : Follows (streamOf (bitPairs c 8 s ++ l) s.coder) extra s) :
    ∃ t, codeByte .dec cIn s = .ok c t ∧ Follows (streamOf l t.coder) extra t ∧
      t.cinPos = s.cinPos + (emitted (bitPairs c 8 s) s.coder).length := by
  obtain ⟨r, t, hrun, ht, hpos, hbits⟩ :=
    codeBits_follows h le_rfl (fun _ => by rw [hn]; exact ⟨by decide, by decide⟩) cIn 0 hl hs
  have hbyte : r.setWidth 8 = c := BitVec.eq_of_getLsbD_eq fun k hk => hbits k hk
  exact ⟨t, by rw [codeByte, hrun, bind_ok, hbyte], ht, hpos⟩

/-! ### DEC_BYTE before the stream of a list of bytes (R140) -/

/-- An open decode session without fault or end, that stands before the stream of the bytes `y`, with other bytes behind it. -/
structure Decoding (y extra : List Byte) (d : State) : Prop where
  /-- R24. -/
  mode : d.mode = .dec
  /-- R25. -/
  fault : d.fault = 0
  /-- R26. -/
  eos : d.eos = false
  /-- R11, R23, R93. -/
  session : SessionOk d
  /-- The tables are in canonical form. -/
  tables : d.mem.wf = true
  /-- R14, R36. -/
  follows : Follows (streamOf (messagePairs y d) d.coder) extra d

/-- DEC_BYTE before a stream decodes its first byte and stands before the stream of the others. -/
theorem Decoding.decByte {c : Byte} {y extra : List Byte} {d : State} (h : Decoding (c :: y) extra d) :
    ∃ u, exec .decByte d = .next (afterDecByte c u) ∧ ByteRan .dec d u ∧ InLockstep (codedByte c d) (afterDecByte c u) ∧
      Follows (streamOf (messagePairs y (codedByte c d)) u.coder) extra u ∧
      u.cinPos = d.cinPos + (emitted (bitPairs c 8 d) d.coder).length := by
  have hbit := h.session.bitOk h.tables
  obtain ⟨u, hbyte, hu, hpos⟩ :=
    codeByte_follows hbit h.session.node_start 0 (messagePairs_legal y (codedByte c d)) h.follows
  obtain ⟨hlock, -⟩ := codeByte_codes hbit h.session.node_start hbyte
  have hran : ByteRan .dec d u := by
    rcases codeByte_dec_cases h.session h.tables with ⟨c', u', hbyte', hran, -⟩ | ⟨-, u', hbyte', -⟩
    · cases hbyte.symm.trans hbyte'; exact hran
    · cases hbyte.symm.trans hbyte'
  exact ⟨u, exec_decByte_ok h.mode hbyte, hran, (hlock.updateContext c).trans (inLockstep_afterDecByte c u), hu, hpos⟩

/-- After a byte that is not the terminator the decoder goes on (R140). -/
theorem Decoding.next {c : Byte} {y extra : List Byte} {d u : State} (h : Decoding (c :: y) extra d) (hc : c ≠ 0)
    (hran : ByteRan .dec d u) (hlock : InLockstep (codedByte c d) (afterDecByte c u))
    (hu : Follows (streamOf (messagePairs y (codedByte c d)) u.coder) extra u) : Decoding y extra (afterDecByte c u) := by
  rw [hlock.messagePairs] at hu
  rw [afterDecByte_of_ne hc] at hu ⊢
  exact ⟨hran.kept.mode.trans h.mode, hran.kept.fault.trans h.fault, hran.kept.eos.trans h.eos,
    (inLockstep_respond _ _).sessionOk (sessionOk_of_byte c hran.ok hran.node), hran.ok.tables, hu.congr rfl rfl rfl⟩

/-! ### The host's loop (R58, R142) -/

/-- The host's stop test, on the response just returned. -/
theorem hostStops_respond (r : Reply) (s : State) : hostStops (respond r s) = (s.eos || s.fault != 0) := by
  rw [hostStops, respond_rsps, List.getLast?_concat]
  show (rspEos (responseWord r s) || rspFault (responseWord r s) != 0) = _
  rw [rspEos_responseWord, rspFault_responseWord]

theorem decodeLoop_of_stops {s : State} (h : hostStops s = true) (n : Nat) : decodeLoop n s = .next s := by
  cases n with
  | zero => rfl
  | succ n => rw [decodeLoop, if_pos h]

theorem decodeLoop_succ {s : State} (h : hostStops s = false) (n : Nat) :
    decodeLoop (n + 1) s = andThen (exec .decByte s) (decodeLoop n) := by
  rw [decodeLoop, h, if_neg Bool.false_ne_true, issue_eq]

/-- A response with `dv = 1` delivers its byte. -/
theorem delivered_cons_byte (c : Byte) (s : State) (ws : List RspWord) :
    delivered (responseWord ⟨true, c⟩ s :: ws) = c :: delivered ws := by
  simp [delivered]

/-- A response with `dv = 0` delivers nothing. -/
theorem delivered_cons_none (s : State) (ws : List RspWord) : delivered (responseWord Reply.none s :: ws) = delivered ws := by
  simp [delivered, Reply.none]

/-- The host's loop before the stream of bytes that have a zero among them, with as many DEC_BYTE as there are bytes: those before
the first zero are delivered, and the stream is read as if that zero were the end marker. -/
theorem Decoding.loop {y extra : List Byte} {d : State} (h : Decoding y extra d) (hzero : (0 : Byte) ∈ y)
    (hgo : hostStops d = false) {n : Nat} (hn : y.length ≤ n) :
    ∃ u ws, decodeLoop n d = .next u ∧ u.fault = 0 ∧ u.eos = true ∧ u.mode = .idle ∧ u.rsps = d.rsps ++ ws ∧
      delivered ws = y.takeWhile (· ≠ 0) ∧ u.cinPos + 4 = d.cinPos + (compressed (y.takeWhile (· ≠ 0)) d).length := by
  induction y generalizing d n with
  | nil => exact absurd hzero List.not_mem_nil
  | cons c y ih =>
    obtain ⟨m, rfl⟩ := Nat.exists_eq_add_of_le' (Nat.le_trans (Nat.le_add_left 1 _) hn)
    obtain ⟨u, hexec, hran, hlock, hu, hpos⟩ := h.decByte
    rw [decodeLoop_succ hgo, hexec, andThen_next]
    by_cases hc : c = 0
    · subst hc
      rw [List.takeWhile_cons_of_neg (by simp)]
      refine ⟨_, [responseWord Reply.none { updateContext 0 u with eos := true, mode := .idle }],
        decodeLoop_of_stops (hostStops_respond _ _) m, hran.kept.fault.trans h.fault, rfl, rfl,
        congrArg (· ++ _) hran.kept.rsps, delivered_cons_none .., ?_⟩
      show u.cinPos + 4 = _
      rw [compressed, List.nil_append, streamOf_length, messagePairs, messagePairs, List.append_nil, hpos, Nat.add_assoc]
    · have hnext := h.next hc hran hlock hu
      have hgo' : hostStops (afterDecByte c u) = false := by
        rw [afterDecByte_of_ne hc, hostStops_respond, updateContext_eos, updateContext_fault, hran.kept.eos, hran.kept.fault,
          h.eos, h.fault]
        rfl
      obtain ⟨t, ws, hloop, hfault, heos, hmode, hrsps, hbytes, hread⟩ :=
        ih hnext ((List.mem_cons.1 hzero).resolve_left (Ne.symm hc)) hgo' (Nat.le_of_succ_le_succ hn)
      rw [List.takeWhile_cons_of_pos (by simpa using hc)]
      refine ⟨t, responseWord ⟨true, c⟩ (updateContext c u) :: ws, hloop, hfault, heos, hmode, ?_, ?_, ?_⟩
      · rw [hrsps, afterDecByte_of_ne hc, respond_rsps, updateContext_rsps, hran.kept.rsps, List.append_assoc]
        rfl
      · rw [delivered_cons_byte, hbytes]
      · rw [hread, afterDecByte_cinPos, hpos, compressed, compressed, List.cons_append, streamOf_messagePairs_cons c _ hlock,
          List.length_append, Nat.add_assoc]

/-! ### The round trip (R142) -/

/-- START_DEC on a `cin` that begins with the stream of the bytes `x` and the end marker opens a decode session before it
(R137). -/
theorem startDec_decoding {x extra : List Byte} {d e : State} (hm : d.mode = .idle) (hf : d.fault = 0)
    (he : InLockstep e (streamInit .dec d)) (hcin : d.cin = compressed x e ++ extra) :
    ∃ u, exec .startDec d = .next (respond Reply.none u) ∧ Decoding (x ++ [0]) extra (respond Reply.none u) ∧
      InLockstep e (respond Reply.none u) ∧ u.rsps = d.rsps ∧ u.cinPos = 4 := by
  obtain ⟨u, hinit, hfollows, hu⟩ := rcInitDec_follows (compressed_length x e) ((unread_startDec d).trans hcin)
  have hlock : InLockstep (streamInit .dec d) (respond Reply.none u) := by
    rw [hu]; exact ⟨rfl, rfl, rfl, rfl, rfl, rfl, rfl, rfl, rfl, rfl⟩
  rw [compressed_congr x (he.trans hlock)] at hfollows
  subst hu
  exact ⟨_, exec_ok (by simp [hm, legalModes]) (startDec_ok hinit), ⟨rfl, hf, rfl,
    hlock.sessionOk (sessionOk_streamInit .dec d), streamInit_memory_wf .dec d, hfollows.congr rfl rfl rfl⟩,
    he.trans hlock, rfl, rfl⟩

/-- The bytes before the first zero are not changed by the end marker. -/
theorem takeWhile_append_zero (x : List Byte) : (x ++ [0]).takeWhile (· ≠ 0) = x.takeWhile (· ≠ 0) := by
  induction x with
  | nil => rfl
  | cons c x ih =>
    by_cases hc : c = 0
    · rw [List.cons_append, List.takeWhile_cons_of_neg (by simpa using hc), List.takeWhile_cons_of_neg (by simpa using hc)]
    · rw [List.cons_append, List.takeWhile_cons_of_pos (by simpa using hc), List.takeWhile_cons_of_pos (by simpa using hc), ih]

/-- Settles O59: COMPRESS makes the stream of the bytes and the end marker (`compress_eq`), START_DEC stands before it, and the
host's loop decodes it up to the first zero (`Decoding.loop`). -/
theorem roundTrip : Obligations.RoundTrip := by
  intro x s hm hf
  obtain ⟨e, hcompress, hcout, -⟩ := compress_eq x hm hf
  refine ⟨e, hcompress, fun d extra n hmd hfd hcin hn => ?_⟩
  rw [hcout] at hcin
  obtain ⟨v, hstart, hdec, hlock, hrsps, hpos⟩ := startDec_decoding hmd hfd (inLockstep_streamInit .enc .dec s d) hcin
  have hgo : hostStops (respond Reply.none v) = false := by
    have heos : v.eos = false := hdec.eos
    have hfault : v.fault = 0 := hdec.fault
    rw [hostStops_respond, heos, hfault]
    rfl
  obtain ⟨u, ws, hloop, hfault, heos, hmode, hall, hbytes, hread⟩ := hdec.loop (by simp) hgo (by simpa using hn)
  rw [takeWhile_append_zero] at hbytes hread
  have hdeliver : delivered (u.rsps.drop d.rsps.length) = x.takeWhile (· ≠ 0) := by
    rw [hall, respond_rsps, hrsps, List.append_assoc, List.drop_left, List.singleton_append, delivered_cons_none, hbytes]
  refine ⟨u, by rw [decompress, issue_eq, hstart, andThen_next, hloop], hfault, heos, hmode, hdeliver, fun hne => ?_⟩
  have hself : x.takeWhile (· ≠ 0) = x := List.takeWhile_eq_self_iff.2 (by simpa using hne)
  refine ⟨hdeliver.trans hself, ?_⟩
  have hstream : compressed x (respond Reply.none v) = e.cout := by
    rw [hcout, compressed_congr x hlock]
  rw [hself, hstream, respond_cinPos, hpos] at hread
  omega

end Sys2Proof.Machine
end

section
/-! PROOFS. The exceptions of the block: a step without input (R164), FAULT mode (R154, R155), fault entry (R153). -/

namespace Sys2Proof.Machine

/-- Settles O5: of the two things a step can find on the port (`step_cases`), nothing is there. -/
theorem idleStepHoldsState : Obligations.IdleStepHoldsState := by
  intro s h
  rcases step_cases s with ⟨-, hstep⟩ | ⟨i, rest, hin, -⟩
  · exact hstep
  · cases h.symm.trans hin

/-- Settles O8: the step is the word's, and in FAULT mode every word is only answered. -/
theorem faultModeAnswersStatus : Obligations.FaultModeAnswersStatus := by
  intro s w rest hm hin
  rw [step_command hin]
  exact commandWord_fault hm

/-- Settles O13: the word is that of fault entry (`responseWord_fault`), and no fault has code 0. -/
theorem faultEntryWrites : Obligations.FaultEntryWrites := by
  intro legal body s u f hm hl hb
  refine ⟨_, responseWord_fault u f, runCommand_raised hm hl hb, ?_⟩
  cases f <;> rfl

/-- Settles O9: in FAULT mode a step without input, a command word and a supply of `cin` each keep `mode` and `fault`, which
leaves the RESET pulse. -/
theorem onlyResetLeavesFault : Obligations.OnlyResetLeavesFault := by
  intro s t hm h
  rcases step_cases s with ⟨-, hstep⟩ | ⟨i, rest, hin, hstep⟩
  · cases hstep.symm.trans h
    exact .inl ⟨hm, rfl⟩
  rw [hstep] at h
  cases i with
  | reset => cases h; exact .inr ⟨rest, hin, rfl, rfl, rfl, rfl, rfl⟩
  | command w => cases (commandWord_fault (s := { s with inputs := rest }) hm).symm.trans h; exact .inl ⟨hm, rfl⟩
  | supply stream => cases supplyStream_next h; exact .inl ⟨hm, rfl⟩

end Sys2Proof.Machine
end

section
/-! PROOFS. Decoding ends on any input (R157). A bit step that completes either consumes a byte of `cin` or leaves a smaller
`range`, so the two together (`decodeMeasure`) fall with every bit, and the host's loop stops before they are used up. -/

namespace Sys2Proof.Machine

/-! ### What every decoded bit uses up (R87, R90) -/

/-- What an open decode stream has left: the unread bytes of `cin`, and below them the width of the interval. -/
def decodeMeasure (s : State) : Nat := (unread s).length * 2 ^ 32 + s.coder.range.toNat

/-- The measure is of `cin`, the read position and the coder. -/
theorem decodeMeasure_congr {s t : State} (hi : t.cin = s.cin) (hp : t.cinPos = s.cinPos) (hc : t.coder = s.coder) :
    decodeMeasure t = decodeMeasure s := by
  rw [decodeMeasure, decodeMeasure, unread, unread, hi, hp, hc]

/-- A renormalisation that spills no byte has not turned once (R89, R90). -/
theorem renormed_of_spilled_nil {n : Nat} {c : Coder} (h : (spilled (n + 1) c).length = 0) : renormed (n + 1) c = c := by
  rw [spilled] at h
  split at h
  · exact absurd h (Nat.succ_ne_zero _)
  · next hr => rw [renormed, if_neg hr]

/-- A completed bit step of the decoder uses something up: a byte, where the loop turns, else a part of the interval. -/
theorem bitStep_dec_decreases {bIn : Bool} {s t : State} {r : Bool × BitVec 9} (h : BitOk s)
    (hr : bitStep .dec bIn s = .ok r t) : decodeMeasure t < decodeMeasure s := by
  obtain ⟨hp1, hp2⟩ := bitProb_legal s
  obtain ⟨-, hsmaller, -⟩ := narrowed_split h.interval hp1 hp2 (decodedBit s)
  rcases Nat.lt_or_ge (unread s).length (spilled 2 (bitInterval (decodedBit s) s)).length with hlt | hge
  · obtain ⟨c, hc⟩ := bitStep_dec_underrun h.no_inputs h.interval bIn hlt
    cases hc.symm.trans hr
  cases (bitStep_dec_ok h.no_inputs h.interval bIn hge).symm.trans hr
  have hrange := (renormed 2 (bitInterval (decodedBit s) s)).range.isLt
  simp only [decodeMeasure, unread_length, bitEnd_cin, bitEnd_cinPos, bitEnd_coder, mixed] at hge ⊢
  rcases Nat.eq_zero_or_pos (spilled 2 (bitInterval (decodedBit s) s)).length with hzero | hpos
  · rw [renormed_of_spilled_nil hzero, hzero, bitInterval]
    omega
  · omega

/-- `n` completed bit steps of the decoder use up at least `n`. -/
theorem codeBits_dec_decreases {c : Byte} {n : Nat} {n9 r : BitVec 9} {s t : State} (h : BitOk s)
    (hr : codeBits .dec c n n9 s = .ok r t) : decodeMeasure t + n ≤ decodeMeasure s := by
  induction n generalizing s n9 with
  | zero => cases hr; rw [Nat.add_zero]
  | succ n ih =>
    obtain ⟨⟨b, m9⟩, u, hstep, hrest⟩ := bind_eq_ok _ hr
    obtain ⟨-, hok, -⟩ := bitStep_next h hstep
    have hbit := bitStep_dec_decreases h hstep
    have hbits := ih hok hrest
    omega

/-- A completed byte of the decoder uses up at least its eight bits (R132). -/
theorem codeByte_dec_decreases {c r : Byte} {s t : State} (h : BitOk s) (hr : codeByte .dec c s = .ok r t) :
    decodeMeasure t + 8 ≤ decodeMeasure s := by
  obtain ⟨n9, u, hbits, hend⟩ := bind_eq_ok _ hr
  cases hend
  exact codeBits_dec_decreases h hbits

/-! ### DEC_BYTE on any input (R140) -/

/-- An open decode session without fault or end, whatever is left of `cin`. -/
structure DecodeOpen (s : State) : Prop where
  /-- R24. -/
  mode : s.mode = .dec
  /-- R25. -/
  fault : s.fault = 0
  /-- R26. -/
  eos : s.eos = false
  /-- R11, R23, R93. -/
  session : SessionOk s
  /-- The tables are in canonical form. -/
  tables : s.mem.wf = true
  /-- The last response lets the host go on (R58). -/
  goes_on : hostStops s = false

/-- The host has stopped, for one of the two reasons of R157: the terminator, or IN_UNDERRUN. -/
structure DecodeEnded (s : State) : Prop where
  /-- R58. -/
  stops : hostStops s = true
  /-- R140, R36. -/
  reason : (s.eos = true ∧ s.fault = 0 ∧ s.mode = .idle) ∨ (s.eos = false ∧ s.fault = 4 ∧ s.mode = .fault)

/-- The response of a session that goes on does not stop the host. -/
theorem decodeOpen_respond {s : State} (r : Reply) (hm : s.mode = .dec) (hf : s.fault = 0) (he : s.eos = false)
    (hs : SessionOk s) (hw : s.mem.wf = true) : DecodeOpen (respond r s) :=
  ⟨hm, hf, he, (inLockstep_respond r s).sessionOk hs, hw, by rw [hostStops_respond, he, hf]; rfl⟩

/-- The response with `eos` stops the host. -/
theorem decodeEnded_eos (r : Reply) {s : State} (hf : s.fault = 0) :
    DecodeEnded (respond r { s with eos := true, mode := .idle }) :=
  ⟨hostStops_respond .., .inl ⟨rfl, hf, rfl⟩⟩

/-- The response of IN_UNDERRUN stops the host. -/
theorem decodeEnded_inUnderrun {s : State} (he : s.eos = false) : DecodeEnded (takeFault .inUnderrun s) :=
  ⟨by rw [takeFault, hostStops_respond]; exact Bool.or_true _, .inr ⟨he, rfl, rfl⟩⟩

/-- START_DEC on any `cin` opens a session or ends it with IN_UNDERRUN (R137). -/
theorem startDec_opens_or_ends {s : State} (hm : s.mode = .idle) (hf : s.fault = 0) :
    ∃ t, exec .startDec s = .next t ∧ (DecodeOpen t ∨ DecodeEnded t) := by
  have hlegal : s.mode ∈ legalModes .startDec := by simp [hm, legalModes]
  have hlen : (unread { streamInit .dec s with mode := .dec }).length = s.cin.length := by rw [unread_startDec]
  rcases Nat.lt_or_ge s.cin.length 4 with h4 | h4
  · obtain ⟨v, hv⟩ := rcInitDec_underrun (hlen.trans_lt h4)
    exact ⟨_, exec_raised hlegal (startDec_raised hv), .inr (decodeEnded_inUnderrun rfl)⟩
  · obtain ⟨v, hv⟩ := rcInitDec_ok (h4.trans_eq hlen.symm)
    have hlock : InLockstep (streamInit .dec s) { streamInit .dec s with
        mode := .dec, coder := { (streamInit .dec s).coder with code := v }, cinPos := 4 } :=
      ⟨rfl, rfl, rfl, rfl, rfl, rfl, rfl, rfl, rfl, rfl⟩
    exact ⟨_, exec_ok hlegal (startDec_ok hv), .inl (decodeOpen_respond _ rfl hf rfl
      (hlock.sessionOk (sessionOk_streamInit .dec s)) (streamInit_memory_wf .dec s))⟩

/-- DEC_BYTE on any input goes on, with less left, or ends the session (R140). -/
theorem DecodeOpen.decByte {s : State} (h : DecodeOpen s) :
    ∃ t, exec .decByte s = .next t ∧ (DecodeOpen t ∧ decodeMeasure t < decodeMeasure s ∨ DecodeEnded t) := by
  rcases codeByte_dec_cases h.session h.tables with ⟨c, u, hbyte, hran, -⟩ | ⟨-, u, hbyte, hkept, -⟩
  · have hless := codeByte_dec_decreases (h.session.bitOk h.tables) hbyte
    have hfault : u.fault = 0 := hran.kept.fault.trans h.fault
    refine ⟨_, exec_decByte_ok h.mode hbyte, ?_⟩
    by_cases hc : c = 0
    · rw [hc, afterDecByte_zero]
      exact .inr (decodeEnded_eos _ hfault)
    · have hsame : decodeMeasure (afterDecByte c u) = decodeMeasure u :=
        decodeMeasure_congr (afterDecByte_cin c u) (afterDecByte_cinPos c u) (afterDecByte_coder c u)
      refine .inl ⟨?_, by omega⟩
      rw [afterDecByte_of_ne hc]
      exact decodeOpen_respond _ (hran.kept.mode.trans h.mode) hfault (hran.kept.eos.trans h.eos)
        (sessionOk_of_byte c hran.ok hran.node) hran.ok.tables
  · exact ⟨_, exec_decByte_raised h.mode hbyte, .inr (decodeEnded_inUnderrun (hkept.eos.trans h.eos))⟩

/-! ### The host's loop (R58, R157) -/

/-- As many DEC_BYTE as the measure, and one more, are always enough to end an open session. -/
theorem DecodeOpen.loop {s : State} (h : DecodeOpen s) {n : Nat} (hn : decodeMeasure s < n) :
    ∃ u, decodeLoop n s = .next u ∧ DecodeEnded u := by
  induction n generalizing s with
  | zero => exact absurd hn (Nat.not_lt_zero _)
  | succ n ih =>
    obtain ⟨t, hexec, ⟨hopen, hless⟩ | hended⟩ := h.decByte
    · rw [decodeLoop_succ h.goes_on, hexec, andThen_next]
      exact ih hopen (by omega)
    · exact ⟨t, by rw [decodeLoop_succ h.goes_on, hexec, andThen_next, decodeLoop_of_stops hended.stops], hended⟩

/-- Settles O60: START_DEC opens a session or ends it, and an open session ends within its measure (`DecodeOpen.loop`). -/
theorem decoderAlwaysEnds : Obligations.DecoderAlwaysEnds := by
  intro d hm hf
  obtain ⟨t, hstart, hopen | hended⟩ := startDec_opens_or_ends hm hf
  · obtain ⟨u, hloop, hended⟩ := hopen.loop (Nat.lt_succ_self _)
    exact ⟨_, u, by rw [decompress, issue_eq, hstart, andThen_next, hloop], hended.stops, hended.reason⟩
  · exact ⟨0, t, by rw [decompress, issue_eq, hstart, andThen_next, decodeLoop], hended.stops, hended.reason⟩

end Sys2Proof.Machine
end

section
/-! PROOFS. What RESET defines (R175, R29): the block is left in IDLE mode without fault and without `eos`, and the fault line and
STATUS are read off those three registers. -/

namespace Sys2Proof.Machine

/-- The step at a RESET pulse is the pulse's, taken from the port (R175). -/
theorem step_reset {s : State} {rest : List HostInput} (h : s.inputs = .reset :: rest) :
    step s = .next (applyReset { s with inputs := rest }) := by
  rw [step, takeInput, h]; rfl

/-- The fault line is low without a fault (R156). -/
theorem faultLine_of_fault_zero {s : State} (hf : s.fault = 0) : faultLine s = false := by
  rw [faultLine, hf]; rfl

/-- STATUS is all zero in IDLE mode without a fault and without `eos` (R27). -/
theorem statusWord_of_idle {s : State} (hm : s.mode = .idle) (hf : s.fault = 0) (he : s.eos = false) : statusWord s = 0 :=
  BitVec.eq_of_toNat_eq (by rw [statusWord_toNat, hm, hf, he]; rfl)

/-- Settles O10: a pulse answers `applyReset` of the state with the pulse taken, whose tables are canonical
(`applyReset_memory_wf`); the line and STATUS follow from the registers, there as in `State.reset`. -/
theorem resetDefines : Obligations.ResetDefines := by
  refine ⟨fun s rest hin => ⟨_, step_reset hin, ?_⟩, rfl, rfl, rfl, rfl, rfl, faultLine_of_fault_zero rfl,
    statusWord_of_idle rfl rfl rfl⟩
  exact ⟨applyReset_mode _, applyReset_fault _, applyReset_eos _, applyReset_cout _, applyReset_cinPos _,
    faultLine_of_fault_zero (applyReset_fault _),
    statusWord_of_idle (applyReset_mode _) (applyReset_fault _) (applyReset_eos _), applyReset_memory_wf _,
    applyReset_cin _, applyReset_inputs _, applyReset_rsps _⟩

end Sys2Proof.Machine
end

section
/-! PROOFS. A command outside its modes (R50, R53 (d)), the host's supply of `cin` (R28, R177), and the invariant at the reset
state (R175). -/

namespace Sys2Proof.Machine

/-! ### A command in a mode where it is not legal (R53 (d)) -/

/-- Such a command takes ILLEGAL_CMD in the common part, before its own procedure is run. -/
theorem exec_illegal {i : Instr} {s : State} (hf : s.mode ≠ .fault) (hl : s.mode ∉ legalModes i) :
    exec i s = .next (takeFault .illegalCmd s) := by
  rw [exec_eq, runCommand_illegal hf hl]

/-- Settles O7: the statement's table is `legalModes`, and an illegal command does nothing but the fault entry of
ILLEGAL_CMD. -/
theorem wrongModeRaisesIllegalCmd : Obligations.WrongModeRaisesIllegalCmd := by
  intro s i hf hmode
  have hl : s.mode ∉ legalModes i := by cases i <;> exact hmode
  rw [exec_illegal hf hl, takeFault_illegalCmd]

/-! ### The supply of `cin` (R28, R177) -/

section
variable {l : List Byte} {s : State}

/-- Outside DEC mode a supply is taken, with the read position at its start. -/
theorem supplyStream_of_ne_dec (h : s.mode ≠ .dec) : supplyStream l s = .next { s with cin := l, cinPos := 0 } := if_neg h

/-- While a decode stream is open a supply is refused by name (R182, U17). -/
theorem supplyStream_dec (h : s.mode = .dec) : supplyStream l s = .refused .suppliedWhileDecoding := if_pos h

/-- The step at a supply is the supply's, taken from the port. -/
theorem step_supply {rest : List HostInput} (h : s.inputs = .supply l :: rest) :
    step s = supplyStream l { s with inputs := rest } := by
  rw [step, takeInput, h]; rfl

end

/-- Settles O11: the step is the supply's, whose two cases are those of the mode. -/
theorem supplyGivesWholeStream : Obligations.SupplyGivesWholeStream := by
  intro s stream rest hin
  rw [step_supply hin]
  exact ⟨fun hm => supplyStream_of_ne_dec (s := { s with inputs := rest }) hm,
    fun hm => supplyStream_dec (s := { s with inputs := rest }) hm⟩

/-! ### The invariant at reset (R175) -/

/-- Settles O54: the reset state is one of no stream and no fault, its tables canonical and nothing of `cin` read. -/
theorem resetMeetsInvariant : Obligations.ResetMeetsInvariant :=
  stateInv_idle rfl rfl reset_memory_wf le_rfl

end Sys2Proof.Machine
end
